-- ==== Sys2Proof/Word.lean ====
section
/-!
DEFINITION. The machine's words, bytes and bit vectors (00_scope.md R8 to R10, 10_state.md R20).
-/

namespace Sys2Proof

/-- A register or bus word: 32 bits (10_state.md R20). -/
abbrev Word := BitVec 32

/-- One byte of the BYTES buffer or of a window's storage. -/
abbrev Byte := BitVec 8

/-- A bit vector of 00_scope.md R9: index 0 is the first bit, and its length is part of its value. -/
abbrev Bits := List Bool

end Sys2Proof
end

