-- ==== Sys2Proof/Config.lean ====
section
/-!
DEFINITION. What an implementation fixes: the capacity MAXLEN (00_scope.md R6) and the command latency
(70_reset_and_hazards.md R252). MAXLEN is a component of the machine's state that no step changes, so every
statement about states holds for every legal MAXLEN (log 1). The latency is a free value (log 3).
-/

namespace Sys2Proof

/-- A legal MAXLEN. 00_scope.md R6 makes it a multiple of 32 from 96 to 262144, that is from 3 to 8192 words of
32 bits; the field counts the words above the least, so no illegal value can be written down. -/
structure MaxLen where
  extraWords : Fin 8190
  deriving DecidableEq, Repr

/-- MAXLEN / 32: the mapped words of a bit-buffer window (20_memory.md R62). -/
def MaxLen.words (m : MaxLen) : Nat := m.extraWords.val + 3

/-- MAXLEN in bits (00_scope.md R6). -/
def MaxLen.bits (m : MaxLen) : Nat := 32 * m.words

/-- The MAXLEN of `State.reset`, 96: the least the spec allows.
DESIGN CHOICE (log 1): the spec leaves MAXLEN open; `State.resetOf` takes any other. -/
def Config.maxLen : MaxLen := ⟨0⟩

/-- How many further clocks the `k`-th command stays in flight after the clock of its CMD write, before the bound
of `Config.busyBound` is applied: a free value, part of CMD_LATENCY (70_reset_and_hazards.md R252, log 3). -/
opaque Config.busyCycles : Nat → Nat

/-- The bound on a command's clocks, "a function of MAXLEN alone" (70_reset_and_hazards.md R253): a free value
(log 3). -/
opaque Config.busyBound : MaxLen → Nat

/-- The clocks a command issued as number `k` stays in flight beyond its first. CMD_LATENCY is one more than this,
so it is at least 1 (00_scope.md R7) and bounded in MAXLEN (70_reset_and_hazards.md R253). -/
def Config.busyLeft (m : MaxLen) (k : Nat) : Nat := min (Config.busyCycles k) (Config.busyBound m)

end Sys2Proof
end

