-- ==== Sys2Proof/Syntax.lean ====
section
/-!
DEFINITION. The commands of LFSR-CMD version 1: one constructor per row of spec/opcode_table.json
(30_encoding.md R81, R82, R83), and their assembler text (R92).
-/

namespace Sys2Proof

/-- The three formats of 30_encoding.md R82 that stand for one packing: FMT values 0, 1 and 2. -/
inductive Fmt where
  | bin
  | hex
  | str
  deriving DecidableEq, Repr

/-- The input form of TOBITS (30_encoding.md R82): one of the three formats, or AUTO, FMT value 3. -/
inductive InForm where
  | fixed (f : Fmt)
  | auto
  deriving DecidableEq, Repr

/-- The bit-buffer selector SEL (30_encoding.md R83). -/
inductive BufSel where
  | seed
  | tgt
  | out
  | stgt
  deriving DecidableEq, Repr

/-- The commands. GKEY has two rows in spec/opcode_table.json, one per key source (43_geffe.md R196). -/
inductive Instr where
  /-- TOBITS (40_codec.md R101): `form` is FMT, `dst` is SEL. -/
  | tobits (form : InForm) (dst : BufSel)
  /-- FROMBITS (40_codec.md R105): `fmt` is FMT, `src` is SEL. -/
  | frombits (fmt : Fmt) (src : BufSel)
  /-- SEEDINT (41_lfsr_engine.md R136). -/
  | seedint
  /-- ECFG (41_lfsr_engine.md R138). -/
  | ecfg
  /-- GET (41_lfsr_engine.md R140): `dflt` is the D bit (30_encoding.md R84). -/
  | get (fmt : Fmt) (dflt : Bool)
  /-- TEST (41_lfsr_engine.md R143): `supplied` is the S bit (30_encoding.md R85). -/
  | test (supplied : Bool)
  /-- TCFG (42_berlekamp_massey.md R168). -/
  | tcfg
  /-- GKEY with FMT = BIN (43_geffe.md R196): `src` is SEL. -/
  | gkeyBin (src : BufSel)
  /-- GKEY with FMT = STR (43_geffe.md R196). -/
  | gkeyStr
  /-- GGET (43_geffe.md R198). -/
  | gget (fmt : Fmt)
  deriving DecidableEq, Repr

/-- The suffix of a format in assembler text (30_encoding.md R92). -/
def Fmt.asm : Fmt → String
  | .bin => "bin"
  | .hex => "hex"
  | .str => "str"

/-- The suffix of an input form in assembler text (30_encoding.md R92). -/
def InForm.asm : InForm → String
  | .fixed f => f.asm
  | .auto => "auto"

/-- The operand word of a bit buffer in assembler text (30_encoding.md R92). -/
def BufSel.asm : BufSel → String
  | .seed => "seed"
  | .tgt => "tgt"
  | .out => "out"
  | .stgt => "stgt"

/-- The assembler text of a command (30_encoding.md R92). -/
def Instr.asm : Instr → String
  | .tobits form dst => "tobits." ++ form.asm ++ " " ++ dst.asm
  | .frombits fmt src => "frombits." ++ fmt.asm ++ " " ++ src.asm
  | .seedint => "seedint"
  | .ecfg => "ecfg"
  | .get fmt dflt => "get." ++ fmt.asm ++ (if dflt then " default" else "")
  | .test supplied => "test" ++ (if supplied then " supplied" else "")
  | .tcfg => "tcfg"
  | .gkeyBin src => "gkey.bin " ++ src.asm
  | .gkeyStr => "gkey.str"
  | .gget fmt => "gget." ++ fmt.asm

end Sys2Proof
end

