-- ==== Sys2Proof/WellFormed.lean ====
section
/-!
DEFINITION. Which commands are legal (30_encoding.md R83, R87). The types of Syntax.lean already keep every field
to the values that R87 lists for its opcode, but for one: TOBITS has no destination STGT.
-/

namespace Sys2Proof

/-- STGT "is a legal source but never a legal destination" (30_encoding.md R83). -/
def BufSel.isDestination : BufSel → Bool
  | .seed => true
  | .tgt => true
  | .out => true
  | .stgt => false

/-- The field values are legal for the opcode (30_encoding.md R87). -/
def Instr.wf : Instr → Bool
  | .tobits _ dst => dst.isDestination
  | .frombits _ _ => true
  | .seedint => true
  | .ecfg => true
  | .get _ _ => true
  | .test _ => true
  | .tcfg => true
  | .gkeyBin _ => true
  | .gkeyStr => true
  | .gget _ => true

end Sys2Proof
end

