-- ==== Sys2Proof/Decode.lean ====
section
/-!
DEFINITION. Decoding a command word (30_encoding.md R80 to R91) and, after it, the encoder written from the same
tables. Decoding is total on 32-bit words and says by name why it rejects one; the block answers every rejection
with CommandError (R88, R89).
-/

namespace Sys2Proof

/-- Why a word is no command, in the order of 30_encoding.md R88. -/
inductive DecodeError where
  /-- A bit of RES (31:18) is set (R86). -/
  | reservedBits
  /-- OP is none of 0x01..0x09 (R81). -/
  | reservedOpcode
  /-- FMT, SEL, D or S has a value that R87 does not list for OP. -/
  | illegalFields
  deriving DecidableEq, Repr

/-- The fields of a command word (30_encoding.md R80). -/
structure Fields where
  op : BitVec 8
  fmt : BitVec 4
  sel : BitVec 4
  d : Bool
  s : Bool
  res : BitVec 14
  deriving DecidableEq, Repr

/-- The fields of the word `w` (30_encoding.md R80, R88). -/
def fieldsOf (w : Word) : Fields where
  op := w.extractLsb' 0 8
  fmt := w.extractLsb' 8 4
  sel := w.extractLsb' 12 4
  d := w.getLsbD 16
  s := w.getLsbD 17
  res := w.extractLsb' 18 14

/-- FMT as a format (30_encoding.md R82): 0, 1 and 2. -/
def decodeFmt (f : BitVec 4) : Option Fmt :=
  match f.toNat with
  | 0 => some .bin
  | 1 => some .hex
  | 2 => some .str
  | _ => none

/-- FMT as TOBITS's input form (30_encoding.md R82): 0, 1, 2 and 3. -/
def decodeForm (f : BitVec 4) : Option InForm :=
  match f.toNat with
  | 0 => some (.fixed .bin)
  | 1 => some (.fixed .hex)
  | 2 => some (.fixed .str)
  | 3 => some .auto
  | _ => none

/-- SEL as a bit buffer (30_encoding.md R83): 0, 1, 2 and 3. -/
def decodeSel (f : BitVec 4) : Option BufSel :=
  match f.toNat with
  | 0 => some .seed
  | 1 => some .tgt
  | 2 => some .out
  | 3 => some .stgt
  | _ => none

/-- SEL as TOBITS's destination (30_encoding.md R83, R87): 0, 1 and 2. -/
def decodeDst (f : BitVec 4) : Option BufSel :=
  match f.toNat with
  | 0 => some .seed
  | 1 => some .tgt
  | 2 => some .out
  | _ => none

/-- The command of opcode `op` with these fields, where 30_encoding.md R87 lists them for it: outer `none` for an
opcode that R81 does not list, inner `none` for a field value that R87 does not list. -/
def decodeFields (f : Fields) : Option (Option Instr) :=
  match f.op.toNat with
  | 0x01 => some <|
      match decodeForm f.fmt, decodeDst f.sel, f.d, f.s with
      | some form, some dst, false, false => some (.tobits form dst)
      | _, _, _, _ => none
  | 0x02 => some <|
      match decodeFmt f.fmt, decodeSel f.sel, f.d, f.s with
      | some fmt, some src, false, false => some (.frombits fmt src)
      | _, _, _, _ => none
  | 0x03 => some <|
      match f.fmt.toNat, f.sel.toNat, f.d, f.s with
      | 0, 0, false, false => some .seedint
      | _, _, _, _ => none
  | 0x04 => some <|
      match f.fmt.toNat, f.sel.toNat, f.d, f.s with
      | 0, 0, false, false => some .ecfg
      | _, _, _, _ => none
  | 0x05 => some <|
      match decodeFmt f.fmt, f.sel.toNat, f.s with
      | some fmt, 0, false => some (.get fmt f.d)
      | _, _, _ => none
  | 0x06 => some <|
      match f.fmt.toNat, f.sel.toNat, f.d with
      | 0, 0, false => some (.test f.s)
      | _, _, _ => none
  | 0x07 => some <|
      match f.fmt.toNat, f.sel.toNat, f.d, f.s with
      | 0, 0, false, false => some .tcfg
      | _, _, _, _ => none
  | 0x08 => some <|
      match f.fmt.toNat, decodeSel f.sel, f.d, f.s with
      | 0, some src, false, false => some (.gkeyBin src)
      | 2, some .seed, false, false => some .gkeyStr
      | _, _, _, _ => none
  | 0x09 => some <|
      match decodeFmt f.fmt, f.sel.toNat, f.d, f.s with
      | some fmt, 0, false, false => some (.gget fmt)
      | _, _, _, _ => none
  | _ => none

/-- Decoding a command word, with the checks in the order of 30_encoding.md R88. -/
def decode (w : Word) : Except DecodeError Instr :=
  if (fieldsOf w).res ≠ 0 then .error .reservedBits
  else
    match decodeFields (fieldsOf w) with
    | none => .error .reservedOpcode
    | some none => .error .illegalFields
    | some (some i) => .ok i

/-- FMT of a format (30_encoding.md R82). -/
def Fmt.code : Fmt → BitVec 4
  | .bin => 0
  | .hex => 1
  | .str => 2

/-- FMT of an input form (30_encoding.md R82). -/
def InForm.code : InForm → BitVec 4
  | .fixed f => f.code
  | .auto => 3

/-- SEL of a bit buffer (30_encoding.md R83). -/
def BufSel.code : BufSel → BitVec 4
  | .seed => 0
  | .tgt => 1
  | .out => 2
  | .stgt => 3

/-- The word with these fields (30_encoding.md R80). -/
def wordOfFields (f : Fields) : Word :=
  f.res ++ BitVec.ofBool f.s ++ BitVec.ofBool f.d ++ f.sel ++ f.fmt ++ f.op

/-- The fields of a command: "The assembler sets every field it does not name to 0" (30_encoding.md R81, R92). -/
def Instr.fields : Instr → Fields
  | .tobits form dst => ⟨0x01, form.code, dst.code, false, false, 0⟩
  | .frombits fmt src => ⟨0x02, fmt.code, src.code, false, false, 0⟩
  | .seedint => ⟨0x03, 0, 0, false, false, 0⟩
  | .ecfg => ⟨0x04, 0, 0, false, false, 0⟩
  | .get fmt dflt => ⟨0x05, fmt.code, 0, dflt, false, 0⟩
  | .test supplied => ⟨0x06, 0, 0, false, supplied, 0⟩
  | .tcfg => ⟨0x07, 0, 0, false, false, 0⟩
  | .gkeyBin src => ⟨0x08, 0, src.code, false, false, 0⟩
  | .gkeyStr => ⟨0x08, 2, 0, false, false, 0⟩
  | .gget fmt => ⟨0x09, fmt.code, 0, false, false, 0⟩

/-- The command word of a command (30_encoding.md R92). -/
def encode (i : Instr) : Word := wordOfFields i.fields

/-- The decoder on a word as spec/opcode_table.json numbers its bits: `w` is an instruction whose low `nbits` bits
are given, the bits above them 0. A command is one 32-bit word and has no byte order (20_memory.md R68,
30_encoding.md R91). -/
def decodeTableWord (nbits w : Nat) : Option Instr :=
  if w % 2 ^ nbits < 2 ^ 32 then (decode (BitVec.ofNat 32 (w % 2 ^ nbits))).toOption else none

end Sys2Proof
end

