-- ==== Sys2Proof/Machine/State.lean ====
section
/-!
DEFINITION. The state of the block (10_state.md), its input, and the reasons a step can stop.
-/

namespace Sys2Proof.Machine

/-- The registers of the register map (10_state.md R20). -/
inductive Reg where
  | id
  | cap
  | status
  | cmd
  | argLen
  | argVal
  | n
  | slen
  | tlen
  | bcnt
  | olen
  | stlen
  | bmL
  | bmM
  | gs1
  | gs2
  | gs3
  deriving DecidableEq, Repr

/-- The eight buffers with a window in the address space (20_memory.md R62). -/
inductive Buf where
  | seed
  | taps
  | tgt
  | out
  | stgt
  | bmc
  | bmb
  | bytes
  deriving DecidableEq, Repr

/-- The error codes of STATUS.ERR (60_exceptions.md R210). Codes 8 to 15 are never produced. -/
inductive ErrCode where
  | success
  | formatError
  | lengthError
  | parameterError
  | validationError
  | reconstructionError
  | commandError
  | capacityError
  deriving DecidableEq, Repr

/-- The inputs of the port in one clock (20_memory.md R60): `a` is A[21:2]. -/
structure BusCycle where
  rst : Bool
  sel : Bool
  we : Bool
  a : BitVec 20
  wdata : Word
  deriving DecidableEq, Repr

/-- A command between its CMD write and its completion (10_state.md R43): its word, and how many further clocks it
stays in flight (70_reset_and_hazards.md R250, R252, log 3). -/
structure InFlight where
  word : Word
  busyLeft : Nat
  deriving DecidableEq, Repr

/-- The windows' storage: (byte address, byte) cells, addresses strictly rising, no byte 0 listed. An unlisted byte
reads 0, the reset value of every buffer (10_state.md R44, log 5). -/
abbrev Memory := List Host.Cell

/-- Why the machine stops. -/
inductive Fault where
  /-- `HazardViolation` (70_reset_and_hazards.md R251, R240): an access other than a STATUS read while BUSY = 1, or
  any access while rst = 1. Raised by the bus cycle, never by a command. Safe: the block goes on with an
  unspecified response, which no claim may use. -/
  | hazardViolation
  deriving DecidableEq, Repr

/-- Why a step has no meaning. -/
inductive Refusal where
  /-- A command with no meaning in the model. No arm of `exec` raises it. Safe: the model stops where the block
  goes on. -/
  | notModelled (mnemonic : String)
  deriving DecidableEq, Repr

/-- The state of one block and of its input. STATUS.BUSY is `inflight.isSome`; ID is a constant of the register
read; every other register of 10_state.md R20 is a field, and the eight buffers are in `mem`. -/
structure State where
  /-- MAXLEN, which CAP reads (10_state.md R22). No step changes it. -/
  maxLen : MaxLen
  /-- STATUS.CONFIGURED (10_state.md R39). -/
  configured : Bool
  /-- STATUS.TVALID (10_state.md R40). -/
  tvalid : Bool
  /-- STATUS.STICKY (60_exceptions.md R215). -/
  sticky : Bool
  /-- STATUS.ERR (60_exceptions.md R210). -/
  err : ErrCode
  /-- The in-flight command (10_state.md R43). -/
  inflight : Option InFlight
  /-- ARG_LEN (10_state.md R35). -/
  argLen : Word
  /-- ARG_VAL (10_state.md R35). -/
  argVal : Word
  /-- N (10_state.md R35). -/
  n : Word
  /-- SLEN (10_state.md R26). -/
  slen : Word
  /-- TLEN (10_state.md R28). -/
  tlen : Word
  /-- BCNT (10_state.md R34). -/
  bcnt : Word
  /-- OLEN (10_state.md R29). -/
  olen : Word
  /-- STLEN (10_state.md R30). -/
  stlen : Word
  /-- BM_L (10_state.md R33). -/
  bmL : Word
  /-- BM_M (10_state.md R33). -/
  bmM : Word
  /-- GS1 (10_state.md R37). -/
  gs1 : Word
  /-- GS2 (10_state.md R37). -/
  gs2 : Word
  /-- GS3 (10_state.md R37). -/
  gs3 : Word
  /-- SEED, TAPS, TGT, OUT, STGT, BMC, BMB and BYTES (10_state.md R26 to R34). -/
  mem : Memory
  /-- rdata, the answer to the most recent bus read (20_memory.md R60); none before the first (log 4). -/
  rdata : Option Word
  /-- The bus cycles the host has still to apply, first one first (log 2). The model's own. -/
  port : List BusCycle
  /-- The index of the next free latency value (log 3). The model's own. -/
  fresh : Nat
  deriving DecidableEq, Repr

/-- The block of capacity `m` right after reset (10_state.md R44, 70_reset_and_hazards.md R241). -/
def State.resetOf (m : MaxLen) : State where
  maxLen := m
  configured := false
  tvalid := false
  sticky := false
  err := .success
  inflight := none
  argLen := 0
  argVal := 0
  n := 0
  slen := 0
  tlen := 0
  bcnt := 0
  olen := 0
  stlen := 0
  bmL := 0
  bmM := 0
  gs1 := 0
  gs2 := 0
  gs3 := 0
  mem := []
  rdata := none
  port := []
  fresh := 0

/-- The machine right after reset, with the MAXLEN of `Config.maxLen` (log 1) and no host cycle given (log 7). -/
def State.reset : State := State.resetOf Config.maxLen

end Sys2Proof.Machine
end

