-- ==== Sys2Proof/Machine/Flags.lean ====
section
/-!
DEFINITION. The STATUS word and its flags (10_state.md R23, R39, R40, R42; 60_exceptions.md R210, R215).
-/

namespace Sys2Proof.Machine

/-- The numeric error codes (60_exceptions.md R210). -/
def ErrCode.code : ErrCode → BitVec 4
  | .success => 0
  | .formatError => 1
  | .lengthError => 2
  | .parameterError => 3
  | .validationError => 4
  | .reconstructionError => 5
  | .commandError => 6
  | .capacityError => 7

/-- STATUS.BUSY: a command is in flight (10_state.md R23, R43). -/
def State.busy (s : State) : Bool := s.inflight.isSome

/-- The word a read of STATUS returns (10_state.md R23): ERR in 11:8, STICKY, TVALID, CONFIGURED and BUSY in 3:0,
every other bit 0. -/
def State.statusWord (s : State) : Word :=
  0#20 ++ s.err.code ++ 0#4 ++ BitVec.ofBool s.sticky ++ BitVec.ofBool s.tvalid ++
    BitVec.ofBool s.configured ++ BitVec.ofBool s.busy

/-- Clear CONFIGURED and TVALID: the engine's parameters changed (10_state.md R39, R40, R42). -/
def State.clearConfig (s : State) : State := { s with configured := false, tvalid := false }

/-- A host write to STATUS "changes only STICKY, and only when bit 3 of the written value is 1" (10_state.md R23). -/
def State.writeStatus (s : State) (w : Word) : State :=
  { s with sticky := s.sticky && !w.getLsbD 3 }

end Sys2Proof.Machine
end

