-- ==== Sys2Proof/Machine/Memory.lean ====
section
/-!
DEFINITION. The storage of the buffer windows: reads and stores of bytes and big-endian words at 22-bit byte
addresses (20_memory.md R60, R63, R68), and where the windows lie (R62).
-/

namespace Sys2Proof.Machine

/-- The canonical form of a memory: addresses strictly rising and no entry equal to what an unlisted address reads
as. Equal contents are then equal lists. -/
abbrev Memory.wf (m : Memory) : Prop :=
  m.Pairwise (fun c c' => c.1 < c'.1) ∧ ∀ c ∈ m, c.2 ≠ 0

/-- The byte at address `x`. An unlisted address reads 0 (10_state.md R44, log 5). -/
def Memory.read : Memory → Nat → Byte
  | [], _ => 0
  | (a, b) :: m, x => if x = a then b else Memory.read m x

/-- The cells that hold `bs` from address `a` on: the bytes that are not 0. -/
def Memory.cellsFrom : Nat → List Byte → Memory
  | _, [] => []
  | a, b :: bs => if b = 0 then Memory.cellsFrom (a + 1) bs else (a, b) :: Memory.cellsFrom (a + 1) bs

/-- `m` with its `k` bytes from address `lo` on replaced: by `bs`, and by 0 where `bs` is shorter. The one store
of the model: a host word write and a command's zero-filled buffer write are both this (00_scope.md R11). -/
def Memory.replace (m : Memory) (lo k : Nat) (bs : List Byte) : Memory :=
  m.filter (fun c => decide (c.1 < lo)) ++ Memory.cellsFrom lo (bs.take k) ++
    m.filter (fun c => decide (lo + k ≤ c.1))

/-- The four bytes of a word, most significant first (20_memory.md R64, R68). -/
def bytesOfWord (w : Word) : List Byte :=
  [w.extractLsb' 24 8, w.extractLsb' 16 8, w.extractLsb' 8 8, w.extractLsb' 0 8]

/-- The word at byte address `a` (20_memory.md R63, R68). -/
def Memory.readWord (m : Memory) (a : Nat) : Word :=
  Memory.read m a ++ Memory.read m (a + 1) ++ Memory.read m (a + 2) ++ Memory.read m (a + 3)

/-- A store of one word (20_memory.md R63). -/
def Memory.writeWord (m : Memory) (a : Nat) (w : Word) : Memory :=
  Memory.replace m a 4 (bytesOfWord w)

/-- The base address of a buffer's window (20_memory.md R62). -/
def Buf.base : Buf → Nat
  | .seed => 0x040000
  | .taps => 0x080000
  | .tgt => 0x0C0000
  | .out => 0x100000
  | .stgt => 0x140000
  | .bmc => 0x180000
  | .bmb => 0x1C0000
  | .bytes => 0x200000

/-- The mapped words of a buffer's window (20_memory.md R62): MAXLEN/32, one more for the coefficient buffers, and
MAXLEN/4 for BYTES. -/
def Buf.words (m : MaxLen) : Buf → Nat
  | .seed => m.bits / 32
  | .taps => m.bits / 32
  | .tgt => m.bits / 32
  | .out => m.bits / 32
  | .stgt => m.bits / 32
  | .bmc => m.bits / 32 + 1
  | .bmb => m.bits / 32 + 1
  | .bytes => m.bits / 4

/-- The capacity of a bit buffer in bits: MAXLEN (10_state.md R26 to R30), and MAXLEN + 1 for the coefficient
buffers (R31, R32). BYTES has MAXLEN bytes (R34). -/
def Buf.capacity (m : MaxLen) : Buf → Nat
  | .seed => m.bits
  | .taps => m.bits
  | .tgt => m.bits
  | .out => m.bits
  | .stgt => m.bits
  | .bmc => m.bits + 1
  | .bmb => m.bits + 1
  | .bytes => 8 * m.bits

/-- The host may write the window (20_memory.md R62). -/
def Buf.hostWrites : Buf → Bool
  | .seed => true
  | .taps => true
  | .tgt => true
  | .out => false
  | .stgt => false
  | .bmc => false
  | .bmb => false
  | .bytes => true

/-- Byte address `x` is one of the mapped bytes of buffer `b`'s window. -/
abbrev Buf.mapped (m : MaxLen) (b : Buf) (x : Nat) : Prop :=
  b.base ≤ x ∧ x < b.base + 4 * b.words m

end Sys2Proof.Machine
end

