-- ==== Sys2Proof/Machine/Operands.lean ====
section
/-!
DEFINITION. The operand forms of the commands: bits and bytes of the buffers (20_memory.md R64 to R67), the buffers
and length registers that SEL names (30_encoding.md R83), and the zero-filled buffer writes (00_scope.md R11).
-/

namespace Sys2Proof.Machine

/-- The word bit that holds bit `i` of a buffer's bit sequence: `31 - (i mod 32)` for SEED, TGT, OUT and STGT
(20_memory.md R67), `i mod 32` for TAPS, BMC and BMB (R65, R66). A bit of BYTES counts most significant first in
each byte (R64). -/
def Buf.wordBit : Buf → Nat → Nat
  | .seed, i => 31 - i % 32
  | .taps, i => i % 32
  | .tgt, i => 31 - i % 32
  | .out, i => 31 - i % 32
  | .stgt, i => 31 - i % 32
  | .bmc, i => i % 32
  | .bmb, i => i % 32
  | .bytes, i => 31 - i % 32

/-- Word `k` of a buffer's window (20_memory.md R62). -/
def State.bufWord (s : State) (b : Buf) (k : Nat) : Word := Memory.readWord s.mem (b.base + 4 * k)

/-- `buf[i]`, bit `i` of a buffer (00_scope.md R11). -/
def State.bufBit (s : State) (b : Buf) (i : Nat) : Bool := (s.bufWord b (i / 32)).getLsbD (b.wordBit i)

/-- `buf[0:len)` (00_scope.md R11). -/
def State.bits (s : State) (b : Buf) (len : Nat) : Bits := (List.range len).map (s.bufBit b)

/-- `BYTES[j]` (20_memory.md R64): bits `31 - 8*(j mod 4)` to `24 - 8*(j mod 4)` of word `j div 4`. -/
def State.byteAt (s : State) (j : Nat) : Byte :=
  (s.bufWord .bytes (j / 4)).extractLsb' (24 - 8 * (j % 4)) 8

/-- `BYTES[0:c)` (00_scope.md R11). -/
def State.bytes (s : State) (c : Nat) : List Byte := (List.range c).map s.byteAt

/-- Word `k` of the window of buffer `b` when the buffer holds `v` and zeros beyond it. -/
def packedWord (b : Buf) (v : Bits) (k : Nat) : Word :=
  BitVec.ofFnLE fun j : Fin 32 => v.getD (32 * k + b.wordBit j) false

/-- The bytes of the window of buffer `b` when the buffer holds `v`, up to the last word `v` reaches. -/
def packedBytes (b : Buf) (v : Bits) : List Byte :=
  (List.range ((v.length + 31) / 32)).flatMap fun k => bytesOfWord (packedWord b v k)

/-- `WriteBits(buf, v)` (00_scope.md R11): `v` from bit 0 on, and 0 from there to the capacity. -/
def State.writeBits (s : State) (b : Buf) (v : Bits) : State :=
  { s with mem :=
      Memory.replace s.mem b.base (4 * b.words s.maxLen) (packedBytes b (v.take (b.capacity s.maxLen))) }

/-- `WriteBytes(v)` (00_scope.md R11): `v` from byte 0 of BYTES on, and 0 from there to the capacity, MAXLEN bytes. -/
def State.writeBytes (s : State) (v : List Byte) : State :=
  { s with mem := Memory.replace s.mem Buf.bytes.base s.maxLen.bits v }

/-- The buffer that SEL names (30_encoding.md R83). -/
def bufOf : BufSel → Buf
  | .seed => .seed
  | .tgt => .tgt
  | .out => .out
  | .stgt => .stgt

/-- The value of the length register of the buffer that SEL names (30_encoding.md R83, R90), as a number. -/
def State.selLen (s : State) : BufSel → Nat
  | .seed => s.slen.toNat
  | .tgt => s.tlen.toNat
  | .out => s.olen.toNat
  | .stgt => s.stlen.toNat

/-- Write the length register of the buffer that SEL names (30_encoding.md R83). -/
def State.setSelLen (s : State) (b : BufSel) (len : Nat) : State :=
  match b with
  | .seed => { s with slen := BitVec.ofNat 32 len }
  | .tgt => { s with tlen := BitVec.ofNat 32 len }
  | .out => { s with olen := BitVec.ofNat 32 len }
  | .stgt => { s with stlen := BitVec.ofNat 32 len }

/-- `TapSetOf(TAPS, n)` (41_lfsr_engine.md R132): the tap positions `1 <= p <= n` whose mask bit `p-1` is 1, in
rising order. -/
def State.tapSet (s : State) (n : Nat) : List Nat :=
  ((List.range n).map (· + 1)).filter fun p => s.bufBit .taps (p - 1)

/-- The mask of a tap set over positions 1 to `n` (20_memory.md R65): mask bit `p-1` is 1 exactly when `p` is in it. -/
def tapMask (taps : List Nat) (n : Nat) : Bits :=
  (List.range n).map fun j => decide (j + 1 ∈ taps)

end Sys2Proof.Machine
end

