-- ==== Sys2Proof/Machine/Ops.lean ====
section
/-!
DEFINITION. How a command ends (60_exceptions.md R214, R215), the result stores that several commands share, and
reset (70_reset_and_hazards.md R240).
-/

namespace Sys2Proof.Machine

/-- Error entry (60_exceptions.md R214): "STATUS.ERR <- code, STATUS.STICKY <- 1 and STATUS.BUSY <- 0, and changes
nothing else". There is no handler and no return from one (R217). -/
def State.raise (s : State) (e : ErrCode) : State :=
  { s with err := e, sticky := true, inflight := none }

/-- Success (60_exceptions.md R215): ERR <- 0, BUSY <- 0, STICKY unchanged. -/
def State.succeed (s : State) : State :=
  { s with err := .success, inflight := none }

/-- The end of a command issued in state `s`: its results commit together (70_reset_and_hazards.md R250), or it
raises the error of its first failing check and commits nothing (60_exceptions.md R213, R214). -/
def State.finish (s : State) (r : Except ErrCode State) : Host.Outcome State Fault Refusal :=
  match r with
  | .error e => .next (s.raise e)
  | .ok t => .next t.succeed

/-- A bit-form result: `WriteBits(buf, v)` and its length register (30_encoding.md R83). -/
def State.storeBits (s : State) (b : BufSel) (v : Bits) : State :=
  (s.writeBits (bufOf b) v).setSelLen b v.length

/-- A byte-form result: `WriteBytes(v); reg[BCNT] <- count(v)`. -/
def State.storeBytes (s : State) (v : List Byte) : State :=
  { s.writeBytes v with bcnt := BitVec.ofNat 32 v.length }

/-- One clock with rst = 1 (70_reset_and_hazards.md R240): every piece of state at its reset value (10_state.md
R44), the command in flight aborted. MAXLEN is a constant of the block; the model's own fields stay (log 8). -/
def State.resetCycle (s : State) : State :=
  { State.resetOf s.maxLen with port := s.port, fresh := s.fresh }

/-- The command word `w` in flight, to complete in the very next step. -/
def State.commandInFlight (s : State) (w : Word) : State :=
  { s with inflight := some ⟨w, 0⟩ }

end Sys2Proof.Machine
end

