-- ==== Sys2Proof/Machine/Codec.lean ====
section
/-!
DEFINITION. The bit-sequence codec: Unpack, Detect, HexVal, HexChar and Pack (40_codec.md R100, R102, R103, R104),
and the commands TOBITS (R101) and FROMBITS (R105).
-/

namespace Sys2Proof.Machine

/-- `HexVal(x)` (40_codec.md R103), for the ASCII codes of 00_scope.md R14; `none` for a byte that is no hex digit. -/
def hexVal (x : Byte) : Option (BitVec 4) :=
  if 0x30 ≤ x.toNat ∧ x.toNat ≤ 0x39 then some (BitVec.ofNat 4 (x.toNat - 0x30))
  else if 0x61 ≤ x.toNat ∧ x.toNat ≤ 0x66 then some (BitVec.ofNat 4 (x.toNat - 0x61 + 10))
  else if 0x41 ≤ x.toNat ∧ x.toNat ≤ 0x46 then some (BitVec.ofNat 4 (x.toNat - 0x41 + 10))
  else none

/-- `HexChar(v)` (40_codec.md R103): lower case. -/
def hexChar (v : BitVec 4) : Byte :=
  if v.toNat ≤ 9 then BitVec.ofNat 8 (0x30 + v.toNat) else BitVec.ofNat 8 (0x61 + (v.toNat - 10))

/-- The byte is ASCII `'0'` or `'1'` (40_codec.md R100, R102). -/
def isBinChar (x : Byte) : Bool := x == 0x30 || x == 0x31

/-- "each hex digit expands to 4 bits", bit 3 first (40_codec.md R100). -/
def nibbleBits (v : BitVec 4) : Bits := [v.getLsbD 3, v.getLsbD 2, v.getLsbD 1, v.getLsbD 0]

/-- A byte's 8 bits, "most-significant-bit first" (40_codec.md R100). -/
def byteBits (x : Byte) : Bits :=
  [x.getLsbD 7, x.getLsbD 6, x.getLsbD 5, x.getLsbD 4, x.getLsbD 3, x.getLsbD 2, x.getLsbD 1, x.getLsbD 0]

/-- The bits of a sequence of hex digits, 4 bits each; `none` at a byte that is no hex digit. -/
def unpackHexDigits : List Byte → Option Bits
  | [] => some []
  | x :: xs =>
    match hexVal x, unpackHexDigits xs with
    | some v, some r => some (nibbleBits v ++ r)
    | _, _ => none

/-- `Unpack(form, b)` (40_codec.md R100); `none` is its FormatError. -/
def unpack : Fmt → List Byte → Option Bits
  | .bin, b => if b.all isBinChar then some (b.map (· == 0x31)) else none
  | .hex, b => if b.length % 2 ≠ 0 then none else unpackHexDigits b
  | .str, b => some (b.flatMap byteBits)

/-- `Detect(b)` (40_codec.md R102): BIN when every byte is `'0'` or `'1'`, else STR; never HEX. -/
def detect (b : List Byte) : Fmt := if b.all isBinChar then .bin else .str

/-- The form TOBITS decodes with: FMT, or `Detect` under AUTO (40_codec.md R101). -/
def resolveForm (form : InForm) (b : List Byte) : Fmt :=
  match form with
  | .fixed f => f
  | .auto => detect b

/-- The byte or nibble value of a group of bits, first bit most significant (40_codec.md R104). -/
def bitsToNat (v : Bits) : Nat := v.foldl (fun a b => 2 * a + b.toNat) 0

/-- One lower-case hex character for each 4 bits (40_codec.md R104). -/
def hexBytes : Bits → List Byte
  | a :: b :: c :: d :: r => hexChar (BitVec.ofNat 4 (bitsToNat [a, b, c, d])) :: hexBytes r
  | _ => []

/-- One byte for each 8 bits, most significant first (40_codec.md R104). -/
def strBytes : Bits → List Byte
  | a :: b :: c :: d :: e :: f :: g :: h :: r =>
    BitVec.ofNat 8 (bitsToNat [a, b, c, d, e, f, g, h]) :: strBytes r
  | _ => []

/-- The two kinds of result of `Pack` (40_codec.md R104). -/
inductive Packed where
  | bits (v : Bits)
  | bytes (v : List Byte)
  deriving DecidableEq, Repr

/-- `Pack(bits, fmt)` (40_codec.md R104): LengthError unless HEX and STR are given a multiple of 8 bits. -/
def pack (fmt : Fmt) (v : Bits) : Except ErrCode Packed :=
  match fmt with
  | .bin => .ok (.bits v)
  | .hex => if v.length % 8 ≠ 0 then .error .lengthError else .ok (.bytes (hexBytes v))
  | .str => if v.length % 8 ≠ 0 then .error .lengthError else .ok (.bytes (strBytes v))

/-- `if fmt != BIN then (_, r) := Pack(out, fmt); WriteBytes(r); reg[BCNT] <- count(r)`: what GET and GGET do with
their bits beside OUT (41_lfsr_engine.md R140, 43_geffe.md R198). -/
def State.storePacked (s : State) (fmt : Fmt) (v : Bits) : State :=
  match pack fmt v with
  | .ok (.bytes r) => s.storeBytes r
  | _ => s

/-- A generated keystream: into OUT, and packed into BYTES unless FMT = BIN (41_lfsr_engine.md R140, 43_geffe.md
R198). -/
def State.emit (s : State) (fmt : Fmt) (v : Bits) : State := (s.storeBits .out v).storePacked fmt v

/-- `if sel == 0 then CONFIGURED <- 0; TVALID <- 0`: "the engine's seed changed" (40_codec.md R101). -/
def State.seedChanged (s : State) (dst : BufSel) : State :=
  match dst with
  | .seed => s.clearConfig
  | _ => s

/-- TOBITS's checks and results (40_codec.md R101). The destination STGT is an illegal field (30_encoding.md R83,
R88); decoding never gives it. -/
def tobitsResult (form : InForm) (dst : BufSel) (s : State) : Except ErrCode State :=
  if !dst.isDestination then .error .commandError
  else if s.bcnt.toNat > s.maxLen.bits then .error .capacityError
  else
    match unpack (resolveForm form (s.bytes s.bcnt.toNat)) (s.bytes s.bcnt.toNat) with
    | none => .error .formatError
    | some v =>
      if v.length > s.maxLen.bits then .error .capacityError
      else .ok ((s.storeBits dst v).seedChanged dst)

/-- FROMBITS's checks and results (40_codec.md R105). -/
def frombitsResult (fmt : Fmt) (src : BufSel) (s : State) : Except ErrCode State :=
  if s.selLen src > s.maxLen.bits then .error .capacityError
  else
    match pack fmt (s.bits (bufOf src) (s.selLen src)) with
    | .error e => .error e
    | .ok (.bits r) => .ok (s.storeBits .out r)
    | .ok (.bytes r) => .ok (s.storeBytes r)

/-- TOBITS (40_codec.md R101). -/
def execTobits (form : InForm) (dst : BufSel) (s : State) : Host.Outcome State Fault Refusal :=
  s.finish (tobitsResult form dst s)

/-- FROMBITS (40_codec.md R105). -/
def execFrombits (fmt : Fmt) (src : BufSel) (s : State) : Host.Outcome State Fault Refusal :=
  s.finish (frombitsResult fmt src s)

end Sys2Proof.Machine
end

