-- ==== Sys2Proof/Machine/Lfsr.lean ====
section
/-!
DEFINITION. The LFSR engine: the generation function (41_lfsr_engine.md R130) and the commands SEEDINT (R136), ECFG
(R138), GET (R140) and TEST (R143).
-/

namespace Sys2Proof.Machine

/-- The XOR of a list of bits; the empty XOR is 0 (41_lfsr_engine.md R130). -/
def xorSum (v : Bits) : Bool := v.foldr (fun a b => a ^^ b) false

/-- The feedback bit of the register window `h`, most recent bit first: tap `p` is "counted from the
most-recently-produced end", position 1 the previous bit (00_scope.md R12). -/
def feedback (taps : List Nat) (h : Bits) : Bool := xorSum (taps.map fun p => h.getD (p - 1) false)

/-- Produce bit `k` after the history `h`: the seed's bit while `k < n`, then the feedback bit (41_lfsr_engine.md
R130). -/
def lfsrNext (seed : Bits) (taps : List Nat) (k : Nat) (h : Bits) : Bits :=
  (if k < seed.length then seed.getD k false else feedback taps h) :: h

/-- The first `len` produced bits, most recent first. -/
def lfsrHistory (seed : Bits) (taps : List Nat) : Nat → Bits
  | 0 => []
  | k + 1 => lfsrNext seed taps k (lfsrHistory seed taps k)

/-- `Lfsr(seed, taps, len)` (41_lfsr_engine.md R130): the Fibonacci form (00_scope.md R3, 90_conflicts.md C1). -/
def lfsr (seed : Bits) (taps : List Nat) (len : Nat) : Bits := (lfsrHistory seed taps len).reverse

/-- `Lfsr(SEED[0:reg[N]), TapSetOf(TAPS, reg[N]), len)`: what GET and TEST generate (41_lfsr_engine.md R132). -/
def State.engineOutput (s : State) (len : Nat) : Bits :=
  lfsr (s.bits .seed s.n.toNat) (s.tapSet s.n.toNat) len

/-- The `n`-bit form of an integer, most significant bit first, zero-extended (41_lfsr_engine.md R136). -/
def seedOfInt (v : Word) (n : Nat) : Bits := (List.range n).map fun i => v.getLsbD (n - 1 - i)

/-- SEEDINT's checks and results (41_lfsr_engine.md R136). -/
def seedintResult (s : State) : Except ErrCode State :=
  if s.n.toNat = 0 then .error .parameterError
  else if s.n.toNat > s.maxLen.bits then .error .capacityError
  else if s.n.toNat < 32 ∧ s.argVal.toNat ≥ 2 ^ s.n.toNat then .error .lengthError
  else .ok (s.storeBits .seed (seedOfInt s.argVal s.n.toNat)).clearConfig

/-- A tap above `n` is set: `exists p with n < p <= MAXLEN and TAPS bit p-1 == 1` (41_lfsr_engine.md R138). -/
def State.tapAbove (s : State) (n : Nat) : Bool :=
  (List.range' n (s.maxLen.bits - n)).any fun j => s.bufBit .taps j

/-- ECFG's checks and results (41_lfsr_engine.md R138). -/
def ecfgResult (s : State) : Except ErrCode State :=
  if s.n.toNat = 0 then .error .parameterError
  else if s.n.toNat > s.maxLen.bits then .error .capacityError
  else if s.tapAbove s.n.toNat then .error .parameterError
  else if s.slen ≠ s.n then .error .lengthError
  else .ok { s with configured := true, tvalid := false }

/-- The length of a GET: ARG_LEN when D = 0; when D = 1 the target's length, or 1 without a target
(30_encoding.md R84, 41_lfsr_engine.md R140). -/
def State.getLen (s : State) (dflt : Bool) : Nat :=
  if dflt then (if s.tvalid then s.stlen.toNat else 1) else s.argLen.toNat

/-- `fmt in {HEX, STR}`: the output is packed into bytes. -/
def packsBytes : Fmt → Bool
  | .bin => false
  | .hex => true
  | .str => true

/-- GET's checks and results (41_lfsr_engine.md R140). -/
def getResult (fmt : Fmt) (dflt : Bool) (s : State) : Except ErrCode State :=
  if !s.configured then .error .parameterError
  else if s.getLen dflt > s.maxLen.bits then .error .capacityError
  else if packsBytes fmt ∧ s.getLen dflt % 8 ≠ 0 then .error .lengthError
  else .ok (s.emit fmt (s.engineOutput (s.getLen dflt)))

/-- TEST's comparison of the regenerated bits with the target `t` (41_lfsr_engine.md R143). -/
def State.compareWith (s : State) (t : Bits) : Except ErrCode State :=
  if s.engineOutput t.length ≠ t then .error .validationError else .ok s

/-- TEST's checks (41_lfsr_engine.md R143): against STGT when S = 0, against TGT when S = 1. -/
def testResult (supplied : Bool) (s : State) : Except ErrCode State :=
  if !s.configured then .error .parameterError
  else if supplied then
    if s.tlen.toNat > s.maxLen.bits then .error .capacityError
    else s.compareWith (s.bits .tgt s.tlen.toNat)
  else
    if !s.tvalid then .error .parameterError
    else s.compareWith (s.bits .stgt s.stlen.toNat)

/-- SEEDINT (41_lfsr_engine.md R136). -/
def execSeedint (s : State) : Host.Outcome State Fault Refusal := s.finish (seedintResult s)

/-- ECFG (41_lfsr_engine.md R138). -/
def execEcfg (s : State) : Host.Outcome State Fault Refusal := s.finish (ecfgResult s)

/-- GET (41_lfsr_engine.md R140). -/
def execGet (fmt : Fmt) (dflt : Bool) (s : State) : Host.Outcome State Fault Refusal :=
  s.finish (getResult fmt dflt s)

/-- TEST (41_lfsr_engine.md R143). -/
def execTest (supplied : Bool) (s : State) : Host.Outcome State Fault Refusal :=
  s.finish (testResult supplied s)

end Sys2Proof.Machine
end

