-- ==== Sys2Proof/Machine/Geffe.lean ====
section
/-!
DEFINITION. The Geffe combiner: its fixed engines and selector (43_geffe.md R190 to R194) and the commands GKEY
(R196) and GGET (R198).
-/

namespace Sys2Proof.Machine

/-- T1 (43_geffe.md R190). -/
def geffeTaps1 : List Nat := [3, 4, 6, 7, 8, 9, 11, 32]

/-- T2 (43_geffe.md R190). -/
def geffeTaps2 : List Nat := [1, 2, 3, 4, 6, 8, 9, 13, 14, 32]

/-- T3 (43_geffe.md R190). -/
def geffeTaps3 : List Nat := [1, 2, 3, 7, 12, 14, 15, 32]

/-- The selector `F(x1, x2, x3) = (x1 & x2) ^ (~x1 & x3)` (43_geffe.md R191, 90_conflicts.md C4). -/
def geffeSelect (x1 x2 x3 : Bool) : Bool := (x1 && x2) ^^ (!x1 && x3)

/-- The seed vector of an engine: `gseed_j[k] = GSj[31 - k]` (43_geffe.md R192). -/
def geffeSeed (g : Word) : Bits := (List.range 32).map fun k => g.getLsbD (31 - k)

/-- `Geffe(len)` (43_geffe.md R193): the three engines in lock-step, seed bits included. -/
def geffe (g1 g2 g3 : Word) (len : Nat) : Bits :=
  List.zipWith (fun (x1 : Bool) (x : Bool × Bool) => geffeSelect x1 x.1 x.2)
    (lfsr (geffeSeed g1) geffeTaps1 len)
    (List.zip (lfsr (geffeSeed g2) geffeTaps2 len) (lfsr (geffeSeed g3) geffeTaps3 len))

/-- GGET's checks and results (43_geffe.md R198). -/
def ggetResult (fmt : Fmt) (s : State) : Except ErrCode State :=
  if s.argLen.toNat > s.maxLen.bits then .error .capacityError
  else if packsBytes fmt ∧ s.argLen.toNat % 8 ≠ 0 then .error .lengthError
  else .ok (s.emit fmt (geffe s.gs1 s.gs2 s.gs3 s.argLen.toNat))

/-- Chunk `j` of a 96-bit key: bit `31 - k` is key bit `32*j + k` (43_geffe.md R196). -/
def keyChunk (key : Bits) (j : Nat) : Word :=
  BitVec.ofFnLE fun b : Fin 32 => key.getD (32 * j + (31 - b)) false

/-- Load the three seeds (43_geffe.md R196). -/
def State.setGeffeSeeds (s : State) (g1 g2 g3 : Word) : State := { s with gs1 := g1, gs2 := g2, gs3 := g3 }

/-- GKEY's check and result with FMT = BIN (43_geffe.md R196): the key is 96 bits of the SEL buffer. -/
def gkeyBinResult (src : BufSel) (s : State) : Except ErrCode State :=
  if s.selLen src ≠ 96 then .error .parameterError
  else
    let key := s.bits (bufOf src) 96
    .ok (s.setGeffeSeeds (keyChunk key 0) (keyChunk key 1) (keyChunk key 2))

/-- Seed `j + 1` of a 12-byte key: four bytes, big-endian (43_geffe.md R196). -/
def State.keyBytes (s : State) (j : Nat) : Word :=
  s.byteAt (4 * j) ++ s.byteAt (4 * j + 1) ++ s.byteAt (4 * j + 2) ++ s.byteAt (4 * j + 3)

/-- GKEY's check and result with FMT = STR (43_geffe.md R196): the key is 12 bytes of BYTES. -/
def gkeyStrResult (s : State) : Except ErrCode State :=
  if s.bcnt.toNat ≠ 12 then .error .parameterError
  else .ok (s.setGeffeSeeds (s.keyBytes 0) (s.keyBytes 1) (s.keyBytes 2))

/-- GKEY with FMT = BIN (43_geffe.md R196). -/
def execGkeyBin (src : BufSel) (s : State) : Host.Outcome State Fault Refusal := s.finish (gkeyBinResult src s)

/-- GKEY with FMT = STR (43_geffe.md R196). -/
def execGkeyStr (s : State) : Host.Outcome State Fault Refusal := s.finish (gkeyStrResult s)

/-- GGET (43_geffe.md R198). -/
def execGget (fmt : Fmt) (s : State) : Host.Outcome State Fault Refusal := s.finish (ggetResult fmt s)

end Sys2Proof.Machine
end

