-- ==== Sys2Proof/Machine/Reconstructor.lean ====
section
/-!
DEFINITION. The Berlekamp–Massey reconstructor: the algorithm (42_berlekamp_massey.md R161 to R166) and the command
TCFG (R168, R169).
-/

namespace Sys2Proof.Machine

/-- GF(2) polynomial addition on coefficient vectors (00_scope.md R13): coefficient-wise XOR. -/
def polyAdd : Bits → Bits → Bits
  | [], q => q
  | p, [] => p
  | a :: p, b :: q => (a ^^ b) :: polyAdd p q

/-- `x^k * P` (00_scope.md R13): the coefficient vector shifted up by `k`. -/
def polyShift (k : Nat) (p : Bits) : Bits := List.replicate k false ++ p

/-- The variables of the iteration between two positions (42_berlekamp_massey.md R161, R170). -/
structure BmState where
  c : Bits
  b : Bits
  l : Nat
  m : Int
  deriving DecidableEq, Repr

/-- The initial values (42_berlekamp_massey.md R162): C = 1, B = 1, L = 0, m = -1. -/
def bmInit : BmState := ⟨[true], [true], 0, -1⟩

/-- The discrepancy `d = s[i] ^ XOR_{j=1..L} (C[j] & s[i-j])` (42_berlekamp_massey.md R163). -/
def discrepancy (s : Bits) (i : Nat) (c : Bits) (l : Nat) : Bool :=
  s.getD i false ^^
    xorSum ((List.range l).map fun j => c.getD (j + 1) false && s.getD (i - (j + 1)) false)

/-- Position `i` of the iteration (42_berlekamp_massey.md R161): no change when d = 0; else the update of R164, and
the length change of R165, whose condition `2*L <= i` is not strict. -/
def bmStep (s : Bits) (i : Nat) (st : BmState) : BmState :=
  if discrepancy s i st.c st.l then
    let c' := polyAdd st.c (polyShift (i - st.m).toNat st.b)
    if 2 * st.l ≤ i then ⟨c', st.c, i + 1 - st.l, i⟩ else { st with c := c' }
  else st

/-- The variables after the first `k` positions. -/
def bmRun (s : Bits) : Nat → BmState
  | 0 => bmInit
  | i + 1 => bmStep s i (bmRun s i)

/-- The variables after the last position of `s`. -/
def bmFinal (s : Bits) : BmState := bmRun s s.length

/-- The TapSet of the result: `{ j : 1 <= j <= L and C[j] == 1 }` (42_berlekamp_massey.md R161, R166). -/
def bmTaps (st : BmState) : List Nat :=
  ((List.range st.l).map (· + 1)).filter fun j => st.c.getD j false

/-- The seed of the result: "the first `L` bits of the target" (42_berlekamp_massey.md R161, R166). -/
def bmSeed (s : Bits) (st : BmState) : Bits := s.take st.l

/-- What TCFG commits for the target `v` and its reconstruction `st` (42_berlekamp_massey.md R168). -/
def State.commitReconstruction (s : State) (v : Bits) (st : BmState) : State :=
  { ((((s.storeBits .seed (bmSeed v st)).writeBits .taps (tapMask (bmTaps st) st.l)).storeBits .stgt v).writeBits
      .bmc st.c).writeBits .bmb st.b with
    slen := BitVec.ofNat 32 st.l
    n := BitVec.ofNat 32 st.l
    bmL := BitVec.ofNat 32 st.l
    bmM := BitVec.ofInt 32 st.m
    configured := true
    tvalid := true }

/-- TCFG's result for the target `v` (42_berlekamp_massey.md R168): the self-check of R169 over the whole target,
then the commit. -/
def State.reconstruct (s : State) (v : Bits) : Except ErrCode State :=
  if lfsr (bmSeed v (bmFinal v)) (bmTaps (bmFinal v)) v.length ≠ v then .error .reconstructionError
  else .ok (s.commitReconstruction v (bmFinal v))

/-- TCFG's checks and results (42_berlekamp_massey.md R168). -/
def tcfgResult (s : State) : Except ErrCode State :=
  if s.tlen.toNat > s.maxLen.bits then .error .capacityError
  else s.reconstruct (s.bits .tgt s.tlen.toNat)

/-- TCFG (42_berlekamp_massey.md R168). -/
def execTcfg (s : State) : Host.Outcome State Fault Refusal := s.finish (tcfgResult s)

end Sys2Proof.Machine
end

