-- ==== Sys2Proof/Machine/Dispatch.lean ====
section
/-!
DEFINITION. The meaning of each command, one arm per constructor of Instr.
-/

namespace Sys2Proof.Machine

def exec (i : Instr) (s : State) : Host.Outcome State Fault Refusal :=
  match i with
  | .tobits form dst => Sys2Proof.Machine.execTobits form dst s
  | .frombits fmt src => Sys2Proof.Machine.execFrombits fmt src s
  | .seedint => Sys2Proof.Machine.execSeedint s
  | .ecfg => Sys2Proof.Machine.execEcfg s
  | .get fmt dflt => Sys2Proof.Machine.execGet fmt dflt s
  | .test supplied => Sys2Proof.Machine.execTest supplied s
  | .tcfg => Sys2Proof.Machine.execTcfg s
  | .gkeyBin src => Sys2Proof.Machine.execGkeyBin src s
  | .gkeyStr => Sys2Proof.Machine.execGkeyStr s
  | .gget fmt => Sys2Proof.Machine.execGget fmt s

end Sys2Proof.Machine
end

