-- ==== Sys2Proof/Machine/Bus.lean ====
section
/-!
DEFINITION. The bus port: the address map (10_state.md R20, 20_memory.md R61, R62), reads and writes with their
side effects (10_state.md R42, R46; 20_memory.md R69, R70), the BUSY protocol and reset (70_reset_and_hazards.md
R240, R250, R251), and the host's pseudo-instructions (30_encoding.md R93).
-/

namespace Sys2Proof.Machine

/-- The byte offset of a register (10_state.md R20). -/
def Reg.offset : Reg → Nat
  | .id => 0x000
  | .cap => 0x004
  | .status => 0x008
  | .cmd => 0x00C
  | .argLen => 0x010
  | .argVal => 0x014
  | .n => 0x018
  | .slen => 0x01C
  | .tlen => 0x020
  | .bcnt => 0x024
  | .olen => 0x028
  | .stlen => 0x02C
  | .bmL => 0x030
  | .bmM => 0x034
  | .gs1 => 0x038
  | .gs2 => 0x03C
  | .gs3 => 0x040

/-- The register map, in the order of 10_state.md R20. -/
def allRegs : List Reg :=
  [.id, .cap, .status, .cmd, .argLen, .argVal, .n, .slen, .tlen, .bcnt, .olen, .stlen, .bmL, .bmM,
    .gs1, .gs2, .gs3]

/-- The windows, in the order of 20_memory.md R62. -/
def allBufs : List Buf := [.seed, .taps, .tgt, .out, .stgt, .bmc, .bmb, .bytes]

/-- What a word address selects. -/
inductive Target where
  | reg (r : Reg)
  | window (b : Buf) (k : Nat)
  | unmapped
  deriving DecidableEq, Repr

/-- The byte address of an access, `A[21:2] * 4` (20_memory.md R60). -/
def byteAddress (a : BitVec 20) : Nat := 4 * a.toNat

/-- What the byte address `x` of an access selects (20_memory.md R61, R62): a register, a mapped word of a window,
or nothing. -/
def targetOf (m : MaxLen) (x : Nat) : Target :=
  match allRegs.find? (fun r => r.offset == x) with
  | some r => .reg r
  | none =>
    match allBufs.find? (fun b => decide (Buf.mapped m b x)) with
    | some b => .window b ((x - b.base) / 4)
    | none => .unmapped

/-- The word a read of a register returns (10_state.md R20 to R37, R46). A read of CMD returns 0 (R24). -/
def State.readReg (s : State) : Reg → Word
  | .id => 0x4C465352
  | .cap => BitVec.ofNat 32 s.maxLen.bits
  | .status => s.statusWord
  | .cmd => 0
  | .argLen => s.argLen
  | .argVal => s.argVal
  | .n => s.n
  | .slen => s.slen
  | .tlen => s.tlen
  | .bcnt => s.bcnt
  | .olen => s.olen
  | .stlen => s.stlen
  | .bmL => s.bmL
  | .bmM => s.bmM
  | .gs1 => s.gs1
  | .gs2 => s.gs2
  | .gs3 => s.gs3

/-- The word a bus read of byte address `x` returns; 0 where nothing is mapped (20_memory.md R69). -/
def State.busRead (s : State) (x : Nat) : Word :=
  match targetOf s.maxLen x with
  | .reg r => s.readReg r
  | .window b k => s.bufWord b k
  | .unmapped => 0

/-- A write to CMD issues the command `w` (10_state.md R24): BUSY becomes 1 (70_reset_and_hazards.md R250). The
clocks it stays in flight are the next free value (log 3). -/
def State.issue (s : State) (w : Word) : State :=
  { s with inflight := some ⟨w, Config.busyLeft s.maxLen s.fresh⟩, fresh := s.fresh + 1 }

/-- A host write to a register (10_state.md R20, R46): a read-only register ignores it; N and SLEN clear CONFIGURED
and TVALID first (R42). -/
def State.writeReg (s : State) (r : Reg) (w : Word) : State :=
  match r with
  | .id => s
  | .cap => s
  | .status => s.writeStatus w
  | .cmd => s.issue w
  | .argLen => { s with argLen := w }
  | .argVal => { s with argVal := w }
  | .n => { s.clearConfig with n := w }
  | .slen => { s.clearConfig with slen := w }
  | .tlen => { s with tlen := w }
  | .bcnt => { s with bcnt := w }
  | .olen => s
  | .stlen => s
  | .bmL => s
  | .bmM => s
  | .gs1 => { s with gs1 := w }
  | .gs2 => { s with gs2 := w }
  | .gs3 => { s with gs3 := w }

/-- Store word `k` of a window. -/
def State.storeWord (s : State) (b : Buf) (k : Nat) (w : Word) : State :=
  { s with mem := Memory.writeWord s.mem (b.base + 4 * k) w }

/-- A host write to a mapped word of a window (20_memory.md R62, R69): a read-only window ignores it; SEED and TAPS
clear CONFIGURED and TVALID first (10_state.md R42). -/
def State.writeWindow (s : State) (b : Buf) (k : Nat) (w : Word) : State :=
  match b with
  | .seed => s.clearConfig.storeWord .seed k w
  | .taps => s.clearConfig.storeWord .taps k w
  | .tgt => s.storeWord .tgt k w
  | .out => s
  | .stgt => s
  | .bmc => s
  | .bmb => s
  | .bytes => s.storeWord .bytes k w

/-- A bus write of `w` to byte address `x`; ignored where nothing is mapped (20_memory.md R69). -/
def State.busWrite (s : State) (x : Nat) (w : Word) : State :=
  match targetOf s.maxLen x with
  | .reg r => s.writeReg r w
  | .window b k => s.writeWindow b k w
  | .unmapped => s

/-- The answer to a bus read. -/
def State.answerRead (s : State) (x : Nat) : State := { s with rdata := some (s.busRead x) }

/-- The access of a bus cycle is a read of STATUS, the one access allowed while BUSY = 1 (70_reset_and_hazards.md
R251). -/
def BusCycle.readsStatus (c : BusCycle) : Bool := !c.we && byteAddress c.a == Reg.offset .status

/-- One clock of the port (20_memory.md R60): reset first, and no access during it (70_reset_and_hazards.md R240,
R251); no access when `sel` is 0; while BUSY = 1 only a STATUS read (R251); else the access. -/
def State.busCycle (s : State) (c : BusCycle) : Host.Outcome State Fault Refusal :=
  if c.rst then
    if c.sel then .fault .hazardViolation else .next s.resetCycle
  else if !c.sel then .next s
  else if s.busy && !c.readsStatus then .fault .hazardViolation
  else if c.we then .next (s.busWrite (byteAddress c.a) c.wdata)
  else .next (s.answerRead (byteAddress c.a))

/-- A clock with no access: sel = 0, rst = 0. -/
def BusCycle.idle : BusCycle := ⟨false, false, false, 0, 0⟩

/-- The host's next bus cycle; an idle one when the host has given none (log 2). -/
def State.nextCycle (s : State) : BusCycle := s.port.headD .idle

/-- One clock of the port with the host's next cycle. -/
def State.clock (s : State) : Host.Outcome State Fault Refusal :=
  { s with port := s.port.tail }.busCycle s.nextCycle

/-- One clock less to the completion of the command in flight. -/
def State.busyClock (s : State) (f : InFlight) : State :=
  { s with inflight := some { f with busyLeft := f.busyLeft - 1 } }

/-- Complete the command `w`: run it, or raise CommandError where the word is none (30_encoding.md R88, R89). -/
def State.runCommand (s : State) (w : Word) : Host.Outcome State Fault Refusal :=
  match decode w with
  | .ok i => exec i s
  | .error _ => s.finish (.error .commandError)

/-- One step: the command in flight completes when its clocks are over (70_reset_and_hazards.md R250), else the
host's next bus cycle is applied. -/
def State.advance (s : State) : Host.Outcome State Fault Refusal :=
  match s.inflight with
  | none => s.clock
  | some f =>
    match f.busyLeft with
    | 0 => s.runCommand f.word
    | _ + 1 => (s.busyClock f).clock

/-- `wr NAME, v` (30_encoding.md R93), by byte address. -/
def hostWrite (x : Nat) (w : Word) : BusCycle := ⟨false, true, true, BitVec.ofNat 20 (x / 4), w⟩

/-- `rd NAME` (30_encoding.md R93), by byte address. -/
def hostRead (x : Nat) : BusCycle := ⟨false, true, false, BitVec.ofNat 20 (x / 4), 0⟩

/-- `clr` (30_encoding.md R93): clear STICKY. -/
def hostClear : BusCycle := hostWrite (Reg.offset .status) 0x8

/-- `cmd <command>` (30_encoding.md R93): the CMD write, then a poll loop that reads STATUS `polls` times. -/
def hostCommand (i : Instr) (polls : Nat) : List BusCycle :=
  hostWrite (Reg.offset .cmd) (encode i) :: List.replicate polls (hostRead (Reg.offset .status))

/-- One clock with rst = 1 and no access. -/
def hostReset : BusCycle := ⟨true, false, false, 0, 0⟩

end Sys2Proof.Machine
end

