-- ==== Sys2Proof/Machine/Step.lean ====
section
/-!
DEFINITION. The step of the machine, and where it takes its next command from.
-/

namespace Sys2Proof.Machine

/-- One step of the block (Machine/Bus.lean). -/
def step (s : State) : Host.Outcome State Fault Refusal := s.advance

/-- `s` with the command whose table bits are `w` in flight and due: the very next step runs it (log 7). -/
def State.withFetchWord (s : State) (nbits w : Nat) : State :=
  s.commandInFlight (BitVec.ofNat 32 (w % 2 ^ nbits))

end Sys2Proof.Machine
end

