-- ==== Sys2Proof/Safety.lean ====
section
/-!
DEFINITION. What the claims are stated in: safe runs and the host protocol (70_reset_and_hazards.md R251), the
invariants of the block (10_state.md R36, R41), the legality table of 30_encoding.md R87, and the tables of what a
command stores to and which errors it can raise (60_exceptions.md R211, R213).
-/

namespace Sys2Proof.Machine

/-- A step from `s` does not stop with a fault. -/
def State.Safe (s : State) : Prop := ∀ r, step s ≠ .fault r

/-- `k` steps from `s` all answer a next state. -/
def State.SafeRun (s : State) (k : Nat) : Prop := ∃ t, Host.Core.run core k s = .next t

/-- The next step applies the host's next bus cycle: no command in flight is due. -/
def State.appliesCycle (s : State) : Bool :=
  match s.inflight with
  | none => true
  | some f => f.busyLeft != 0

/-- The host's next bus cycle breaks the protocol (70_reset_and_hazards.md R251): an access while rst = 1, or an
access while BUSY = 1 that is not a read of STATUS (byte address 0x008). -/
def State.Violates (s : State) : Prop :=
  s.appliesCycle = true ∧ s.nextCycle.sel = true ∧
    (s.nextCycle.rst = true ∨
      (s.inflight.isSome = true ∧ ¬(s.nextCycle.we = false ∧ byteAddress s.nextCycle.a = 0x008)))

/-- The storage is in canonical form and lists only bytes of the windows (20_memory.md R62, R69). -/
structure State.MemOk (s : State) : Prop where
  canonical : Memory.wf s.mem
  mapped : ∀ c ∈ s.mem, ∃ b, Buf.mapped s.maxLen b c.1

/-- The invariants of the flags (10_state.md R41). -/
structure State.FlagsOk (s : State) : Prop where
  configured_of_tvalid : s.tvalid = true → s.configured = true
  n_le : s.configured = true → s.n.toNat ≤ s.maxLen.bits
  slen_eq_n : s.configured = true → s.slen = s.n
  no_tap_above : s.configured = true → ∀ j, s.n.toNat ≤ j → j < s.maxLen.bits → s.bufBit .taps j = false
  n_pos : s.configured = true → s.tvalid = false → 0 < s.n.toNat

/-- The zero-fill invariant of the read-only buffers (10_state.md R36): "for OUT, STGT, BMC and BMB, every bit
beyond the length is 0 at all times". The lengths fit the capacity; C has degree at most BM_L and B at most STLEN
(42_berlekamp_massey.md R167). -/
structure State.ResultsOk (s : State) : Prop where
  olen_le : s.olen.toNat ≤ s.maxLen.bits
  out_zero : ∀ i, s.olen.toNat ≤ i → i < s.maxLen.bits → s.bufBit .out i = false
  stlen_le : s.stlen.toNat ≤ s.maxLen.bits
  stgt_zero : ∀ i, s.stlen.toNat ≤ i → i < s.maxLen.bits → s.bufBit .stgt i = false
  bmL_le : s.bmL.toNat ≤ s.stlen.toNat
  bmc_zero : ∀ j, s.bmL.toNat < j → j ≤ s.maxLen.bits → s.bufBit .bmc j = false
  bmb_zero : ∀ j, s.stlen.toNat < j → j ≤ s.maxLen.bits → s.bufBit .bmb j = false

/-- The stored target is what the engine generates (41_lfsr_engine.md R143: "for any target-driven Engine,
`engine.test()` never raises"). -/
def State.SelfConsistent (s : State) : Prop :=
  s.tvalid = true → s.engineOutput s.stlen.toNat = s.bits .stgt s.stlen.toNat

/-- A command in flight completes within the bound of 70_reset_and_hazards.md R253. -/
def State.BusyOk (s : State) : Prop := ∀ f, s.inflight = some f → f.busyLeft ≤ Config.busyBound s.maxLen

/-- The invariant of the block that every step keeps. -/
structure State.Inv (s : State) : Prop where
  mem : s.MemOk
  flags : s.FlagsOk
  results : s.ResultsOk
  selfConsistent : s.SelfConsistent
  busy : s.BusyOk

/-- `t` reads as `s` at every byte address outside the mapped bytes of the windows `bs`. -/
def StoresOnly (bs : List Buf) (s t : State) : Prop :=
  ∀ a, (∀ b ∈ bs, ¬Buf.mapped s.maxLen b a) → Memory.read t.mem a = Memory.read s.mem a

/-- Buffer `b` of `t` holds exactly `v`, zero-filled to its capacity (00_scope.md R11, `WriteBits`). -/
def State.Holds (t : State) (b : Buf) (v : Bits) : Prop :=
  ∀ i, i < b.capacity t.maxLen → t.bufBit b i = v.getD i false

/-- BYTES of `t` holds exactly `v`, zero-filled to its capacity (00_scope.md R11, `WriteBytes`). -/
def State.HoldsBytes (t : State) (v : List Byte) : Prop :=
  ∀ j, j < t.maxLen.bits → t.byteAt j = v.getD j 0

/-- `r` is the HEX packing of `v` (40_codec.md R104): one lower-case hex character for each 4 bits, first bit most
significant. -/
def IsHexOf (v : Bits) (r : List Byte) : Prop :=
  r.length = v.length / 4 ∧
    ∀ k, k < r.length → ∃ h : BitVec 4, r.getD k 0 = hexChar h ∧
      ∀ i, i < 4 → h.getLsbD (3 - i) = v.getD (4 * k + i) false

/-- `r` is the STR packing of `v` (40_codec.md R104): one byte for each 8 bits, first bit most significant. -/
def IsStrOf (v : Bits) (r : List Byte) : Prop :=
  r.length = v.length / 8 ∧
    ∀ k, k < r.length → ∀ i, i < 8 → (r.getD k 0).getLsbD (7 - i) = v.getD (8 * k + i) false

/-- `r` is what `Pack(v, fmt)` puts into BYTES; FMT = BIN packs nothing (40_codec.md R104). -/
def IsPackOf (fmt : Fmt) (v : Bits) (r : List Byte) : Prop :=
  match fmt with
  | .bin => False
  | .hex => IsHexOf v r
  | .str => IsStrOf v r

/-- The buffers a command stores to when it succeeds (40_codec.md R101, R105; 41_lfsr_engine.md R136 to R143;
42_berlekamp_massey.md R168; 43_geffe.md R196, R198). -/
def storesTo : Instr → List Buf
  | .tobits _ .seed => [.seed]
  | .tobits _ .tgt => [.tgt]
  | .tobits _ .out => [.out]
  | .tobits _ .stgt => []
  | .frombits .bin _ => [.out]
  | .frombits .hex _ => [.bytes]
  | .frombits .str _ => [.bytes]
  | .seedint => [.seed]
  | .ecfg => []
  | .get .bin _ => [.out]
  | .get .hex _ => [.out, .bytes]
  | .get .str _ => [.out, .bytes]
  | .test _ => []
  | .tcfg => [.seed, .taps, .stgt, .bmc, .bmb]
  | .gkeyBin _ => []
  | .gkeyStr => []
  | .gget .bin => [.out]
  | .gget .hex => [.out, .bytes]
  | .gget .str => [.out, .bytes]

/-- The registers a command writes when it succeeds, beside STATUS (the same rules as `storesTo`). -/
def writesTo : Instr → List Reg
  | .tobits _ .seed => [.slen]
  | .tobits _ .tgt => [.tlen]
  | .tobits _ .out => [.olen]
  | .tobits _ .stgt => []
  | .frombits .bin _ => [.olen]
  | .frombits .hex _ => [.bcnt]
  | .frombits .str _ => [.bcnt]
  | .seedint => [.slen]
  | .ecfg => []
  | .get .bin _ => [.olen]
  | .get .hex _ => [.olen, .bcnt]
  | .get .str _ => [.olen, .bcnt]
  | .test _ => []
  | .tcfg => [.n, .slen, .stlen, .bmL, .bmM]
  | .gkeyBin _ => [.gs1, .gs2, .gs3]
  | .gkeyStr => [.gs1, .gs2, .gs3]
  | .gget .bin => [.olen]
  | .gget .hex => [.olen, .bcnt]
  | .gget .str => [.olen, .bcnt]

/-- The errors a legal command can raise beside CommandError, which only an illegal word raises (60_exceptions.md
R211, with the format of the command: STR input and BIN output have no format or length error). -/
def canRaise : Instr → List ErrCode
  | .tobits _ _ => [.formatError, .capacityError]
  | .frombits _ _ => [.lengthError, .capacityError]
  | .seedint => [.lengthError, .parameterError, .capacityError]
  | .ecfg => [.lengthError, .parameterError, .capacityError]
  | .get _ _ => [.lengthError, .parameterError, .capacityError]
  | .test _ => [.parameterError, .validationError, .capacityError]
  | .tcfg => [.reconstructionError, .capacityError]
  | .gkeyBin _ => [.parameterError]
  | .gkeyStr => [.parameterError]
  | .gget _ => [.lengthError, .capacityError]

/-- The length or count a packed format needs: a multiple of 8 under HEX and STR (40_codec.md R104). -/
def badPackLength (fmt : Fmt) (len : Nat) : Prop := fmt ≠ .bin ∧ len % 8 ≠ 0

/-- The one error that a legal command reports, by the order of its checks (60_exceptions.md R213), or success. -/
def ReportsFirst (i : Instr) (s : State) (e : ErrCode) : Prop :=
  match i with
  | .tobits form _ =>
    (s.bcnt.toNat > s.maxLen.bits ∧ e = .capacityError) ∨
    (s.bcnt.toNat ≤ s.maxLen.bits ∧
      ∃ r, unpack (resolveForm form (s.bytes s.bcnt.toNat)) (s.bytes s.bcnt.toNat) = r ∧
        ((r = none ∧ e = .formatError) ∨
          ∃ v, r = some v ∧
            ((v.length > s.maxLen.bits ∧ e = .capacityError) ∨ (v.length ≤ s.maxLen.bits ∧ e = .success))))
  | .frombits fmt src =>
    (s.selLen src > s.maxLen.bits ∧ e = .capacityError) ∨
    (s.selLen src ≤ s.maxLen.bits ∧
      ((badPackLength fmt (s.selLen src) ∧ e = .lengthError) ∨
        (¬badPackLength fmt (s.selLen src) ∧ e = .success)))
  | .seedint =>
    (s.n.toNat = 0 ∧ e = .parameterError) ∨
    (s.n.toNat > s.maxLen.bits ∧ e = .capacityError) ∨
    (0 < s.n.toNat ∧ s.n.toNat ≤ s.maxLen.bits ∧
      ((s.n.toNat < 32 ∧ 2 ^ s.n.toNat ≤ s.argVal.toNat ∧ e = .lengthError) ∨
        (¬(s.n.toNat < 32 ∧ 2 ^ s.n.toNat ≤ s.argVal.toNat) ∧ e = .success)))
  | .ecfg =>
    (s.n.toNat = 0 ∧ e = .parameterError) ∨
    (s.n.toNat > s.maxLen.bits ∧ e = .capacityError) ∨
    (0 < s.n.toNat ∧ s.n.toNat ≤ s.maxLen.bits ∧
      (((∃ p, s.n.toNat < p ∧ p ≤ s.maxLen.bits ∧ s.bufBit .taps (p - 1) = true) ∧ e = .parameterError) ∨
        ((∀ p, s.n.toNat < p → p ≤ s.maxLen.bits → s.bufBit .taps (p - 1) = false) ∧
          ((s.slen ≠ s.n ∧ e = .lengthError) ∨ (s.slen = s.n ∧ e = .success)))))
  | .get fmt dflt =>
    (s.configured = false ∧ e = .parameterError) ∨
    (s.configured = true ∧
      ((s.getLen dflt > s.maxLen.bits ∧ e = .capacityError) ∨
        (s.getLen dflt ≤ s.maxLen.bits ∧
          ((badPackLength fmt (s.getLen dflt) ∧ e = .lengthError) ∨
            (¬badPackLength fmt (s.getLen dflt) ∧ e = .success)))))
  | .test supplied =>
    (s.configured = false ∧ e = .parameterError) ∨
    (s.configured = true ∧ supplied = false ∧
      ((s.tvalid = false ∧ e = .parameterError) ∨
        (s.tvalid = true ∧
          ((s.engineOutput s.stlen.toNat ≠ s.bits .stgt s.stlen.toNat ∧ e = .validationError) ∨
            (s.engineOutput s.stlen.toNat = s.bits .stgt s.stlen.toNat ∧ e = .success))))) ∨
    (s.configured = true ∧ supplied = true ∧
      ((s.tlen.toNat > s.maxLen.bits ∧ e = .capacityError) ∨
        (s.tlen.toNat ≤ s.maxLen.bits ∧
          ((s.engineOutput s.tlen.toNat ≠ s.bits .tgt s.tlen.toNat ∧ e = .validationError) ∨
            (s.engineOutput s.tlen.toNat = s.bits .tgt s.tlen.toNat ∧ e = .success)))))
  | .tcfg =>
    (s.tlen.toNat > s.maxLen.bits ∧ e = .capacityError) ∨
    (s.tlen.toNat ≤ s.maxLen.bits ∧
      ∃ v st, v = s.bits .tgt s.tlen.toNat ∧ st = bmFinal v ∧
        ((lfsr (bmSeed v st) (bmTaps st) v.length ≠ v ∧ e = .reconstructionError) ∨
          (lfsr (bmSeed v st) (bmTaps st) v.length = v ∧ e = .success)))
  | .gkeyBin src => (s.selLen src ≠ 96 ∧ e = .parameterError) ∨ (s.selLen src = 96 ∧ e = .success)
  | .gkeyStr => (s.bcnt.toNat ≠ 12 ∧ e = .parameterError) ∨ (s.bcnt.toNat = 12 ∧ e = .success)
  | .gget fmt =>
    (s.argLen.toNat > s.maxLen.bits ∧ e = .capacityError) ∨
    (s.argLen.toNat ≤ s.maxLen.bits ∧
      ((badPackLength fmt s.argLen.toNat ∧ e = .lengthError) ∨
        (¬badPackLength fmt s.argLen.toNat ∧ e = .success)))

/-- The legality table of 30_encoding.md R87, on the fields of a command word with RES = 0. -/
abbrev LegalFields (f : Fields) : Prop :=
  (f.op = 0x01 ∧ f.fmt.toNat ≤ 3 ∧ f.sel.toNat ≤ 2 ∧ f.d = false ∧ f.s = false) ∨
  (f.op = 0x02 ∧ f.fmt.toNat ≤ 2 ∧ f.sel.toNat ≤ 3 ∧ f.d = false ∧ f.s = false) ∨
  (f.op = 0x03 ∧ f.fmt = 0 ∧ f.sel = 0 ∧ f.d = false ∧ f.s = false) ∨
  (f.op = 0x04 ∧ f.fmt = 0 ∧ f.sel = 0 ∧ f.d = false ∧ f.s = false) ∨
  (f.op = 0x05 ∧ f.fmt.toNat ≤ 2 ∧ f.sel = 0 ∧ f.s = false) ∨
  (f.op = 0x06 ∧ f.fmt = 0 ∧ f.sel = 0 ∧ f.d = false) ∨
  (f.op = 0x07 ∧ f.fmt = 0 ∧ f.sel = 0 ∧ f.d = false ∧ f.s = false) ∨
  (f.op = 0x08 ∧ ((f.fmt = 0 ∧ f.sel.toNat ≤ 3) ∨ (f.fmt = 2 ∧ f.sel = 0)) ∧ f.d = false ∧ f.s = false) ∨
  (f.op = 0x09 ∧ f.fmt.toNat ≤ 2 ∧ f.sel = 0 ∧ f.d = false ∧ f.s = false)

end Sys2Proof.Machine
end

