-- ==== Sys2Proof/Certificates/Slice0/Obligations.lean ====
section
/-!
DEFINITION. The statements for the provers. Each docstring names the rule it formalises; a statement that rests on
an inference of the spec or a choice of the model says so.
-/

open Sys2Proof Sys2Proof.Machine

/-! ## Encoding -/

/-- Words written out in 30_encoding.md R92 and 95_test_vectors.md V-E1, V-E2: what they decode to, and how some of
their commands are written. -/
def Obligations.SampleWordsDecode : Prop :=
  decode 0x00000001 = .ok (.tobits (.fixed .bin) .seed) ∧
  decode 0x00001201 = .ok (.tobits (.fixed .str) .tgt) ∧
  decode 0x00001101 = .ok (.tobits (.fixed .hex) .tgt) ∧
  decode 0x00002301 = .ok (.tobits .auto .out) ∧
  decode 0x00003202 = .ok (.frombits .str .stgt) ∧
  decode 0x00000003 = .ok .seedint ∧
  decode 0x00000004 = .ok .ecfg ∧
  decode 0x00010105 = .ok (.get .hex true) ∧
  decode 0x00020006 = .ok (.test true) ∧
  decode 0x00000007 = .ok .tcfg ∧
  decode 0x00001008 = .ok (.gkeyBin .tgt) ∧
  decode 0x00000208 = .ok .gkeyStr ∧
  decode 0x00000109 = .ok (.gget .hex) ∧
  decode 0x80000005 = .error .reservedBits ∧
  decode 0x0000000A = .error .reservedOpcode ∧
  decode 0x00003001 = .error .illegalFields ∧
  (Instr.get .hex true).asm = "get.hex default" ∧
  (Instr.tobits .auto .out).asm = "tobits.auto out" ∧
  (Instr.frombits .str .stgt).asm = "frombits.str stgt" ∧
  (Instr.frombits .bin .tgt).asm = "frombits.bin tgt" ∧
  (Instr.test true).asm = "test supplied" ∧
  (Instr.gkeyBin .seed).asm = "gkey.bin seed"

/-- 30_encoding.md R87: exactly the words with RES = 0 and the field values of the table are commands. -/
def Obligations.LegalWordsAreTheTable : Prop :=
  ∀ w : Word, (∃ i, decode w = .ok i) ↔ ((fieldsOf w).res = 0 ∧ LegalFields (fieldsOf w))

/-- Decoding and encoding agree on every word and every command: a word decodes to a command exactly when the
command is well-formed and the word is its encoding. -/
def Obligations.DecodeExactlyInvertsEncode : Prop :=
  ∀ (w : Word) (i : Instr), decode w = .ok i ↔ (i.wf = true ∧ w = encode i)

/-- 30_encoding.md R89: every encoding R87 does not list raises CommandError, and commits nothing else. -/
def Obligations.IllegalWordRaisesCommandError : Prop :=
  ∀ (s : State) (w : Word), s.inflight = some ⟨w, 0⟩ →
    ¬((fieldsOf w).res = 0 ∧ LegalFields (fieldsOf w)) →
    step s = .next { s with err := .commandError, sticky := true, inflight := none }

/-! ## Steps, the bus and reset -/

/-- When the command in flight is due and its word decodes to `i`, the step is `exec i`. -/
def Obligations.StepRunsDecodedCommand : Prop :=
  ∀ (s : State) (w : Word) (i : Instr), s.inflight = some ⟨w, 0⟩ → decode w = .ok i → step s = exec i s

/-- 10_state.md R24: a CMD write puts the word in flight; CMD reads 0; after reset none is pending. How long it
stays in flight is a free value within the bound (log 3). -/
def Obligations.CmdWriteStartsCommand : Prop :=
  (∀ (s : State) (c : BusCycle) (rest : List BusCycle), s.inflight = none → s.port = c :: rest →
    c.rst = false → c.sel = true → c.we = true → byteAddress c.a = 0x00C →
    ∃ k, k ≤ Config.busyBound s.maxLen ∧
      step s = .next { s with port := rest, inflight := some ⟨c.wdata, k⟩, fresh := s.fresh + 1 }) ∧
  (∀ s : State, s.busRead 0x00C = 0) ∧
  (∀ m, (State.resetOf m).inflight = none)

/-- 70_reset_and_hazards.md R250: a STATUS read while BUSY = 1 returns BUSY = 1 and the fields from before the
command, and changes nothing but the clocks left. -/
def Obligations.BusyStatusReadShowsOldFields : Prop :=
  ∀ (s : State) (w : Word) (k : Nat) (c : BusCycle) (rest : List BusCycle),
    s.inflight = some ⟨w, k + 1⟩ → s.port = c :: rest →
    c.rst = false → c.sel = true → c.we = false → byteAddress c.a = 0x008 →
    ∃ r : Word, step s = .next { s with port := rest, inflight := some ⟨w, k⟩, rdata := some r } ∧
      r.getLsbD 0 = true ∧ r.getLsbD 1 = s.configured ∧ r.getLsbD 2 = s.tvalid ∧ r.getLsbD 3 = s.sticky ∧
      r.extractLsb' 8 4 = s.err.code

/-- 70_reset_and_hazards.md R251: the machine stops exactly when the host breaks the protocol. -/
def Obligations.FaultsExactlyOnViolation : Prop :=
  ∀ s : State, step s = .fault .hazardViolation ↔ s.Violates

/-- A host that never breaks the protocol never stops the block: no step is refused either. -/
def Obligations.ProtocolKeepsRunSafe : Prop :=
  ∀ (s : State) (k : Nat),
    (∀ j, j < k → ∀ t, Host.Core.run core j s = .next t → ¬t.Violates) → s.SafeRun k

/-- What a clock without reset does to an idle block: a write is `busWrite`, a read answers `busRead` and changes
nothing else, both at once (20_memory.md R70, R72); a clock with no access, and one for which the host has given no cycle
(log 2), changes nothing but the consumed cycle, as R70 needs. -/
def Obligations.IdleBlockAnswersAccess : Prop :=
  ∀ s : State, s.inflight = none →
    (∀ (c : BusCycle) (rest : List BusCycle), s.port = c :: rest → c.rst = false →
      (c.sel = true → c.we = true →
        step s = .next ({ s with port := rest }.busWrite (byteAddress c.a) c.wdata)) ∧
      (c.sel = true → c.we = false →
        step s = .next { s with port := rest, rdata := some (s.busRead (byteAddress c.a)) }) ∧
      (c.sel = false → step s = .next { s with port := rest })) ∧
    (s.port = [] → step s = .next s)

/-- 10_state.md R44: one clock with rst = 1, whatever is in flight, leaves every register and every window word at
its reset value. That MAXLEN and the host's cycles still to come survive it is the model's choice (log 8, log 2). -/
def Obligations.ResetCycleGivesResetValues : Prop :=
  ∀ (s : State) (c : BusCycle) (rest : List BusCycle), s.port = c :: rest → s.appliesCycle = true →
    c.rst = true → c.sel = false →
    ∃ t, step s = .next t ∧ t.inflight = none ∧ t.port = rest ∧ t.maxLen = s.maxLen ∧
      ∀ a : BitVec 20, t.busRead (byteAddress a) =
        if a = 0 then 0x4C465352 else if a = 1 then BitVec.ofNat 32 s.maxLen.bits else 0

/-- The reset state meets the invariant, for every MAXLEN. -/
def Obligations.ResetMeetsInvariant : Prop := ∀ m : MaxLen, (State.resetOf m).Inv

/-- Every step keeps the invariant: canonical storage, the flag invariants of 10_state.md R41, the zero-fill
invariant of R36, a stored target that the engine generates, and the latency bound. The spec derives R41 from its
other rules; the latency bound is log 3. -/
def Obligations.StepKeepsInvariant : Prop :=
  ∀ s t : State, s.Inv → step s = .next t → t.Inv

/-- 10_state.md R21, R22: ID and CAP are constants, which no write and no step changes. -/
def Obligations.IdAndCapAreConstant : Prop :=
  (∀ (s : State) (w : Word), s.busRead 0x000 = 0x4C465352 ∧ s.busRead 0x004 = BitVec.ofNat 32 s.maxLen.bits ∧
    s.busWrite 0x000 w = s ∧ s.busWrite 0x004 w = s) ∧
  (∀ s t : State, step s = .next t → t.maxLen = s.maxLen) ∧
  (∀ m, (State.resetOf m).busRead 0x000 = 0x4C465352 ∧ (State.resetOf m).busRead 0x004 = BitVec.ofNat 32 m.bits)

/-- 00_scope.md R6: every block's MAXLEN is legal, and every legal MAXLEN is some block's. -/
def Obligations.MaxLenIsLegal : Prop :=
  (∀ s : State, 96 ≤ s.maxLen.bits ∧ s.maxLen.bits ≤ 262144 ∧ s.maxLen.bits % 32 = 0) ∧
  (∀ n, 96 ≤ n → n ≤ 262144 → n % 32 = 0 → ∃ m : MaxLen, (State.resetOf m).maxLen.bits = n)

/-- 10_state.md R23: the fields of a STATUS read, the reserved bits, the reset value, and the one effect of a STATUS
write. -/
def Obligations.StatusWordFields : Prop :=
  (∀ s : State, (s.busRead 0x008).getLsbD 0 = s.inflight.isSome ∧ (s.busRead 0x008).getLsbD 1 = s.configured ∧
    (s.busRead 0x008).getLsbD 2 = s.tvalid ∧ (s.busRead 0x008).getLsbD 3 = s.sticky ∧
    (s.busRead 0x008).extractLsb' 4 4 = 0 ∧ (s.busRead 0x008).extractLsb' 8 4 = s.err.code ∧
    (s.busRead 0x008).extractLsb' 12 20 = 0) ∧
  (∀ (s : State) (w : Word),
    s.busWrite 0x008 w = { s with sticky := if w.getLsbD 3 then false else s.sticky }) ∧
  (∀ m, (State.resetOf m).busRead 0x008 = 0)

/-- The register map of 10_state.md R20: which register each address reads; the read-write registers hold the written
word, and a write of one changes the read of no other address but STATUS, where N and SLEN clear CONFIGURED and TVALID
(R42). ID, CAP, STATUS and CMD have statements of their own. -/
def Obligations.RegisterWriteReadsBack : Prop :=
  (∀ s : State,
    s.busRead 0x010 = s.argLen ∧ s.busRead 0x014 = s.argVal ∧ s.busRead 0x018 = s.n ∧ s.busRead 0x01C = s.slen ∧
    s.busRead 0x020 = s.tlen ∧ s.busRead 0x024 = s.bcnt ∧ s.busRead 0x028 = s.olen ∧ s.busRead 0x02C = s.stlen ∧
    s.busRead 0x030 = s.bmL ∧ s.busRead 0x034 = s.bmM ∧ s.busRead 0x038 = s.gs1 ∧ s.busRead 0x03C = s.gs2 ∧
    s.busRead 0x040 = s.gs3) ∧
  ∀ (s : State) (w : Word) (x : Nat),
    x ∈ [0x010, 0x014, 0x018, 0x01C, 0x020, 0x024, 0x038, 0x03C, 0x040] →
    (s.busWrite x w).busRead x = w ∧
    (∀ a : BitVec 20, byteAddress a ≠ x → byteAddress a ≠ 0x008 →
      (s.busWrite x w).busRead (byteAddress a) = s.busRead (byteAddress a)) ∧
    (x ≠ 0x018 → x ≠ 0x01C → (s.busWrite x w).busRead 0x008 = s.busRead 0x008)

/-- 20_memory.md R69: unmapped addresses, words beyond a window's mapped count (R62) and CMD read 0; writes to unmapped
addresses, read-only registers and read-only windows change nothing; no access writes ERR. -/
def Obligations.UnmappedAndReadOnlyIgnored : Prop :=
  ∀ (s : State) (a : BitVec 20) (w : Word),
    ((0x044 ≤ byteAddress a ∧ byteAddress a < 0x040000) ∨ 0x240000 ≤ byteAddress a ∨
        (∃ base words, (base, words) ∈ [(0x040000, s.maxLen.bits / 32), (0x080000, s.maxLen.bits / 32),
            (0x0C0000, s.maxLen.bits / 32), (0x100000, s.maxLen.bits / 32), (0x140000, s.maxLen.bits / 32),
            (0x180000, s.maxLen.bits / 32 + 1), (0x1C0000, s.maxLen.bits / 32 + 1),
            (0x200000, s.maxLen.bits / 4)] ∧
          base + 4 * words ≤ byteAddress a ∧ byteAddress a < base + 0x40000) →
      s.busRead (byteAddress a) = 0 ∧ s.busWrite (byteAddress a) w = s) ∧
    s.busRead 0x00C = 0 ∧
    (byteAddress a ∈ [0x000, 0x004, 0x028, 0x02C, 0x030, 0x034] → s.busWrite (byteAddress a) w = s) ∧
    ((0x100000 ≤ byteAddress a ∧ byteAddress a < 0x200000) → s.busWrite (byteAddress a) w = s) ∧
    (s.busWrite (byteAddress a) w).err = s.err

/-- 10_state.md R42: which host writes clear CONFIGURED and TVALID, and that the written word is then stored. -/
def Obligations.EngineWritesClearFlags : Prop :=
  ∀ (s : State) (a : BitVec 20) (w : Word),
    (byteAddress a = 0x018 ∨ byteAddress a = 0x01C ∨ Buf.mapped s.maxLen .seed (byteAddress a) ∨
        Buf.mapped s.maxLen .taps (byteAddress a) →
      (s.busWrite (byteAddress a) w).configured = false ∧ (s.busWrite (byteAddress a) w).tvalid = false ∧
      (s.busWrite (byteAddress a) w).busRead (byteAddress a) = w) ∧
    (¬(byteAddress a = 0x018 ∨ byteAddress a = 0x01C ∨ Buf.mapped s.maxLen .seed (byteAddress a) ∨
        Buf.mapped s.maxLen .taps (byteAddress a)) →
      (s.busWrite (byteAddress a) w).configured = s.configured ∧
      (s.busWrite (byteAddress a) w).tvalid = s.tvalid)

/-- A host write of a mapped word of a writable window stores that word and nothing else (20_memory.md R62, R63,
R70); SEED and TAPS also clear the flags (10_state.md R42). -/
def Obligations.WindowWriteStoresOneWord : Prop :=
  ∀ (s : State) (b : Buf) (a : BitVec 20) (w : Word), b ∈ [.seed, .taps, .tgt, .bytes] →
    Buf.mapped s.maxLen b (byteAddress a) →
    ∃ t, s.busWrite (byteAddress a) w = t ∧
      t = { s with
        configured := if b = .seed ∨ b = .taps then false else s.configured
        tvalid := if b = .seed ∨ b = .taps then false else s.tvalid
        mem := t.mem } ∧
      t.busRead (byteAddress a) = w ∧
      ∀ x, x < byteAddress a ∨ byteAddress a + 4 ≤ x → Memory.read t.mem x = Memory.read s.mem x

/-- 20_memory.md R64 to R67: where the bits of the buffers, the tap positions, the coefficients and the bytes stand
in the words a bus read returns; and the capacities (10_state.md R26 to R34) and sub-vectors (00_scope.md R11) that the
statements about commands speak of. -/
def Obligations.WindowPacking : Prop :=
  ∀ s : State,
    (∀ i, i < s.maxLen.bits →
      s.bufBit .seed i = (s.busRead (0x040000 + 4 * (i / 32))).getLsbD (31 - i % 32) ∧
      s.bufBit .tgt i = (s.busRead (0x0C0000 + 4 * (i / 32))).getLsbD (31 - i % 32) ∧
      s.bufBit .out i = (s.busRead (0x100000 + 4 * (i / 32))).getLsbD (31 - i % 32) ∧
      s.bufBit .stgt i = (s.busRead (0x140000 + 4 * (i / 32))).getLsbD (31 - i % 32)) ∧
    (∀ n p, n ≤ s.maxLen.bits → (p ∈ s.tapSet n ↔ 1 ≤ p ∧ p ≤ n ∧
      (s.busRead (0x080000 + 4 * ((p - 1) / 32))).getLsbD ((p - 1) % 32) = true)) ∧
    (∀ j, j ≤ s.maxLen.bits →
      s.bufBit .bmc j = (s.busRead (0x180000 + 4 * (j / 32))).getLsbD (j % 32) ∧
      s.bufBit .bmb j = (s.busRead (0x1C0000 + 4 * (j / 32))).getLsbD (j % 32)) ∧
    (∀ j, j < s.maxLen.bits →
      s.byteAt j = (s.busRead (0x200000 + 4 * (j / 4))).extractLsb' (24 - 8 * (j % 4)) 8) ∧
    (∀ b c, (b, c) ∈ [(.seed, s.maxLen.bits), (.taps, s.maxLen.bits), (.tgt, s.maxLen.bits), (.out, s.maxLen.bits),
        (.stgt, s.maxLen.bits), (.bmc, s.maxLen.bits + 1), (.bmb, s.maxLen.bits + 1),
        (.bytes, 8 * s.maxLen.bits)] → Buf.capacity s.maxLen b = c) ∧
    (∀ b len, (s.bits b len).length = len ∧ ∀ i, i < len → (s.bits b len).getD i false = s.bufBit b i) ∧
    (∀ c, (s.bytes c).length = c ∧ ∀ j, j < c → (s.bytes c).getD j 0 = s.byteAt j)

/-! ## Codec -/

/-- 40_codec.md R102: AUTO is BIN when every byte is 0x30 or 0x31, the empty sequence included, else STR; the other
forms are FMT's own (R101). -/
def Obligations.AutoDetectsBinOrStr : Prop :=
  ∀ b : List Byte,
    (∀ f : Fmt, resolveForm (.fixed f) b = f) ∧
    ((∀ x ∈ b, x = 0x30 ∨ x = 0x31) → resolveForm .auto b = .bin) ∧
    (¬(∀ x ∈ b, x = 0x30 ∨ x = 0x31) → resolveForm .auto b = .str)

/-- 40_codec.md R103: the value of every byte as a hex digit, the lower-case character of every value, and that a byte
that is no hex digit makes `Unpack` fail. -/
def Obligations.HexDigitValues : Prop :=
  (∀ x : Byte, ∀ v : BitVec 4, hexVal x = some v ↔
    (0x30 ≤ x.toNat ∧ x.toNat ≤ 0x39 ∧ v.toNat = x.toNat - 0x30) ∨
    (0x61 ≤ x.toNat ∧ x.toNat ≤ 0x66 ∧ v.toNat = x.toNat - 0x61 + 10) ∨
    (0x41 ≤ x.toNat ∧ x.toNat ≤ 0x46 ∧ v.toNat = x.toNat - 0x41 + 10)) ∧
  (∀ v : BitVec 4, (v.toNat ≤ 9 → (hexChar v).toNat = 0x30 + v.toNat) ∧
    (10 ≤ v.toNat → (hexChar v).toNat = 0x61 + (v.toNat - 10))) ∧
  (∀ b : List Byte, (∃ x ∈ b, hexVal x = none) → unpack .hex b = none)

/-- 40_codec.md R100: `Unpack` in its three forms, each with exactly the inputs it accepts. -/
def Obligations.UnpackForms : Prop :=
  (∀ (b : List Byte) (v : Bits), unpack .bin b = some v ↔
    v.length = b.length ∧ ∀ j, j < b.length →
      (b.getD j 0 = 0x30 ∧ v.getD j false = false) ∨ (b.getD j 0 = 0x31 ∧ v.getD j false = true)) ∧
  (∀ (b : List Byte) (v : Bits), unpack .hex b = some v ↔
    b.length % 2 = 0 ∧ v.length = 4 * b.length ∧ ∀ j, j < b.length →
      ∃ h, hexVal (b.getD j 0) = some h ∧ ∀ i, i < 4 → v.getD (4 * j + i) false = h.getLsbD (3 - i)) ∧
  (∀ (b : List Byte) (v : Bits), unpack .str b = some v ↔
    v.length = 8 * b.length ∧ ∀ j, j < b.length →
      ∀ i, i < 8 → v.getD (8 * j + i) false = (b.getD j 0).getLsbD (7 - i))

/-- 40_codec.md R101: TOBITS, its result, what it leaves unchanged, and its errors in order. STGT is no destination
(30_encoding.md R83): no word decodes to that form (log 12). -/
def Obligations.TobitsDecodesBytes : Prop :=
  ∀ (s : State) (form : InForm) (dst : BufSel) (b : Buf),
    (dst, b) ∈ [(.seed, .seed), (.tgt, .tgt), (.out, .out)] →
    decode (wordOfFields ⟨0x01, form.code, dst.code, false, false, 0⟩) = .ok (.tobits form dst) ∧
    (∀ v : Bits, s.bcnt.toNat ≤ s.maxLen.bits →
      unpack (resolveForm form (s.bytes s.bcnt.toNat)) (s.bytes s.bcnt.toNat) = some v →
      v.length ≤ s.maxLen.bits →
      ∃ t, exec (.tobits form dst) s = .next t ∧
        t = { s with
          slen := if dst = .seed then BitVec.ofNat 32 v.length else s.slen
          tlen := if dst = .tgt then BitVec.ofNat 32 v.length else s.tlen
          olen := if dst = .out then BitVec.ofNat 32 v.length else s.olen
          configured := if dst = .seed then false else s.configured
          tvalid := if dst = .seed then false else s.tvalid
          err := .success
          inflight := none
          mem := t.mem } ∧
        t.Holds b v ∧ StoresOnly [b] s t) ∧
    (s.bcnt.toNat > s.maxLen.bits → exec (.tobits form dst) s = .next (s.raise .capacityError)) ∧
    (s.bcnt.toNat ≤ s.maxLen.bits →
      unpack (resolveForm form (s.bytes s.bcnt.toNat)) (s.bytes s.bcnt.toNat) = none →
      exec (.tobits form dst) s = .next (s.raise .formatError)) ∧
    (∀ v : Bits, s.bcnt.toNat ≤ s.maxLen.bits →
      unpack (resolveForm form (s.bytes s.bcnt.toNat)) (s.bytes s.bcnt.toNat) = some v →
      v.length > s.maxLen.bits → exec (.tobits form dst) s = .next (s.raise .capacityError))

/-- 40_codec.md R104, R105: FROMBITS, its packed result, what it leaves unchanged, and its errors, with the buffer and
the length register of each source (30_encoding.md R83). -/
def Obligations.FrombitsPacksBits : Prop :=
  ∀ (s : State) (fmt : Fmt) (src : BufSel) (b : Buf) (len : Word),
    (src, b, len) ∈ [(.seed, .seed, s.slen), (.tgt, .tgt, s.tlen), (.out, .out, s.olen), (.stgt, .stgt, s.stlen)] →
    decode (wordOfFields ⟨0x02, fmt.code, src.code, false, false, 0⟩) = .ok (.frombits fmt src) ∧
    (len.toNat ≤ s.maxLen.bits → (fmt = .bin ∨ len.toNat % 8 = 0) →
      ∃ t, exec (.frombits fmt src) s = .next t ∧
        (fmt = .bin →
          t = { s with olen := len, err := .success, inflight := none, mem := t.mem } ∧
          t.Holds .out (s.bits b len.toNat) ∧ StoresOnly [.out] s t) ∧
        (fmt ≠ .bin →
          ∃ r, IsPackOf fmt (s.bits b len.toNat) r ∧
            t = { s with
              bcnt := BitVec.ofNat 32 r.length, err := .success, inflight := none, mem := t.mem } ∧
            t.HoldsBytes r ∧ StoresOnly [.bytes] s t)) ∧
    (len.toNat > s.maxLen.bits → exec (.frombits fmt src) s = .next (s.raise .capacityError)) ∧
    (len.toNat ≤ s.maxLen.bits → fmt ≠ .bin → len.toNat % 8 ≠ 0 →
      exec (.frombits fmt src) s = .next (s.raise .lengthError))

/-- The STR round trip of 40_codec.md R106 (a), which the spec derives from R100 to R105: `frombits.str tgt`, then
`tobits.str tgt`, gives the target back. -/
def Obligations.StrRoundTrip : Prop :=
  ∀ s : State, s.tlen.toNat ≤ s.maxLen.bits → s.tlen.toNat % 8 = 0 →
    ∃ t u, exec (.frombits .str .tgt) s = .next t ∧ exec (.tobits (.fixed .str) .tgt) t = .next u ∧
      u.err = .success ∧ u.tlen = s.tlen ∧ u.bits .tgt u.tlen.toNat = s.bits .tgt s.tlen.toNat

/-- The HEX round trip of 40_codec.md R106 (b), which the spec derives from R100 to R105: `tobits.hex tgt`, then
`frombits.hex tgt`, gives the digits back in lower case. -/
def Obligations.HexRoundTrip : Prop :=
  ∀ s : State, s.bcnt.toNat % 2 = 0 → 4 * s.bcnt.toNat ≤ s.maxLen.bits →
    (∀ j, j < s.bcnt.toNat → (hexVal (s.byteAt j)).isSome = true) →
    ∃ t u, exec (.tobits (.fixed .hex) .tgt) s = .next t ∧ exec (.frombits .hex .tgt) t = .next u ∧
      u.err = .success ∧ u.bcnt = s.bcnt ∧
      ∀ j, j < s.bcnt.toNat →
        u.byteAt j = if 0x41 ≤ (s.byteAt j).toNat ∧ (s.byteAt j).toNat ≤ 0x46 then s.byteAt j + 0x20
          else s.byteAt j

/-- After `tobits.str tgt` the whole words of TGT equal those of BYTES, the consequence that 20_memory.md R67 derives
from its packing. -/
def Obligations.TobitsStrCopiesWords : Prop :=
  ∀ s : State, 8 * s.bcnt.toNat ≤ s.maxLen.bits →
    ∃ t, exec (.tobits (.fixed .str) .tgt) s = .next t ∧ t.err = .success ∧
      ∀ k, 4 * (k + 1) ≤ s.bcnt.toNat → t.busRead (0x0C0000 + 4 * k) = s.busRead (0x200000 + 4 * k)

/-! ## LFSR engine -/

/-- 41_lfsr_engine.md R130: the length and every bit of `Lfsr`. -/
def Obligations.LfsrRecurrence : Prop :=
  ∀ (seed : Bits) (taps : List Nat) (len : Nat), (∀ p ∈ taps, 1 ≤ p ∧ p ≤ seed.length) →
    (lfsr seed taps len).length = len ∧
    ∀ k, k < len → (lfsr seed taps len).getD k false =
      if k < seed.length then seed.getD k false
      else xorSum (taps.map fun p => (lfsr seed taps len).getD (k - p) false)

/-- The properties (b) to (e) that 41_lfsr_engine.md R131 derives from R130. -/
def Obligations.LfsrProperties : Prop :=
  (∀ (seed : Bits) (taps : List Nat) (len : Nat), len ≤ seed.length → lfsr seed taps len = seed.take len) ∧
  (∀ (seed : Bits) (taps : List Nat) (a b : Nat), a ≤ b → (lfsr seed taps b).take a = lfsr seed taps a) ∧
  (∀ (n : Nat) (taps : List Nat) (len : Nat),
    lfsr (List.replicate n false) taps len = List.replicate len false) ∧
  (∀ (seed : Bits) (len : Nat), seed.length ≤ len →
    lfsr seed [] len = seed ++ List.replicate (len - seed.length) false)

/-- 41_lfsr_engine.md R136: SEEDINT, its result, what it leaves unchanged, and its errors. -/
def Obligations.SeedintLoadsInteger : Prop :=
  ∀ s : State,
    decode (wordOfFields ⟨0x03, 0, 0, false, false, 0⟩) = .ok .seedint ∧
    (0 < s.n.toNat → s.n.toNat ≤ s.maxLen.bits → (s.n.toNat < 32 → s.argVal.toNat < 2 ^ s.n.toNat) →
      ∃ t, exec .seedint s = .next t ∧
        t = { s with
          slen := s.n, configured := false, tvalid := false, err := .success, inflight := none, mem := t.mem } ∧
        (∀ i, i < s.maxLen.bits → t.bufBit .seed i =
          (decide (i < s.n.toNat) && decide (s.n.toNat - 1 - i ≤ 31) && s.argVal.getLsbD (s.n.toNat - 1 - i))) ∧
        StoresOnly [.seed] s t) ∧
    (s.n.toNat = 0 → exec .seedint s = .next (s.raise .parameterError)) ∧
    (s.n.toNat > s.maxLen.bits → exec .seedint s = .next (s.raise .capacityError)) ∧
    (0 < s.n.toNat → s.n.toNat ≤ s.maxLen.bits → s.n.toNat < 32 → s.argVal.toNat ≥ 2 ^ s.n.toNat →
      exec .seedint s = .next (s.raise .lengthError))

/-- 41_lfsr_engine.md R138: ECFG sets CONFIGURED and clears TVALID and nothing else, or raises the first error. -/
def Obligations.EcfgValidatesEngine : Prop :=
  ∀ s : State,
    decode (wordOfFields ⟨0x04, 0, 0, false, false, 0⟩) = .ok .ecfg ∧
    (0 < s.n.toNat → s.n.toNat ≤ s.maxLen.bits →
      (∀ p, s.n.toNat < p → p ≤ s.maxLen.bits → s.bufBit .taps (p - 1) = false) → s.slen = s.n →
      exec .ecfg s = .next { s with configured := true, tvalid := false, err := .success, inflight := none }) ∧
    (s.n.toNat = 0 → exec .ecfg s = .next (s.raise .parameterError)) ∧
    (s.n.toNat > s.maxLen.bits → exec .ecfg s = .next (s.raise .capacityError)) ∧
    (∀ p, 0 < s.n.toNat → s.n.toNat < p → p ≤ s.maxLen.bits → s.bufBit .taps (p - 1) = true →
      exec .ecfg s = .next (s.raise .parameterError)) ∧
    (0 < s.n.toNat → s.n.toNat ≤ s.maxLen.bits →
      (∀ p, s.n.toNat < p → p ≤ s.maxLen.bits → s.bufBit .taps (p - 1) = false) → s.slen ≠ s.n →
      exec .ecfg s = .next (s.raise .lengthError))

/-- 41_lfsr_engine.md R140: GET, its result, what it leaves unchanged, and its errors. -/
def Obligations.GetGeneratesKeystream : Prop :=
  ∀ (s : State) (fmt : Fmt) (dflt : Bool) (len : Nat),
    len = (if dflt then (if s.tvalid then s.stlen.toNat else 1) else s.argLen.toNat) →
    decode (wordOfFields ⟨0x05, fmt.code, 0, dflt, false, 0⟩) = .ok (.get fmt dflt) ∧
    (s.configured = true → len ≤ s.maxLen.bits → (fmt = .bin ∨ len % 8 = 0) →
      ∃ t, exec (.get fmt dflt) s = .next t ∧
        t.Holds .out (lfsr (s.bits .seed s.n.toNat) (s.tapSet s.n.toNat) len) ∧
        (fmt = .bin →
          t = { s with olen := BitVec.ofNat 32 len, err := .success, inflight := none, mem := t.mem } ∧
          StoresOnly [.out] s t) ∧
        (fmt ≠ .bin →
          ∃ r, IsPackOf fmt (lfsr (s.bits .seed s.n.toNat) (s.tapSet s.n.toNat) len) r ∧
            t = { s with
              olen := BitVec.ofNat 32 len, bcnt := BitVec.ofNat 32 r.length, err := .success, inflight := none,
              mem := t.mem } ∧
            t.HoldsBytes r ∧ StoresOnly [.out, .bytes] s t)) ∧
    (s.configured = false → exec (.get fmt dflt) s = .next (s.raise .parameterError)) ∧
    (s.configured = true → len > s.maxLen.bits → exec (.get fmt dflt) s = .next (s.raise .capacityError)) ∧
    (s.configured = true → len ≤ s.maxLen.bits → fmt ≠ .bin → len % 8 ≠ 0 →
      exec (.get fmt dflt) s = .next (s.raise .lengthError))

/-- 41_lfsr_engine.md R143: TEST passes when the regenerated bits equal the target, changing only ERR and BUSY;
raises ValidationError when they differ; and its other errors. -/
def Obligations.TestComparesWithTarget : Prop :=
  ∀ (s : State) (supplied : Bool) (v : Bits),
    v = (if supplied then s.bits .tgt s.tlen.toNat else s.bits .stgt s.stlen.toNat) →
    decode (wordOfFields ⟨0x06, 0, 0, false, supplied, 0⟩) = .ok (.test supplied) ∧
    (s.configured = true → (supplied = false → s.tvalid = true) →
      (supplied = true → s.tlen.toNat ≤ s.maxLen.bits) →
      (lfsr (s.bits .seed s.n.toNat) (s.tapSet s.n.toNat) v.length = v →
        exec (.test supplied) s = .next { s with err := .success, inflight := none }) ∧
      (lfsr (s.bits .seed s.n.toNat) (s.tapSet s.n.toNat) v.length ≠ v →
        exec (.test supplied) s = .next (s.raise .validationError))) ∧
    (s.configured = false → exec (.test supplied) s = .next (s.raise .parameterError)) ∧
    (s.configured = true → supplied = false → s.tvalid = false →
      exec (.test supplied) s = .next (s.raise .parameterError)) ∧
    (s.configured = true → supplied = true → s.tlen.toNat > s.maxLen.bits →
      exec (.test supplied) s = .next (s.raise .capacityError))

/-- GET depends on SEED only below N and on TAPS only below N (10_state.md R36: no command reads the bits beyond the
length): two states that agree there and in the registers give the same error, lengths, output bits and, under HEX and
STR, packed bytes. -/
def Obligations.GetReadsOnlyTheEngine : Prop :=
  ∀ (s : State) (m : Memory) (fmt : Fmt) (dflt : Bool) (t t' : State),
    (∀ i, i < s.n.toNat → s.bufBit .seed i = { s with mem := m }.bufBit .seed i) →
    (∀ i, i < s.n.toNat → s.bufBit .taps i = { s with mem := m }.bufBit .taps i) →
    exec (.get fmt dflt) s = .next t → exec (.get fmt dflt) { s with mem := m } = .next t' →
    t'.err = t.err ∧ t'.olen = t.olen ∧ t'.bcnt = t.bcnt ∧
    (t.err = .success → t'.bits .out t'.olen.toNat = t.bits .out t.olen.toNat) ∧
    (t.err = .success → fmt ≠ .bin → t'.bytes t'.bcnt.toNat = t.bytes t.bcnt.toNat)

/-! ## Berlekamp–Massey reconstructor -/

/-- 42_berlekamp_massey.md R163 to R165: what one position does to C, B, L and m, by coefficients. -/
def Obligations.BmStepFollowsRules : Prop :=
  ∀ (v : Bits) (i : Nat), i < v.length →
    ∃ d : Bool,
      d = (v.getD i false ^^ xorSum ((List.range (bmRun v i).l).map fun j =>
        (bmRun v i).c.getD (j + 1) false && v.getD (i - (j + 1)) false)) ∧
      (d = false → bmRun v (i + 1) = bmRun v i) ∧
      (d = true →
        (∀ j : Nat, (bmRun v (i + 1)).c.getD j false = ((bmRun v i).c.getD j false ^^
          (decide ((i : Int) - (bmRun v i).m ≤ j) &&
            (bmRun v i).b.getD ((j : Int) - (i - (bmRun v i).m)).toNat false))) ∧
        (2 * (bmRun v i).l ≤ i →
          (bmRun v (i + 1)).l = (i : Int) + 1 - (bmRun v i).l ∧ (bmRun v (i + 1)).m = i ∧
          (bmRun v (i + 1)).b = (bmRun v i).c) ∧
        (¬2 * (bmRun v i).l ≤ i →
          (bmRun v (i + 1)).l = (bmRun v i).l ∧ (bmRun v (i + 1)).m = (bmRun v i).m ∧
          (bmRun v (i + 1)).b = (bmRun v i).b))

/-- The reconstruction starts from C = 1, B = 1, L = 0, m = -1, which the spec takes from general knowledge
(42_berlekamp_massey.md R162, 93_implementation_defined.md G3), and ends after the target's last position (R161). The
bounds that hold before every position and after the last, which the spec gives as standard properties or
derives (42_berlekamp_massey.md R163, R164, R167): so the shift i - m is at least 1, C keeps the constant term 1, and
BMC and BMB hold C and B exactly. -/
def Obligations.BmBounds : Prop :=
  (∀ v : Bits, bmRun v 0 = { c := [true], b := [true], l := 0, m := -1 } ∧ bmFinal v = bmRun v v.length) ∧
  ∀ (v : Bits) (i : Nat), i ≤ v.length →
    (bmRun v i).l ≤ i ∧ -1 ≤ (bmRun v i).m ∧ (bmRun v i).m < i ∧ (bmRun v i).c.getD 0 false = true ∧
    (∀ j, (bmRun v i).l < j → (bmRun v i).c.getD j false = false) ∧
    (∀ j, i < j → (bmRun v i).b.getD j false = false)

/-- The reconstructed LFSR generates the whole target. The spec gives this as general knowledge
(42_berlekamp_massey.md R169, 93_implementation_defined.md G5). -/
def Obligations.BmRegeneratesTarget : Prop :=
  ∀ v : Bits, lfsr (bmSeed v (bmFinal v)) (bmTaps (bmFinal v)) v.length = v

/-- 42_berlekamp_massey.md R166 with 00_scope.md R15: L is the length of the shortest LFSR that generates the target;
the TapSet is the set of positions with C[j] = 1, at most L of them; the seed is the target's first L bits. -/
def Obligations.BmFindsLinearComplexity : Prop :=
  ∀ v : Bits,
    (∃ seed taps, seed.length = (bmFinal v).l ∧ (∀ p ∈ taps, 1 ≤ p ∧ p ≤ (bmFinal v).l) ∧
      lfsr seed taps v.length = v) ∧
    (∀ seed taps, (∀ p ∈ taps, 1 ≤ p ∧ p ≤ seed.length) → lfsr seed taps v.length = v →
      (bmFinal v).l ≤ seed.length) ∧
    (∀ p, p ∈ bmTaps (bmFinal v) ↔ 1 ≤ p ∧ (bmFinal v).c.getD p false = true) ∧
    (bmTaps (bmFinal v)).length ≤ (bmFinal v).l ∧ bmSeed v (bmFinal v) = v.take (bmFinal v).l

/-- The correctness bound of 42_berlekamp_massey.md R171: when an LFSR of length L generates the target, no shorter one
generates the same sequence at every length, and the target has at least 2L bits, the reconstruction finds exactly L and
regenerates the target. -/
def Obligations.BmRecoversTrueComplexity : Prop :=
  ∀ (seed : Bits) (taps : List Nat) (v : Bits),
    (∀ p ∈ taps, 1 ≤ p ∧ p ≤ seed.length) → 2 * seed.length ≤ v.length → lfsr seed taps v.length = v →
    (∀ (seed' : Bits) (taps' : List Nat), seed'.length < seed.length →
      (∀ p ∈ taps', 1 ≤ p ∧ p ≤ seed'.length) → ∃ k, lfsr seed' taps' k ≠ lfsr seed taps k) →
    (bmFinal v).l = seed.length ∧ lfsr (bmSeed v (bmFinal v)) (bmTaps (bmFinal v)) v.length = v

/-- 42_berlekamp_massey.md R168, R169: TCFG commits the reconstruction only after the self-check over the whole
target; exactly on a failed check it raises ReconstructionError, and then keeps everything else. -/
def Obligations.TcfgCommitsReconstruction : Prop :=
  ∀ (s : State) (v : Bits) (st : BmState), v = s.bits .tgt s.tlen.toNat → st = bmFinal v →
    decode (wordOfFields ⟨0x07, 0, 0, false, false, 0⟩) = .ok .tcfg ∧
    (s.tlen.toNat ≤ s.maxLen.bits → lfsr (bmSeed v st) (bmTaps st) v.length = v →
      ∃ t, exec .tcfg s = .next t ∧
        t = { s with
          n := BitVec.ofNat 32 st.l, slen := BitVec.ofNat 32 st.l, stlen := s.tlen,
          bmL := BitVec.ofNat 32 st.l, bmM := BitVec.ofInt 32 st.m, configured := true, tvalid := true,
          err := .success, inflight := none, mem := t.mem } ∧
        t.Holds .seed (v.take st.l) ∧
        (∀ p, 1 ≤ p → p ≤ s.maxLen.bits →
          t.bufBit .taps (p - 1) = (decide (p ≤ st.l) && st.c.getD p false)) ∧
        t.Holds .stgt v ∧ t.Holds .bmc st.c ∧ t.Holds .bmb st.b ∧
        StoresOnly [.seed, .taps, .stgt, .bmc, .bmb] s t) ∧
    (s.tlen.toNat > s.maxLen.bits → exec .tcfg s = .next (s.raise .capacityError)) ∧
    (s.tlen.toNat ≤ s.maxLen.bits →
      (exec .tcfg s = .next (s.raise .reconstructionError) ↔ lfsr (bmSeed v st) (bmTaps st) v.length ≠ v))

/-- TCFG completes for every target within the capacity: "a conforming block never raises ReconstructionError", which
42_berlekamp_massey.md R169 gives as general knowledge. -/
def Obligations.TcfgAlwaysSucceeds : Prop :=
  ∀ s : State, s.tlen.toNat ≤ s.maxLen.bits →
    ∃ t, exec .tcfg s = .next t ∧ t.err = .success ∧ t.configured = true ∧ t.tvalid = true ∧
      t.stlen = s.tlen ∧ t.slen = t.n ∧ t.n = t.bmL

/-- After a successful TCFG, `test` with S = 0 passes: the self-consistency of 41_lfsr_engine.md R143, which the spec
derives from 42_berlekamp_massey.md R168. -/
def Obligations.TestPassesAfterTcfg : Prop :=
  ∀ s t : State, exec .tcfg s = .next t → t.err = .success → exec (.test false) t = .next t

/-! ## Geffe combiner -/

/-- 43_geffe.md R191: the selector chooses x2 when x1 is 1, else x3. -/
def Obligations.GeffeSelectorTable : Prop :=
  ∀ x2 x3 : Bool, geffeSelect true x2 x3 = x2 ∧ geffeSelect false x2 x3 = x3 ∧
    (∀ x1 : Bool, geffeSelect x1 x2 x3 = ((x1 && x2) ^^ (!x1 && x3)))

/-- 43_geffe.md R190, R192, R193: every bit of the Geffe output, from the three fixed engines in lock-step with the
seeds read most significant bit first. -/
def Obligations.GeffeCombinesEngines : Prop :=
  ∀ (g1 g2 g3 : Word) (len : Nat),
    (geffe g1 g2 g3 len).length = len ∧
    (∀ g : Word, ∃ v : Bits, geffeSeed g = v ∧ v.length = 32 ∧
      ∀ k, k < 32 → v.getD k false = g.getLsbD (31 - k)) ∧
    ∀ k, k < len → (geffe g1 g2 g3 len).getD k false =
      bif (lfsr (geffeSeed g1) [3, 4, 6, 7, 8, 9, 11, 32] len).getD k false
      then (lfsr (geffeSeed g2) [1, 2, 3, 4, 6, 8, 9, 13, 14, 32] len).getD k false
      else (lfsr (geffeSeed g3) [1, 2, 3, 7, 12, 14, 15, 32] len).getD k false

/-- 43_geffe.md R198: GGET, its result, what it leaves unchanged, and its errors. -/
def Obligations.GgetGeneratesKeystream : Prop :=
  ∀ (s : State) (fmt : Fmt),
    decode (wordOfFields ⟨0x09, fmt.code, 0, false, false, 0⟩) = .ok (.gget fmt) ∧
    (s.argLen.toNat ≤ s.maxLen.bits → (fmt = .bin ∨ s.argLen.toNat % 8 = 0) →
      ∃ t, exec (.gget fmt) s = .next t ∧
        t.Holds .out (geffe s.gs1 s.gs2 s.gs3 s.argLen.toNat) ∧
        (fmt = .bin →
          t = { s with olen := s.argLen, err := .success, inflight := none, mem := t.mem } ∧
          StoresOnly [.out] s t) ∧
        (fmt ≠ .bin →
          ∃ r, IsPackOf fmt (geffe s.gs1 s.gs2 s.gs3 s.argLen.toNat) r ∧
            t = { s with
              olen := s.argLen, bcnt := BitVec.ofNat 32 r.length, err := .success, inflight := none,
              mem := t.mem } ∧
            t.HoldsBytes r ∧ StoresOnly [.out, .bytes] s t)) ∧
    (s.argLen.toNat > s.maxLen.bits → exec (.gget fmt) s = .next (s.raise .capacityError)) ∧
    (s.argLen.toNat ≤ s.maxLen.bits → fmt ≠ .bin → s.argLen.toNat % 8 ≠ 0 →
      exec (.gget fmt) s = .next (s.raise .lengthError))

/-- A longer GGET extends a shorter one as a prefix, and zero seeds give zeros (43_geffe.md R194, R198, which the
spec derives from R193 and 41_lfsr_engine.md R131). -/
def Obligations.GeffePrefixAndZeroSeeds : Prop :=
  (∀ (g1 g2 g3 : Word) (a b : Nat), a ≤ b → (geffe g1 g2 g3 b).take a = geffe g1 g2 g3 a) ∧
  (∀ len : Nat, geffe 0 0 0 len = List.replicate len false)

/-- 43_geffe.md R196: GKEY in both key forms loads the three seeds and nothing else, or raises ParameterError; with
the buffer and the length register of each source (30_encoding.md R83). -/
def Obligations.GkeyLoadsSeeds : Prop :=
  (∀ (s : State) (src : BufSel) (b : Buf) (len : Word),
    (src, b, len) ∈ [(.seed, .seed, s.slen), (.tgt, .tgt, s.tlen), (.out, .out, s.olen), (.stgt, .stgt, s.stlen)] →
    decode (wordOfFields ⟨0x08, 0, src.code, false, false, 0⟩) = .ok (.gkeyBin src) ∧
    (len = 96 →
      ∃ t, exec (.gkeyBin src) s = .next t ∧
        t = { s with gs1 := t.gs1, gs2 := t.gs2, gs3 := t.gs3, err := .success, inflight := none } ∧
        ∀ k, k < 32 → t.gs1.getLsbD (31 - k) = s.bufBit b k ∧
          t.gs2.getLsbD (31 - k) = s.bufBit b (32 + k) ∧
          t.gs3.getLsbD (31 - k) = s.bufBit b (64 + k)) ∧
    (len ≠ 96 → exec (.gkeyBin src) s = .next (s.raise .parameterError))) ∧
  (∀ s : State,
    decode (wordOfFields ⟨0x08, 2, 0, false, false, 0⟩) = .ok .gkeyStr ∧
    (s.bcnt = 12 →
      ∃ t, exec .gkeyStr s = .next t ∧
        t = { s with gs1 := t.gs1, gs2 := t.gs2, gs3 := t.gs3, err := .success, inflight := none } ∧
        t.gs1.toNat = (s.byteAt 0).toNat * 2 ^ 24 + (s.byteAt 1).toNat * 2 ^ 16 +
          (s.byteAt 2).toNat * 2 ^ 8 + (s.byteAt 3).toNat ∧
        t.gs2.toNat = (s.byteAt 4).toNat * 2 ^ 24 + (s.byteAt 5).toNat * 2 ^ 16 +
          (s.byteAt 6).toNat * 2 ^ 8 + (s.byteAt 7).toNat ∧
        t.gs3.toNat = (s.byteAt 8).toNat * 2 ^ 24 + (s.byteAt 9).toNat * 2 ^ 16 +
          (s.byteAt 10).toNat * 2 ^ 8 + (s.byteAt 11).toNat) ∧
    (s.bcnt ≠ 12 → exec .gkeyStr s = .next (s.raise .parameterError)))

/-! ## All commands -/

/-- 60_exceptions.md R214: "the state after an error equals the state before the command, except for ERR, STICKY and
BUSY". -/
def Obligations.ErrorsArePrecise : Prop :=
  ∀ (i : Instr) (s t : State), exec i s = .next t → t.err ≠ .success →
    t = { s with err := t.err, sticky := true, inflight := none }

/-- 60_exceptions.md R215: success writes ERR <- 0 and leaves STICKY; every error sets it; only reset or a STATUS
write with bit 3 = 1 clears it. -/
def Obligations.StickyClearedOnlyByHost : Prop :=
  (∀ (i : Instr) (s t : State), exec i s = .next t →
    (t.err = .success → t.sticky = s.sticky) ∧ (t.err ≠ .success → t.sticky = true)) ∧
  (∀ s t : State, step s = .next t → s.sticky = true → t.sticky = false →
    s.appliesCycle = true ∧
      (s.nextCycle.rst = true ∨
        (s.nextCycle.sel = true ∧ s.nextCycle.we = true ∧ byteAddress s.nextCycle.a = 0x008 ∧
          s.nextCycle.wdata.getLsbD 3 = true)))

/-- 60_exceptions.md R213: each legal command reports exactly the first failing check of its order; CommandError comes
before them all, in decoding. -/
def Obligations.ReportsFirstFailingCheck : Prop :=
  (∀ (i : Instr) (s : State), i.wf = true → ∃ t, exec i s = .next t ∧ ReportsFirst i s t.err) ∧
  (∀ (s : State) (w : Word) (e : DecodeError), s.inflight = some ⟨w, 0⟩ → decode w = .error e →
    step s = .next (s.raise .commandError))

/-- The table of 60_exceptions.md R211, which the spec derives from the commands' rules. -/
def Obligations.ErrorsOfEachCommand : Prop :=
  ∀ (i : Instr) (s t : State), i.wf = true → exec i s = .next t → t.err = .success ∨ t.err ∈ canRaise i

/-- Every command leaves every byte outside the windows it stores to (10_state.md R26 to R34). -/
def Obligations.CommandStoresOnlyItsBuffers : Prop :=
  ∀ (i : Instr) (s t : State), exec i s = .next t → StoresOnly (storesTo i) s t

/-- Every command leaves every register it does not write, STATUS apart (10_state.md R20, R26 to R37). That it also
leaves the last read answer (log 4), the host's pending cycles (log 2) and the free-value counter (log 3) is about the
model's own choices, not a rule of the spec. -/
def Obligations.CommandWritesOnlyItsRegisters : Prop :=
  ∀ (i : Instr) (s t : State), exec i s = .next t →
    (∀ r, r ≠ .status → r ∉ writesTo i → t.readReg r = s.readReg r) ∧
    t.rdata = s.rdata ∧ t.port = s.port ∧ t.fresh = s.fresh

/-- CONFIGURED is set only by ECFG or TCFG, and TVALID only by TCFG (10_state.md R39, R40), over every step. -/
def Obligations.FlagsSetOnlyByConstruction : Prop :=
  ∀ s t : State, step s = .next t →
    (s.tvalid = false → t.tvalid = true → ∃ w, s.inflight = some ⟨w, 0⟩ ∧ decode w = .ok .tcfg) ∧
    (s.configured = false → t.configured = true →
      ∃ w, s.inflight = some ⟨w, 0⟩ ∧ (decode w = .ok .ecfg ∨ decode w = .ok .tcfg))

/-- The stored target changes only by TCFG or reset (10_state.md R30), over every step. -/
def Obligations.StoredTargetWrittenOnlyByTcfg : Prop :=
  ∀ s t : State, step s = .next t →
    (t.stlen ≠ s.stlen ∨ ∃ a, Buf.mapped s.maxLen .stgt a ∧ Memory.read t.mem a ≠ Memory.read s.mem a) →
    (∃ w, s.inflight = some ⟨w, 0⟩ ∧ decode w = .ok .tcfg) ∨
      (s.appliesCycle = true ∧ s.nextCycle.rst = true)

/-- 70_reset_and_hazards.md R250, R253: a command in flight completes after its clocks, which an invariant bounds by a
function of MAXLEN alone, while the host is idle or polls STATUS (30_encoding.md R93). BUSY stays 1 until then, and each
of those clocks leaves the command word and everything a command reads as they were (20_memory.md R72,
70_reset_and_hazards.md R255, log 9); the host's later cycles are still to come. The clocks are the model's free value
(log 3), the host's cycles are a list (log 2), and rdata is the last answer (log 4). -/
def Obligations.CommandCompletes : Prop :=
  ∀ (s : State) (f : InFlight), s.inflight = some f →
    (s.Inv → f.busyLeft ≤ Config.busyBound s.maxLen) ∧
    ((∀ c ∈ s.port.take f.busyLeft,
        c.rst = false ∧ (c.sel = false ∨ (c.we = false ∧ byteAddress c.a = 0x008))) →
      (∀ j, j ≤ f.busyLeft → ∃ (u : State) (d : Option Word), Host.Core.run core j s = .next u ∧
        u = { s with inflight := some ⟨f.word, f.busyLeft - j⟩, port := s.port.drop j, rdata := d } ∧
        (u.busRead 0x008).getLsbD 0 = true) ∧
      ∃ t, Host.Core.run core (f.busyLeft + 1) s = .next t ∧ t.inflight = none ∧
        t.port = s.port.drop f.busyLeft)

/-- 60_exceptions.md R210: the numeric code of each error, as a STATUS read shows it in bits 11:8, and that the codes
8 to 15 are never produced. -/
def Obligations.ErrorCodesInStatus : Prop :=
  (∀ (s : State) (e : ErrCode) (c : BitVec 4),
    (e, c) ∈ [(.success, 0), (.formatError, 1), (.lengthError, 2), (.parameterError, 3), (.validationError, 4),
      (.reconstructionError, 5), (.commandError, 6), (.capacityError, 7)] →
    s.err = e → (s.busRead 0x008).extractLsb' 8 4 = c) ∧
  (∀ s : State, ((s.busRead 0x008).extractLsb' 8 4).toNat ≤ 7)
end

