-- ==== Sys2Proof/Laws/Memory.lean ====
section
/-!
SUPPORT. The laws of the windows' storage: what a read gives after a store, that a store keeps the canonical form,
and that the windows are disjoint.
-/

namespace Sys2Proof

theorem MaxLen.bits_mod (m : MaxLen) : m.bits % 32 = 0 := by simp [MaxLen.bits]

theorem MaxLen.bits_bounds (m : MaxLen) : 96 ≤ m.bits ∧ m.bits ≤ 262144 := by
  have := m.extraWords.isLt
  simp only [MaxLen.bits, MaxLen.words]
  omega

/-- Every legal MAXLEN of 00_scope.md R6 is one of the model's. -/
theorem MaxLen.every_legal (n : Nat) (h1 : 96 ≤ n) (h2 : n ≤ 262144) (h3 : n % 32 = 0) :
    ∃ m : MaxLen, m.bits = n := by
  refine ⟨⟨⟨n / 32 - 3, by omega⟩⟩, ?_⟩
  simp only [MaxLen.bits, MaxLen.words]
  omega

end Sys2Proof

namespace Sys2Proof.Machine

@[simp] theorem Memory.read_nil (x : Nat) : Memory.read [] x = 0 := rfl

theorem Memory.read_append (m m' : Memory) (x : Nat) :
    Memory.read (m ++ m') x = if x ∈ m.map Prod.fst then Memory.read m x else Memory.read m' x := by
  induction m with
  | nil => simp
  | cons c m ih =>
    obtain ⟨a, b⟩ := c
    by_cases h : x = a
    · simp [Memory.read, h]
    · simp [Memory.read, h, ih]

theorem Memory.read_not_mem (m : Memory) (x : Nat) (h : x ∉ m.map Prod.fst) : Memory.read m x = 0 := by
  induction m with
  | nil => rfl
  | cons c m ih =>
    obtain ⟨a, b⟩ := c
    simp only [List.map_cons, List.mem_cons, not_or] at h
    simp [Memory.read, h.1, ih h.2]

/-- Keeping the cells of a set of addresses keeps the reads of those addresses. -/
theorem Memory.read_filter (m : Memory) (p : Nat → Bool) (x : Nat) :
    Memory.read (m.filter fun c => p c.1) x = if p x then Memory.read m x else 0 := by
  induction m with
  | nil => simp
  | cons c m ih =>
    obtain ⟨a, b⟩ := c
    by_cases hp : p a
    · by_cases hx : x = a
      · subst hx; simp [Memory.read, hp]
      · simp [Memory.read, hp, hx, ih]
    · by_cases hx : x = a
      · subst hx; simp [hp, ih]
      · simp [Memory.read, hp, hx, ih]

theorem Memory.mem_cellsFrom {bs : List Byte} : ∀ {lo : Nat} {c : Host.Cell},
    c ∈ Memory.cellsFrom lo bs → lo ≤ c.1 ∧ c.1 < lo + bs.length ∧ c.2 ≠ 0 := by
  induction bs with
  | nil => intro lo c h; simp [Memory.cellsFrom] at h
  | cons b bs ih =>
    intro lo c h
    rw [Memory.cellsFrom] at h
    split at h
    · obtain ⟨h1, h2, h3⟩ := ih h
      exact ⟨by omega, by simp only [List.length_cons]; omega, h3⟩
    · rcases List.mem_cons.1 h with rfl | h
      · exact ⟨Nat.le_refl _, by simp, ‹_›⟩
      · obtain ⟨h1, h2, h3⟩ := ih h
        exact ⟨by omega, by simp only [List.length_cons]; omega, h3⟩

theorem Memory.read_cellsFrom {bs : List Byte} : ∀ {lo x : Nat}, lo ≤ x →
    Memory.read (Memory.cellsFrom lo bs) x = bs.getD (x - lo) 0 := by
  induction bs with
  | nil => intro lo x _; simp [Memory.cellsFrom]
  | cons b bs ih =>
    intro lo x hx
    rw [Memory.cellsFrom]
    by_cases h : x = lo
    · subst h
      split
      · rename_i hb
        rw [Memory.read_not_mem]
        · simp [hb]
        · intro hm
          obtain ⟨c, hc, rfl⟩ := List.mem_map.1 hm
          have := (Memory.mem_cellsFrom hc).1
          omega
      · simp [Memory.read]
    · have hs : x - lo = (x - (lo + 1)) + 1 := by omega
      split
      · rw [ih (by omega), hs, List.getD_cons_succ]
      · rw [Memory.read, if_neg h, ih (by omega), hs, List.getD_cons_succ]

theorem Memory.not_mem_filter {m : Memory} {p : Nat → Bool} {x : Nat} (h : p x = false) :
    x ∉ (m.filter fun c => p c.1).map Prod.fst := by
  intro hm
  obtain ⟨c, hc, rfl⟩ := List.mem_map.1 hm
  simp [h] at hc

theorem Memory.not_mem_cellsFrom {bs : List Byte} {lo x : Nat} (h : x < lo ∨ lo + bs.length ≤ x) :
    x ∉ (Memory.cellsFrom lo bs).map Prod.fst := by
  intro hm
  obtain ⟨c, hc, rfl⟩ := List.mem_map.1 hm
  have := Memory.mem_cellsFrom hc
  omega

/-- A list read past the cells it lists goes on to the rest: where the first part reads `v` or lists nothing. -/
theorem Memory.read_append_of {m m' : Memory} {x : Nat} {v : Byte} (h : Memory.read m x = v)
    (h' : x ∉ m.map Prod.fst → Memory.read m' x = v) : Memory.read (m ++ m') x = v := by
  rw [Memory.read_append]
  split
  · exact h
  · exact h' ‹_›

/-- Everything a store does to a read, for every memory. -/
theorem Memory.read_replace (m : Memory) (lo k : Nat) (bs : List Byte) (x : Nat) :
    Memory.read (Memory.replace m lo k bs) x =
      if lo ≤ x ∧ x < lo + k then bs.getD (x - lo) 0 else Memory.read m x := by
  unfold Memory.replace
  rw [List.append_assoc]
  have hlo := Memory.read_filter m (fun a => decide (a < lo)) x
  have hhi := Memory.read_filter m (fun a => decide (lo + k ≤ a)) x
  simp only [decide_eq_true_eq] at hlo hhi
  have hlen : (bs.take k).length ≤ k := by simp
  by_cases h1 : x < lo
  · rw [if_neg (by omega : ¬(lo ≤ x ∧ x < lo + k))]
    rw [if_pos h1] at hlo
    refine Memory.read_append_of hlo fun hm => ?_
    have hz := Memory.read_not_mem _ _ hm
    rw [hlo] at hz
    rw [Memory.read_append, if_neg (Memory.not_mem_cellsFrom (.inl h1)), hhi, if_neg (by omega), hz]
  · rw [Memory.read_append, if_neg (Memory.not_mem_filter (p := fun a => decide (a < lo)) (by simpa using h1))]
    by_cases h2 : x < lo + k
    · rw [if_pos ⟨by omega, h2⟩]
      have hc : Memory.read (Memory.cellsFrom lo (bs.take k)) x = bs.getD (x - lo) 0 := by
        rw [Memory.read_cellsFrom (by omega)]
        simp only [List.getD_eq_getElem?_getD]
        rw [List.getElem?_take, if_pos (by omega)]
      refine Memory.read_append_of hc fun hm => ?_
      have hz := Memory.read_not_mem _ _ hm
      rw [hc] at hz
      rw [hhi, if_neg (by omega), hz]
    · rw [if_neg (by omega : ¬(lo ≤ x ∧ x < lo + k)), Memory.read_append,
        if_neg (Memory.not_mem_cellsFrom (.inr (by omega))), hhi, if_pos (by omega)]

theorem Memory.cellsFrom_sorted (bs : List Byte) : ∀ lo : Nat,
    (Memory.cellsFrom lo bs).Pairwise (fun c c' => c.1 < c'.1) := by
  induction bs with
  | nil => intro lo; exact List.Pairwise.nil
  | cons b bs ih =>
    intro lo
    rw [Memory.cellsFrom]
    split
    · exact ih _
    · exact List.Pairwise.cons (fun c hc => by have := (Memory.mem_cellsFrom hc).1; simp; omega) (ih _)

/-- A store keeps the canonical form. -/
theorem Memory.replace_wf {m : Memory} (h : Memory.wf m) (lo k : Nat) (bs : List Byte) :
    Memory.wf (Memory.replace m lo k bs) := by
  obtain ⟨hs, hz⟩ := h
  have hlen : (bs.take k).length ≤ k := by simp
  constructor
  · unfold Memory.replace
    rw [List.append_assoc, List.pairwise_append, List.pairwise_append]
    refine ⟨hs.filter _, ⟨Memory.cellsFrom_sorted _ _, hs.filter _, ?_⟩, ?_⟩
    · intro c hc c' hc'
      have := (Memory.mem_cellsFrom hc).2.1
      simp only [List.mem_filter, decide_eq_true_eq] at hc'
      omega
    · intro c hc c' hc'
      simp only [List.mem_filter, decide_eq_true_eq] at hc
      rcases List.mem_append.1 hc' with hc' | hc'
      · have := (Memory.mem_cellsFrom hc').1
        omega
      · simp only [List.mem_filter, decide_eq_true_eq] at hc'
        omega
  · intro c hc
    unfold Memory.replace at hc
    rw [List.append_assoc, List.mem_append, List.mem_append] at hc
    rcases hc with hc | hc | hc
    · exact hz c (List.mem_filter.1 hc).1
    · exact (Memory.mem_cellsFrom hc).2.2
    · exact hz c (List.mem_filter.1 hc).1

/-- The cells after a store: old ones outside it, or cells inside it. -/
theorem Memory.mem_replace {m : Memory} {lo k : Nat} {bs : List Byte} {c : Host.Cell}
    (h : c ∈ Memory.replace m lo k bs) : c ∈ m ∨ (lo ≤ c.1 ∧ c.1 < lo + k) := by
  have hlen : (bs.take k).length ≤ k := by simp
  unfold Memory.replace at h
  rw [List.append_assoc, List.mem_append, List.mem_append] at h
  rcases h with h | h | h
  · exact .inl (List.mem_filter.1 h).1
  · have := Memory.mem_cellsFrom h
    exact .inr ⟨this.1, by omega⟩
  · exact .inl (List.mem_filter.1 h).1

theorem Memory.writeWord_wf {m : Memory} (h : Memory.wf m) (a : Nat) (w : Word) : Memory.wf (Memory.writeWord m a w) :=
  Memory.replace_wf h a 4 _

theorem Memory.empty_wf : Memory.wf [] := ⟨List.Pairwise.nil, by simp⟩

/-- Bit `j` of a word in memory is a bit of one of its four bytes, most significant byte first. -/
theorem Memory.getLsbD_readWord (m : Memory) (a j : Nat) (h : j < 32) :
    (Memory.readWord m a).getLsbD j = (Memory.read m (a + (3 - j / 8))).getLsbD (j % 8) := by
  unfold Memory.readWord
  simp only [BitVec.getLsbD_append]
  by_cases h0 : j < 8
  · have : j / 8 = 0 := by omega
    simp [h0, this, Nat.mod_eq_of_lt h0]
  · by_cases h1 : j < 16
    · have : j / 8 = 1 := by omega
      have h3 : j % 8 = j - 8 := by omega
      simp [h0, this, h3, show j - 8 < 8 by omega]
    · by_cases h2 : j < 24
      · have : j / 8 = 2 := by omega
        have h3 : j % 8 = j - 8 - 8 := by omega
        simp [h0, this, h3, show ¬ j - 8 < 8 by omega, show j - 8 - 8 < 8 by omega]
      · have : j / 8 = 3 := by omega
        have h3 : j % 8 = j - 8 - 8 - 8 := by omega
        simp [h0, this, h3, show ¬ j - 8 < 8 by omega, show ¬ j - 8 - 8 < 8 by omega]

/-- The bytes of a word are its bits, most significant byte first. -/
theorem getLsbD_bytesOfWord (w : Word) (i j : Nat) (hi : i < 4) (hj : j < 8) :
    ((bytesOfWord w).getD i 0).getLsbD j = w.getLsbD (8 * (3 - i) + j) := by
  have h : i = 0 ∨ i = 1 ∨ i = 2 ∨ i = 3 := by omega
  rcases h with rfl | rfl | rfl | rfl <;>
    simp [bytesOfWord, hj]

@[simp] theorem length_bytesOfWord (w : Word) : (bytesOfWord w).length = 4 := rfl

/-- Two memories that read alike on a word's bytes give the same word. -/
theorem Memory.readWord_congr {m m' : Memory} {a : Nat}
    (h : ∀ x, a ≤ x → x < a + 4 → Memory.read m x = Memory.read m' x) :
    Memory.readWord m a = Memory.readWord m' a := by
  unfold Memory.readWord
  rw [h a (by omega) (by omega), h (a + 1) (by omega) (by omega), h (a + 2) (by omega) (by omega),
    h (a + 3) (by omega) (by omega)]

/-- The words whose four bytes are the bytes of `w` are `w`. -/
theorem Memory.readWord_of_bytes {m : Memory} {a : Nat} {w : Word}
    (h : ∀ i, i < 4 → Memory.read m (a + i) = (bytesOfWord w).getD i 0) : Memory.readWord m a = w := by
  apply BitVec.eq_of_getLsbD_eq
  intro j hj
  rw [Memory.getLsbD_readWord _ _ _ hj, h _ (by omega), getLsbD_bytesOfWord _ _ _ (by omega) (by omega)]
  congr 1
  omega

/-- A word read after a store of that word gives it. -/
theorem Memory.readWord_writeWord (m : Memory) (a : Nat) (w : Word) :
    Memory.readWord (Memory.writeWord m a w) a = w := by
  apply Memory.readWord_of_bytes
  intro i hi
  rw [Memory.writeWord, Memory.read_replace, if_pos ⟨by omega, by omega⟩, Nat.add_sub_cancel_left]

/-- A word read apart from a store is as before. -/
theorem Memory.readWord_replace_apart (m : Memory) (lo k : Nat) (bs : List Byte) (a : Nat)
    (h : a + 4 ≤ lo ∨ lo + k ≤ a) : Memory.readWord (Memory.replace m lo k bs) a = Memory.readWord m a := by
  apply Memory.readWord_congr
  intro x h1 h2
  rw [Memory.read_replace, if_neg (by omega)]

/-- A window's mapped bytes fit its 0x40000 bytes of address space. -/
theorem Buf.words_le (m : MaxLen) (b : Buf) : 4 * b.words m ≤ 0x40000 := by
  have := m.bits_bounds
  cases b <;> simp only [Buf.words] <;> omega

/-- The windows lie apart. -/
theorem Buf.base_apart {b b' : Buf} (h : b ≠ b') : b.base + 0x40000 ≤ b'.base ∨ b'.base + 0x40000 ≤ b.base := by
  cases b <;> cases b' <;> simp_all [Buf.base]

/-- No two windows map one address. -/
theorem Buf.mapped_unique {m : MaxLen} {b b' : Buf} {x : Nat} (h : Buf.mapped m b x) (h' : Buf.mapped m b' x) :
    b = b' := by
  by_contra hne
  have := Buf.base_apart hne
  have := Buf.words_le m b
  have := Buf.words_le m b'
  unfold Buf.mapped at h h'
  omega

end Sys2Proof.Machine
end

