-- ==== Sys2Proof/Laws/State.lean ====
section
/-!
SUPPORT. Each field of the state after each named update: one lemma per field per update, so that no proof unfolds a
record update.
-/

namespace Sys2Proof.Machine

variable (s : State)

@[simp] theorem State.raise_maxLen (e : ErrCode) : (s.raise e).maxLen = s.maxLen := rfl
@[simp] theorem State.raise_configured (e : ErrCode) : (s.raise e).configured = s.configured := rfl
@[simp] theorem State.raise_tvalid (e : ErrCode) : (s.raise e).tvalid = s.tvalid := rfl
@[simp] theorem State.raise_sticky (e : ErrCode) : (s.raise e).sticky = true := rfl
@[simp] theorem State.raise_err (e : ErrCode) : (s.raise e).err = e := rfl
@[simp] theorem State.raise_inflight (e : ErrCode) : (s.raise e).inflight = none := rfl
@[simp] theorem State.raise_argLen (e : ErrCode) : (s.raise e).argLen = s.argLen := rfl
@[simp] theorem State.raise_argVal (e : ErrCode) : (s.raise e).argVal = s.argVal := rfl
@[simp] theorem State.raise_n (e : ErrCode) : (s.raise e).n = s.n := rfl
@[simp] theorem State.raise_slen (e : ErrCode) : (s.raise e).slen = s.slen := rfl
@[simp] theorem State.raise_tlen (e : ErrCode) : (s.raise e).tlen = s.tlen := rfl
@[simp] theorem State.raise_bcnt (e : ErrCode) : (s.raise e).bcnt = s.bcnt := rfl
@[simp] theorem State.raise_olen (e : ErrCode) : (s.raise e).olen = s.olen := rfl
@[simp] theorem State.raise_stlen (e : ErrCode) : (s.raise e).stlen = s.stlen := rfl
@[simp] theorem State.raise_bmL (e : ErrCode) : (s.raise e).bmL = s.bmL := rfl
@[simp] theorem State.raise_bmM (e : ErrCode) : (s.raise e).bmM = s.bmM := rfl
@[simp] theorem State.raise_gs1 (e : ErrCode) : (s.raise e).gs1 = s.gs1 := rfl
@[simp] theorem State.raise_gs2 (e : ErrCode) : (s.raise e).gs2 = s.gs2 := rfl
@[simp] theorem State.raise_gs3 (e : ErrCode) : (s.raise e).gs3 = s.gs3 := rfl
@[simp] theorem State.raise_mem (e : ErrCode) : (s.raise e).mem = s.mem := rfl
@[simp] theorem State.raise_rdata (e : ErrCode) : (s.raise e).rdata = s.rdata := rfl
@[simp] theorem State.raise_port (e : ErrCode) : (s.raise e).port = s.port := rfl
@[simp] theorem State.raise_fresh (e : ErrCode) : (s.raise e).fresh = s.fresh := rfl

@[simp] theorem State.succeed_maxLen : s.succeed.maxLen = s.maxLen := rfl
@[simp] theorem State.succeed_configured : s.succeed.configured = s.configured := rfl
@[simp] theorem State.succeed_tvalid : s.succeed.tvalid = s.tvalid := rfl
@[simp] theorem State.succeed_sticky : s.succeed.sticky = s.sticky := rfl
@[simp] theorem State.succeed_err : s.succeed.err = .success := rfl
@[simp] theorem State.succeed_inflight : s.succeed.inflight = none := rfl
@[simp] theorem State.succeed_argLen : s.succeed.argLen = s.argLen := rfl
@[simp] theorem State.succeed_argVal : s.succeed.argVal = s.argVal := rfl
@[simp] theorem State.succeed_n : s.succeed.n = s.n := rfl
@[simp] theorem State.succeed_slen : s.succeed.slen = s.slen := rfl
@[simp] theorem State.succeed_tlen : s.succeed.tlen = s.tlen := rfl
@[simp] theorem State.succeed_bcnt : s.succeed.bcnt = s.bcnt := rfl
@[simp] theorem State.succeed_olen : s.succeed.olen = s.olen := rfl
@[simp] theorem State.succeed_stlen : s.succeed.stlen = s.stlen := rfl
@[simp] theorem State.succeed_bmL : s.succeed.bmL = s.bmL := rfl
@[simp] theorem State.succeed_bmM : s.succeed.bmM = s.bmM := rfl
@[simp] theorem State.succeed_gs1 : s.succeed.gs1 = s.gs1 := rfl
@[simp] theorem State.succeed_gs2 : s.succeed.gs2 = s.gs2 := rfl
@[simp] theorem State.succeed_gs3 : s.succeed.gs3 = s.gs3 := rfl
@[simp] theorem State.succeed_mem : s.succeed.mem = s.mem := rfl
@[simp] theorem State.succeed_rdata : s.succeed.rdata = s.rdata := rfl
@[simp] theorem State.succeed_port : s.succeed.port = s.port := rfl
@[simp] theorem State.succeed_fresh : s.succeed.fresh = s.fresh := rfl

@[simp] theorem State.clearConfig_maxLen : s.clearConfig.maxLen = s.maxLen := rfl
@[simp] theorem State.clearConfig_configured : s.clearConfig.configured = false := rfl
@[simp] theorem State.clearConfig_tvalid : s.clearConfig.tvalid = false := rfl
@[simp] theorem State.clearConfig_sticky : s.clearConfig.sticky = s.sticky := rfl
@[simp] theorem State.clearConfig_err : s.clearConfig.err = s.err := rfl
@[simp] theorem State.clearConfig_inflight : s.clearConfig.inflight = s.inflight := rfl
@[simp] theorem State.clearConfig_argLen : s.clearConfig.argLen = s.argLen := rfl
@[simp] theorem State.clearConfig_argVal : s.clearConfig.argVal = s.argVal := rfl
@[simp] theorem State.clearConfig_n : s.clearConfig.n = s.n := rfl
@[simp] theorem State.clearConfig_slen : s.clearConfig.slen = s.slen := rfl
@[simp] theorem State.clearConfig_tlen : s.clearConfig.tlen = s.tlen := rfl
@[simp] theorem State.clearConfig_bcnt : s.clearConfig.bcnt = s.bcnt := rfl
@[simp] theorem State.clearConfig_olen : s.clearConfig.olen = s.olen := rfl
@[simp] theorem State.clearConfig_stlen : s.clearConfig.stlen = s.stlen := rfl
@[simp] theorem State.clearConfig_bmL : s.clearConfig.bmL = s.bmL := rfl
@[simp] theorem State.clearConfig_bmM : s.clearConfig.bmM = s.bmM := rfl
@[simp] theorem State.clearConfig_gs1 : s.clearConfig.gs1 = s.gs1 := rfl
@[simp] theorem State.clearConfig_gs2 : s.clearConfig.gs2 = s.gs2 := rfl
@[simp] theorem State.clearConfig_gs3 : s.clearConfig.gs3 = s.gs3 := rfl
@[simp] theorem State.clearConfig_mem : s.clearConfig.mem = s.mem := rfl
@[simp] theorem State.clearConfig_rdata : s.clearConfig.rdata = s.rdata := rfl
@[simp] theorem State.clearConfig_port : s.clearConfig.port = s.port := rfl
@[simp] theorem State.clearConfig_fresh : s.clearConfig.fresh = s.fresh := rfl

@[simp] theorem State.writeStatus_maxLen (w : Word) : (s.writeStatus w).maxLen = s.maxLen := rfl
@[simp] theorem State.writeStatus_configured (w : Word) : (s.writeStatus w).configured = s.configured := rfl
@[simp] theorem State.writeStatus_tvalid (w : Word) : (s.writeStatus w).tvalid = s.tvalid := rfl
@[simp] theorem State.writeStatus_sticky (w : Word) : (s.writeStatus w).sticky = (s.sticky && !w.getLsbD 3) := rfl
@[simp] theorem State.writeStatus_err (w : Word) : (s.writeStatus w).err = s.err := rfl
@[simp] theorem State.writeStatus_inflight (w : Word) : (s.writeStatus w).inflight = s.inflight := rfl
@[simp] theorem State.writeStatus_argLen (w : Word) : (s.writeStatus w).argLen = s.argLen := rfl
@[simp] theorem State.writeStatus_argVal (w : Word) : (s.writeStatus w).argVal = s.argVal := rfl
@[simp] theorem State.writeStatus_n (w : Word) : (s.writeStatus w).n = s.n := rfl
@[simp] theorem State.writeStatus_slen (w : Word) : (s.writeStatus w).slen = s.slen := rfl
@[simp] theorem State.writeStatus_tlen (w : Word) : (s.writeStatus w).tlen = s.tlen := rfl
@[simp] theorem State.writeStatus_bcnt (w : Word) : (s.writeStatus w).bcnt = s.bcnt := rfl
@[simp] theorem State.writeStatus_olen (w : Word) : (s.writeStatus w).olen = s.olen := rfl
@[simp] theorem State.writeStatus_stlen (w : Word) : (s.writeStatus w).stlen = s.stlen := rfl
@[simp] theorem State.writeStatus_bmL (w : Word) : (s.writeStatus w).bmL = s.bmL := rfl
@[simp] theorem State.writeStatus_bmM (w : Word) : (s.writeStatus w).bmM = s.bmM := rfl
@[simp] theorem State.writeStatus_gs1 (w : Word) : (s.writeStatus w).gs1 = s.gs1 := rfl
@[simp] theorem State.writeStatus_gs2 (w : Word) : (s.writeStatus w).gs2 = s.gs2 := rfl
@[simp] theorem State.writeStatus_gs3 (w : Word) : (s.writeStatus w).gs3 = s.gs3 := rfl
@[simp] theorem State.writeStatus_mem (w : Word) : (s.writeStatus w).mem = s.mem := rfl
@[simp] theorem State.writeStatus_rdata (w : Word) : (s.writeStatus w).rdata = s.rdata := rfl
@[simp] theorem State.writeStatus_port (w : Word) : (s.writeStatus w).port = s.port := rfl
@[simp] theorem State.writeStatus_fresh (w : Word) : (s.writeStatus w).fresh = s.fresh := rfl

@[simp] theorem State.writeBits_maxLen (b : Buf) (v : Bits) : (s.writeBits b v).maxLen = s.maxLen := rfl
@[simp] theorem State.writeBits_configured (b : Buf) (v : Bits) : (s.writeBits b v).configured = s.configured := rfl
@[simp] theorem State.writeBits_tvalid (b : Buf) (v : Bits) : (s.writeBits b v).tvalid = s.tvalid := rfl
@[simp] theorem State.writeBits_sticky (b : Buf) (v : Bits) : (s.writeBits b v).sticky = s.sticky := rfl
@[simp] theorem State.writeBits_err (b : Buf) (v : Bits) : (s.writeBits b v).err = s.err := rfl
@[simp] theorem State.writeBits_inflight (b : Buf) (v : Bits) : (s.writeBits b v).inflight = s.inflight := rfl
@[simp] theorem State.writeBits_argLen (b : Buf) (v : Bits) : (s.writeBits b v).argLen = s.argLen := rfl
@[simp] theorem State.writeBits_argVal (b : Buf) (v : Bits) : (s.writeBits b v).argVal = s.argVal := rfl
@[simp] theorem State.writeBits_n (b : Buf) (v : Bits) : (s.writeBits b v).n = s.n := rfl
@[simp] theorem State.writeBits_slen (b : Buf) (v : Bits) : (s.writeBits b v).slen = s.slen := rfl
@[simp] theorem State.writeBits_tlen (b : Buf) (v : Bits) : (s.writeBits b v).tlen = s.tlen := rfl
@[simp] theorem State.writeBits_bcnt (b : Buf) (v : Bits) : (s.writeBits b v).bcnt = s.bcnt := rfl
@[simp] theorem State.writeBits_olen (b : Buf) (v : Bits) : (s.writeBits b v).olen = s.olen := rfl
@[simp] theorem State.writeBits_stlen (b : Buf) (v : Bits) : (s.writeBits b v).stlen = s.stlen := rfl
@[simp] theorem State.writeBits_bmL (b : Buf) (v : Bits) : (s.writeBits b v).bmL = s.bmL := rfl
@[simp] theorem State.writeBits_bmM (b : Buf) (v : Bits) : (s.writeBits b v).bmM = s.bmM := rfl
@[simp] theorem State.writeBits_gs1 (b : Buf) (v : Bits) : (s.writeBits b v).gs1 = s.gs1 := rfl
@[simp] theorem State.writeBits_gs2 (b : Buf) (v : Bits) : (s.writeBits b v).gs2 = s.gs2 := rfl
@[simp] theorem State.writeBits_gs3 (b : Buf) (v : Bits) : (s.writeBits b v).gs3 = s.gs3 := rfl
@[simp] theorem State.writeBits_mem (b : Buf) (v : Bits) : (s.writeBits b v).mem = Memory.replace s.mem b.base (4 * b.words s.maxLen) (packedBytes b (v.take (b.capacity s.maxLen))) := rfl
@[simp] theorem State.writeBits_rdata (b : Buf) (v : Bits) : (s.writeBits b v).rdata = s.rdata := rfl
@[simp] theorem State.writeBits_port (b : Buf) (v : Bits) : (s.writeBits b v).port = s.port := rfl
@[simp] theorem State.writeBits_fresh (b : Buf) (v : Bits) : (s.writeBits b v).fresh = s.fresh := rfl

@[simp] theorem State.writeBytes_maxLen (v : List Byte) : (s.writeBytes v).maxLen = s.maxLen := rfl
@[simp] theorem State.writeBytes_configured (v : List Byte) : (s.writeBytes v).configured = s.configured := rfl
@[simp] theorem State.writeBytes_tvalid (v : List Byte) : (s.writeBytes v).tvalid = s.tvalid := rfl
@[simp] theorem State.writeBytes_sticky (v : List Byte) : (s.writeBytes v).sticky = s.sticky := rfl
@[simp] theorem State.writeBytes_err (v : List Byte) : (s.writeBytes v).err = s.err := rfl
@[simp] theorem State.writeBytes_inflight (v : List Byte) : (s.writeBytes v).inflight = s.inflight := rfl
@[simp] theorem State.writeBytes_argLen (v : List Byte) : (s.writeBytes v).argLen = s.argLen := rfl
@[simp] theorem State.writeBytes_argVal (v : List Byte) : (s.writeBytes v).argVal = s.argVal := rfl
@[simp] theorem State.writeBytes_n (v : List Byte) : (s.writeBytes v).n = s.n := rfl
@[simp] theorem State.writeBytes_slen (v : List Byte) : (s.writeBytes v).slen = s.slen := rfl
@[simp] theorem State.writeBytes_tlen (v : List Byte) : (s.writeBytes v).tlen = s.tlen := rfl
@[simp] theorem State.writeBytes_bcnt (v : List Byte) : (s.writeBytes v).bcnt = s.bcnt := rfl
@[simp] theorem State.writeBytes_olen (v : List Byte) : (s.writeBytes v).olen = s.olen := rfl
@[simp] theorem State.writeBytes_stlen (v : List Byte) : (s.writeBytes v).stlen = s.stlen := rfl
@[simp] theorem State.writeBytes_bmL (v : List Byte) : (s.writeBytes v).bmL = s.bmL := rfl
@[simp] theorem State.writeBytes_bmM (v : List Byte) : (s.writeBytes v).bmM = s.bmM := rfl
@[simp] theorem State.writeBytes_gs1 (v : List Byte) : (s.writeBytes v).gs1 = s.gs1 := rfl
@[simp] theorem State.writeBytes_gs2 (v : List Byte) : (s.writeBytes v).gs2 = s.gs2 := rfl
@[simp] theorem State.writeBytes_gs3 (v : List Byte) : (s.writeBytes v).gs3 = s.gs3 := rfl
@[simp] theorem State.writeBytes_mem (v : List Byte) : (s.writeBytes v).mem = Memory.replace s.mem Buf.bytes.base s.maxLen.bits v := rfl
@[simp] theorem State.writeBytes_rdata (v : List Byte) : (s.writeBytes v).rdata = s.rdata := rfl
@[simp] theorem State.writeBytes_port (v : List Byte) : (s.writeBytes v).port = s.port := rfl
@[simp] theorem State.writeBytes_fresh (v : List Byte) : (s.writeBytes v).fresh = s.fresh := rfl

@[simp] theorem State.setSelLen_maxLen (b : BufSel) (k : Nat) : (s.setSelLen b k).maxLen = s.maxLen := by cases b <;> rfl
@[simp] theorem State.setSelLen_configured (b : BufSel) (k : Nat) : (s.setSelLen b k).configured = s.configured := by cases b <;> rfl
@[simp] theorem State.setSelLen_tvalid (b : BufSel) (k : Nat) : (s.setSelLen b k).tvalid = s.tvalid := by cases b <;> rfl
@[simp] theorem State.setSelLen_sticky (b : BufSel) (k : Nat) : (s.setSelLen b k).sticky = s.sticky := by cases b <;> rfl
@[simp] theorem State.setSelLen_err (b : BufSel) (k : Nat) : (s.setSelLen b k).err = s.err := by cases b <;> rfl
@[simp] theorem State.setSelLen_inflight (b : BufSel) (k : Nat) : (s.setSelLen b k).inflight = s.inflight := by cases b <;> rfl
@[simp] theorem State.setSelLen_argLen (b : BufSel) (k : Nat) : (s.setSelLen b k).argLen = s.argLen := by cases b <;> rfl
@[simp] theorem State.setSelLen_argVal (b : BufSel) (k : Nat) : (s.setSelLen b k).argVal = s.argVal := by cases b <;> rfl
@[simp] theorem State.setSelLen_n (b : BufSel) (k : Nat) : (s.setSelLen b k).n = s.n := by cases b <;> rfl
@[simp] theorem State.setSelLen_slen (b : BufSel) (k : Nat) : (s.setSelLen b k).slen = (if b = .seed then BitVec.ofNat 32 k else s.slen) := by cases b <;> rfl
@[simp] theorem State.setSelLen_tlen (b : BufSel) (k : Nat) : (s.setSelLen b k).tlen = (if b = .tgt then BitVec.ofNat 32 k else s.tlen) := by cases b <;> rfl
@[simp] theorem State.setSelLen_bcnt (b : BufSel) (k : Nat) : (s.setSelLen b k).bcnt = s.bcnt := by cases b <;> rfl
@[simp] theorem State.setSelLen_olen (b : BufSel) (k : Nat) : (s.setSelLen b k).olen = (if b = .out then BitVec.ofNat 32 k else s.olen) := by cases b <;> rfl
@[simp] theorem State.setSelLen_stlen (b : BufSel) (k : Nat) : (s.setSelLen b k).stlen = (if b = .stgt then BitVec.ofNat 32 k else s.stlen) := by cases b <;> rfl
@[simp] theorem State.setSelLen_bmL (b : BufSel) (k : Nat) : (s.setSelLen b k).bmL = s.bmL := by cases b <;> rfl
@[simp] theorem State.setSelLen_bmM (b : BufSel) (k : Nat) : (s.setSelLen b k).bmM = s.bmM := by cases b <;> rfl
@[simp] theorem State.setSelLen_gs1 (b : BufSel) (k : Nat) : (s.setSelLen b k).gs1 = s.gs1 := by cases b <;> rfl
@[simp] theorem State.setSelLen_gs2 (b : BufSel) (k : Nat) : (s.setSelLen b k).gs2 = s.gs2 := by cases b <;> rfl
@[simp] theorem State.setSelLen_gs3 (b : BufSel) (k : Nat) : (s.setSelLen b k).gs3 = s.gs3 := by cases b <;> rfl
@[simp] theorem State.setSelLen_mem (b : BufSel) (k : Nat) : (s.setSelLen b k).mem = s.mem := by cases b <;> rfl
@[simp] theorem State.setSelLen_rdata (b : BufSel) (k : Nat) : (s.setSelLen b k).rdata = s.rdata := by cases b <;> rfl
@[simp] theorem State.setSelLen_port (b : BufSel) (k : Nat) : (s.setSelLen b k).port = s.port := by cases b <;> rfl
@[simp] theorem State.setSelLen_fresh (b : BufSel) (k : Nat) : (s.setSelLen b k).fresh = s.fresh := by cases b <;> rfl

@[simp] theorem State.setGeffeSeeds_maxLen (g1 g2 g3 : Word) : (s.setGeffeSeeds g1 g2 g3).maxLen = s.maxLen := rfl
@[simp] theorem State.setGeffeSeeds_configured (g1 g2 g3 : Word) : (s.setGeffeSeeds g1 g2 g3).configured = s.configured := rfl
@[simp] theorem State.setGeffeSeeds_tvalid (g1 g2 g3 : Word) : (s.setGeffeSeeds g1 g2 g3).tvalid = s.tvalid := rfl
@[simp] theorem State.setGeffeSeeds_sticky (g1 g2 g3 : Word) : (s.setGeffeSeeds g1 g2 g3).sticky = s.sticky := rfl
@[simp] theorem State.setGeffeSeeds_err (g1 g2 g3 : Word) : (s.setGeffeSeeds g1 g2 g3).err = s.err := rfl
@[simp] theorem State.setGeffeSeeds_inflight (g1 g2 g3 : Word) : (s.setGeffeSeeds g1 g2 g3).inflight = s.inflight := rfl
@[simp] theorem State.setGeffeSeeds_argLen (g1 g2 g3 : Word) : (s.setGeffeSeeds g1 g2 g3).argLen = s.argLen := rfl
@[simp] theorem State.setGeffeSeeds_argVal (g1 g2 g3 : Word) : (s.setGeffeSeeds g1 g2 g3).argVal = s.argVal := rfl
@[simp] theorem State.setGeffeSeeds_n (g1 g2 g3 : Word) : (s.setGeffeSeeds g1 g2 g3).n = s.n := rfl
@[simp] theorem State.setGeffeSeeds_slen (g1 g2 g3 : Word) : (s.setGeffeSeeds g1 g2 g3).slen = s.slen := rfl
@[simp] theorem State.setGeffeSeeds_tlen (g1 g2 g3 : Word) : (s.setGeffeSeeds g1 g2 g3).tlen = s.tlen := rfl
@[simp] theorem State.setGeffeSeeds_bcnt (g1 g2 g3 : Word) : (s.setGeffeSeeds g1 g2 g3).bcnt = s.bcnt := rfl
@[simp] theorem State.setGeffeSeeds_olen (g1 g2 g3 : Word) : (s.setGeffeSeeds g1 g2 g3).olen = s.olen := rfl
@[simp] theorem State.setGeffeSeeds_stlen (g1 g2 g3 : Word) : (s.setGeffeSeeds g1 g2 g3).stlen = s.stlen := rfl
@[simp] theorem State.setGeffeSeeds_bmL (g1 g2 g3 : Word) : (s.setGeffeSeeds g1 g2 g3).bmL = s.bmL := rfl
@[simp] theorem State.setGeffeSeeds_bmM (g1 g2 g3 : Word) : (s.setGeffeSeeds g1 g2 g3).bmM = s.bmM := rfl
@[simp] theorem State.setGeffeSeeds_gs1 (g1 g2 g3 : Word) : (s.setGeffeSeeds g1 g2 g3).gs1 = g1 := rfl
@[simp] theorem State.setGeffeSeeds_gs2 (g1 g2 g3 : Word) : (s.setGeffeSeeds g1 g2 g3).gs2 = g2 := rfl
@[simp] theorem State.setGeffeSeeds_gs3 (g1 g2 g3 : Word) : (s.setGeffeSeeds g1 g2 g3).gs3 = g3 := rfl
@[simp] theorem State.setGeffeSeeds_mem (g1 g2 g3 : Word) : (s.setGeffeSeeds g1 g2 g3).mem = s.mem := rfl
@[simp] theorem State.setGeffeSeeds_rdata (g1 g2 g3 : Word) : (s.setGeffeSeeds g1 g2 g3).rdata = s.rdata := rfl
@[simp] theorem State.setGeffeSeeds_port (g1 g2 g3 : Word) : (s.setGeffeSeeds g1 g2 g3).port = s.port := rfl
@[simp] theorem State.setGeffeSeeds_fresh (g1 g2 g3 : Word) : (s.setGeffeSeeds g1 g2 g3).fresh = s.fresh := rfl

@[simp] theorem State.commandInFlight_maxLen (w : Word) : (s.commandInFlight w).maxLen = s.maxLen := rfl
@[simp] theorem State.commandInFlight_configured (w : Word) : (s.commandInFlight w).configured = s.configured := rfl
@[simp] theorem State.commandInFlight_tvalid (w : Word) : (s.commandInFlight w).tvalid = s.tvalid := rfl
@[simp] theorem State.commandInFlight_sticky (w : Word) : (s.commandInFlight w).sticky = s.sticky := rfl
@[simp] theorem State.commandInFlight_err (w : Word) : (s.commandInFlight w).err = s.err := rfl
@[simp] theorem State.commandInFlight_inflight (w : Word) : (s.commandInFlight w).inflight = some ⟨w, 0⟩ := rfl
@[simp] theorem State.commandInFlight_argLen (w : Word) : (s.commandInFlight w).argLen = s.argLen := rfl
@[simp] theorem State.commandInFlight_argVal (w : Word) : (s.commandInFlight w).argVal = s.argVal := rfl
@[simp] theorem State.commandInFlight_n (w : Word) : (s.commandInFlight w).n = s.n := rfl
@[simp] theorem State.commandInFlight_slen (w : Word) : (s.commandInFlight w).slen = s.slen := rfl
@[simp] theorem State.commandInFlight_tlen (w : Word) : (s.commandInFlight w).tlen = s.tlen := rfl
@[simp] theorem State.commandInFlight_bcnt (w : Word) : (s.commandInFlight w).bcnt = s.bcnt := rfl
@[simp] theorem State.commandInFlight_olen (w : Word) : (s.commandInFlight w).olen = s.olen := rfl
@[simp] theorem State.commandInFlight_stlen (w : Word) : (s.commandInFlight w).stlen = s.stlen := rfl
@[simp] theorem State.commandInFlight_bmL (w : Word) : (s.commandInFlight w).bmL = s.bmL := rfl
@[simp] theorem State.commandInFlight_bmM (w : Word) : (s.commandInFlight w).bmM = s.bmM := rfl
@[simp] theorem State.commandInFlight_gs1 (w : Word) : (s.commandInFlight w).gs1 = s.gs1 := rfl
@[simp] theorem State.commandInFlight_gs2 (w : Word) : (s.commandInFlight w).gs2 = s.gs2 := rfl
@[simp] theorem State.commandInFlight_gs3 (w : Word) : (s.commandInFlight w).gs3 = s.gs3 := rfl
@[simp] theorem State.commandInFlight_mem (w : Word) : (s.commandInFlight w).mem = s.mem := rfl
@[simp] theorem State.commandInFlight_rdata (w : Word) : (s.commandInFlight w).rdata = s.rdata := rfl
@[simp] theorem State.commandInFlight_port (w : Word) : (s.commandInFlight w).port = s.port := rfl
@[simp] theorem State.commandInFlight_fresh (w : Word) : (s.commandInFlight w).fresh = s.fresh := rfl

@[simp] theorem State.issue_maxLen (w : Word) : (s.issue w).maxLen = s.maxLen := rfl
@[simp] theorem State.issue_configured (w : Word) : (s.issue w).configured = s.configured := rfl
@[simp] theorem State.issue_tvalid (w : Word) : (s.issue w).tvalid = s.tvalid := rfl
@[simp] theorem State.issue_sticky (w : Word) : (s.issue w).sticky = s.sticky := rfl
@[simp] theorem State.issue_err (w : Word) : (s.issue w).err = s.err := rfl
@[simp] theorem State.issue_inflight (w : Word) : (s.issue w).inflight = some ⟨w, Config.busyLeft s.maxLen s.fresh⟩ := rfl
@[simp] theorem State.issue_argLen (w : Word) : (s.issue w).argLen = s.argLen := rfl
@[simp] theorem State.issue_argVal (w : Word) : (s.issue w).argVal = s.argVal := rfl
@[simp] theorem State.issue_n (w : Word) : (s.issue w).n = s.n := rfl
@[simp] theorem State.issue_slen (w : Word) : (s.issue w).slen = s.slen := rfl
@[simp] theorem State.issue_tlen (w : Word) : (s.issue w).tlen = s.tlen := rfl
@[simp] theorem State.issue_bcnt (w : Word) : (s.issue w).bcnt = s.bcnt := rfl
@[simp] theorem State.issue_olen (w : Word) : (s.issue w).olen = s.olen := rfl
@[simp] theorem State.issue_stlen (w : Word) : (s.issue w).stlen = s.stlen := rfl
@[simp] theorem State.issue_bmL (w : Word) : (s.issue w).bmL = s.bmL := rfl
@[simp] theorem State.issue_bmM (w : Word) : (s.issue w).bmM = s.bmM := rfl
@[simp] theorem State.issue_gs1 (w : Word) : (s.issue w).gs1 = s.gs1 := rfl
@[simp] theorem State.issue_gs2 (w : Word) : (s.issue w).gs2 = s.gs2 := rfl
@[simp] theorem State.issue_gs3 (w : Word) : (s.issue w).gs3 = s.gs3 := rfl
@[simp] theorem State.issue_mem (w : Word) : (s.issue w).mem = s.mem := rfl
@[simp] theorem State.issue_rdata (w : Word) : (s.issue w).rdata = s.rdata := rfl
@[simp] theorem State.issue_port (w : Word) : (s.issue w).port = s.port := rfl
@[simp] theorem State.issue_fresh (w : Word) : (s.issue w).fresh = s.fresh + 1 := rfl

@[simp] theorem State.storeWord_maxLen (b : Buf) (k : Nat) (w : Word) : (s.storeWord b k w).maxLen = s.maxLen := rfl
@[simp] theorem State.storeWord_configured (b : Buf) (k : Nat) (w : Word) : (s.storeWord b k w).configured = s.configured := rfl
@[simp] theorem State.storeWord_tvalid (b : Buf) (k : Nat) (w : Word) : (s.storeWord b k w).tvalid = s.tvalid := rfl
@[simp] theorem State.storeWord_sticky (b : Buf) (k : Nat) (w : Word) : (s.storeWord b k w).sticky = s.sticky := rfl
@[simp] theorem State.storeWord_err (b : Buf) (k : Nat) (w : Word) : (s.storeWord b k w).err = s.err := rfl
@[simp] theorem State.storeWord_inflight (b : Buf) (k : Nat) (w : Word) : (s.storeWord b k w).inflight = s.inflight := rfl
@[simp] theorem State.storeWord_argLen (b : Buf) (k : Nat) (w : Word) : (s.storeWord b k w).argLen = s.argLen := rfl
@[simp] theorem State.storeWord_argVal (b : Buf) (k : Nat) (w : Word) : (s.storeWord b k w).argVal = s.argVal := rfl
@[simp] theorem State.storeWord_n (b : Buf) (k : Nat) (w : Word) : (s.storeWord b k w).n = s.n := rfl
@[simp] theorem State.storeWord_slen (b : Buf) (k : Nat) (w : Word) : (s.storeWord b k w).slen = s.slen := rfl
@[simp] theorem State.storeWord_tlen (b : Buf) (k : Nat) (w : Word) : (s.storeWord b k w).tlen = s.tlen := rfl
@[simp] theorem State.storeWord_bcnt (b : Buf) (k : Nat) (w : Word) : (s.storeWord b k w).bcnt = s.bcnt := rfl
@[simp] theorem State.storeWord_olen (b : Buf) (k : Nat) (w : Word) : (s.storeWord b k w).olen = s.olen := rfl
@[simp] theorem State.storeWord_stlen (b : Buf) (k : Nat) (w : Word) : (s.storeWord b k w).stlen = s.stlen := rfl
@[simp] theorem State.storeWord_bmL (b : Buf) (k : Nat) (w : Word) : (s.storeWord b k w).bmL = s.bmL := rfl
@[simp] theorem State.storeWord_bmM (b : Buf) (k : Nat) (w : Word) : (s.storeWord b k w).bmM = s.bmM := rfl
@[simp] theorem State.storeWord_gs1 (b : Buf) (k : Nat) (w : Word) : (s.storeWord b k w).gs1 = s.gs1 := rfl
@[simp] theorem State.storeWord_gs2 (b : Buf) (k : Nat) (w : Word) : (s.storeWord b k w).gs2 = s.gs2 := rfl
@[simp] theorem State.storeWord_gs3 (b : Buf) (k : Nat) (w : Word) : (s.storeWord b k w).gs3 = s.gs3 := rfl
@[simp] theorem State.storeWord_mem (b : Buf) (k : Nat) (w : Word) : (s.storeWord b k w).mem = Memory.writeWord s.mem (b.base + 4 * k) w := rfl
@[simp] theorem State.storeWord_rdata (b : Buf) (k : Nat) (w : Word) : (s.storeWord b k w).rdata = s.rdata := rfl
@[simp] theorem State.storeWord_port (b : Buf) (k : Nat) (w : Word) : (s.storeWord b k w).port = s.port := rfl
@[simp] theorem State.storeWord_fresh (b : Buf) (k : Nat) (w : Word) : (s.storeWord b k w).fresh = s.fresh := rfl

@[simp] theorem State.answerRead_maxLen (x : Nat) : (s.answerRead x).maxLen = s.maxLen := rfl
@[simp] theorem State.answerRead_configured (x : Nat) : (s.answerRead x).configured = s.configured := rfl
@[simp] theorem State.answerRead_tvalid (x : Nat) : (s.answerRead x).tvalid = s.tvalid := rfl
@[simp] theorem State.answerRead_sticky (x : Nat) : (s.answerRead x).sticky = s.sticky := rfl
@[simp] theorem State.answerRead_err (x : Nat) : (s.answerRead x).err = s.err := rfl
@[simp] theorem State.answerRead_inflight (x : Nat) : (s.answerRead x).inflight = s.inflight := rfl
@[simp] theorem State.answerRead_argLen (x : Nat) : (s.answerRead x).argLen = s.argLen := rfl
@[simp] theorem State.answerRead_argVal (x : Nat) : (s.answerRead x).argVal = s.argVal := rfl
@[simp] theorem State.answerRead_n (x : Nat) : (s.answerRead x).n = s.n := rfl
@[simp] theorem State.answerRead_slen (x : Nat) : (s.answerRead x).slen = s.slen := rfl
@[simp] theorem State.answerRead_tlen (x : Nat) : (s.answerRead x).tlen = s.tlen := rfl
@[simp] theorem State.answerRead_bcnt (x : Nat) : (s.answerRead x).bcnt = s.bcnt := rfl
@[simp] theorem State.answerRead_olen (x : Nat) : (s.answerRead x).olen = s.olen := rfl
@[simp] theorem State.answerRead_stlen (x : Nat) : (s.answerRead x).stlen = s.stlen := rfl
@[simp] theorem State.answerRead_bmL (x : Nat) : (s.answerRead x).bmL = s.bmL := rfl
@[simp] theorem State.answerRead_bmM (x : Nat) : (s.answerRead x).bmM = s.bmM := rfl
@[simp] theorem State.answerRead_gs1 (x : Nat) : (s.answerRead x).gs1 = s.gs1 := rfl
@[simp] theorem State.answerRead_gs2 (x : Nat) : (s.answerRead x).gs2 = s.gs2 := rfl
@[simp] theorem State.answerRead_gs3 (x : Nat) : (s.answerRead x).gs3 = s.gs3 := rfl
@[simp] theorem State.answerRead_mem (x : Nat) : (s.answerRead x).mem = s.mem := rfl
@[simp] theorem State.answerRead_rdata (x : Nat) : (s.answerRead x).rdata = some (s.busRead x) := rfl
@[simp] theorem State.answerRead_port (x : Nat) : (s.answerRead x).port = s.port := rfl
@[simp] theorem State.answerRead_fresh (x : Nat) : (s.answerRead x).fresh = s.fresh := rfl

@[simp] theorem State.busyClock_maxLen (f : InFlight) : (s.busyClock f).maxLen = s.maxLen := rfl
@[simp] theorem State.busyClock_configured (f : InFlight) : (s.busyClock f).configured = s.configured := rfl
@[simp] theorem State.busyClock_tvalid (f : InFlight) : (s.busyClock f).tvalid = s.tvalid := rfl
@[simp] theorem State.busyClock_sticky (f : InFlight) : (s.busyClock f).sticky = s.sticky := rfl
@[simp] theorem State.busyClock_err (f : InFlight) : (s.busyClock f).err = s.err := rfl
@[simp] theorem State.busyClock_inflight (f : InFlight) : (s.busyClock f).inflight = some { f with busyLeft := f.busyLeft - 1 } := rfl
@[simp] theorem State.busyClock_argLen (f : InFlight) : (s.busyClock f).argLen = s.argLen := rfl
@[simp] theorem State.busyClock_argVal (f : InFlight) : (s.busyClock f).argVal = s.argVal := rfl
@[simp] theorem State.busyClock_n (f : InFlight) : (s.busyClock f).n = s.n := rfl
@[simp] theorem State.busyClock_slen (f : InFlight) : (s.busyClock f).slen = s.slen := rfl
@[simp] theorem State.busyClock_tlen (f : InFlight) : (s.busyClock f).tlen = s.tlen := rfl
@[simp] theorem State.busyClock_bcnt (f : InFlight) : (s.busyClock f).bcnt = s.bcnt := rfl
@[simp] theorem State.busyClock_olen (f : InFlight) : (s.busyClock f).olen = s.olen := rfl
@[simp] theorem State.busyClock_stlen (f : InFlight) : (s.busyClock f).stlen = s.stlen := rfl
@[simp] theorem State.busyClock_bmL (f : InFlight) : (s.busyClock f).bmL = s.bmL := rfl
@[simp] theorem State.busyClock_bmM (f : InFlight) : (s.busyClock f).bmM = s.bmM := rfl
@[simp] theorem State.busyClock_gs1 (f : InFlight) : (s.busyClock f).gs1 = s.gs1 := rfl
@[simp] theorem State.busyClock_gs2 (f : InFlight) : (s.busyClock f).gs2 = s.gs2 := rfl
@[simp] theorem State.busyClock_gs3 (f : InFlight) : (s.busyClock f).gs3 = s.gs3 := rfl
@[simp] theorem State.busyClock_mem (f : InFlight) : (s.busyClock f).mem = s.mem := rfl
@[simp] theorem State.busyClock_rdata (f : InFlight) : (s.busyClock f).rdata = s.rdata := rfl
@[simp] theorem State.busyClock_port (f : InFlight) : (s.busyClock f).port = s.port := rfl
@[simp] theorem State.busyClock_fresh (f : InFlight) : (s.busyClock f).fresh = s.fresh := rfl

@[simp] theorem State.resetCycle_maxLen : s.resetCycle.maxLen = s.maxLen := rfl
@[simp] theorem State.resetCycle_configured : s.resetCycle.configured = false := rfl
@[simp] theorem State.resetCycle_tvalid : s.resetCycle.tvalid = false := rfl
@[simp] theorem State.resetCycle_sticky : s.resetCycle.sticky = false := rfl
@[simp] theorem State.resetCycle_err : s.resetCycle.err = .success := rfl
@[simp] theorem State.resetCycle_inflight : s.resetCycle.inflight = none := rfl
@[simp] theorem State.resetCycle_argLen : s.resetCycle.argLen = 0 := rfl
@[simp] theorem State.resetCycle_argVal : s.resetCycle.argVal = 0 := rfl
@[simp] theorem State.resetCycle_n : s.resetCycle.n = 0 := rfl
@[simp] theorem State.resetCycle_slen : s.resetCycle.slen = 0 := rfl
@[simp] theorem State.resetCycle_tlen : s.resetCycle.tlen = 0 := rfl
@[simp] theorem State.resetCycle_bcnt : s.resetCycle.bcnt = 0 := rfl
@[simp] theorem State.resetCycle_olen : s.resetCycle.olen = 0 := rfl
@[simp] theorem State.resetCycle_stlen : s.resetCycle.stlen = 0 := rfl
@[simp] theorem State.resetCycle_bmL : s.resetCycle.bmL = 0 := rfl
@[simp] theorem State.resetCycle_bmM : s.resetCycle.bmM = 0 := rfl
@[simp] theorem State.resetCycle_gs1 : s.resetCycle.gs1 = 0 := rfl
@[simp] theorem State.resetCycle_gs2 : s.resetCycle.gs2 = 0 := rfl
@[simp] theorem State.resetCycle_gs3 : s.resetCycle.gs3 = 0 := rfl
@[simp] theorem State.resetCycle_mem : s.resetCycle.mem = [] := rfl
@[simp] theorem State.resetCycle_rdata : s.resetCycle.rdata = none := rfl
@[simp] theorem State.resetCycle_port : s.resetCycle.port = s.port := rfl
@[simp] theorem State.resetCycle_fresh : s.resetCycle.fresh = s.fresh := rfl

@[simp] theorem State.storeBits_maxLen (b : BufSel) (v : Bits) : (s.storeBits b v).maxLen = s.maxLen := by cases b <;> rfl
@[simp] theorem State.storeBits_configured (b : BufSel) (v : Bits) : (s.storeBits b v).configured = s.configured := by cases b <;> rfl
@[simp] theorem State.storeBits_tvalid (b : BufSel) (v : Bits) : (s.storeBits b v).tvalid = s.tvalid := by cases b <;> rfl
@[simp] theorem State.storeBits_sticky (b : BufSel) (v : Bits) : (s.storeBits b v).sticky = s.sticky := by cases b <;> rfl
@[simp] theorem State.storeBits_err (b : BufSel) (v : Bits) : (s.storeBits b v).err = s.err := by cases b <;> rfl
@[simp] theorem State.storeBits_inflight (b : BufSel) (v : Bits) : (s.storeBits b v).inflight = s.inflight := by cases b <;> rfl
@[simp] theorem State.storeBits_argLen (b : BufSel) (v : Bits) : (s.storeBits b v).argLen = s.argLen := by cases b <;> rfl
@[simp] theorem State.storeBits_argVal (b : BufSel) (v : Bits) : (s.storeBits b v).argVal = s.argVal := by cases b <;> rfl
@[simp] theorem State.storeBits_n (b : BufSel) (v : Bits) : (s.storeBits b v).n = s.n := by cases b <;> rfl
@[simp] theorem State.storeBits_slen (b : BufSel) (v : Bits) : (s.storeBits b v).slen = (if b = .seed then BitVec.ofNat 32 v.length else s.slen) := by cases b <;> rfl
@[simp] theorem State.storeBits_tlen (b : BufSel) (v : Bits) : (s.storeBits b v).tlen = (if b = .tgt then BitVec.ofNat 32 v.length else s.tlen) := by cases b <;> rfl
@[simp] theorem State.storeBits_bcnt (b : BufSel) (v : Bits) : (s.storeBits b v).bcnt = s.bcnt := by cases b <;> rfl
@[simp] theorem State.storeBits_olen (b : BufSel) (v : Bits) : (s.storeBits b v).olen = (if b = .out then BitVec.ofNat 32 v.length else s.olen) := by cases b <;> rfl
@[simp] theorem State.storeBits_stlen (b : BufSel) (v : Bits) : (s.storeBits b v).stlen = (if b = .stgt then BitVec.ofNat 32 v.length else s.stlen) := by cases b <;> rfl
@[simp] theorem State.storeBits_bmL (b : BufSel) (v : Bits) : (s.storeBits b v).bmL = s.bmL := by cases b <;> rfl
@[simp] theorem State.storeBits_bmM (b : BufSel) (v : Bits) : (s.storeBits b v).bmM = s.bmM := by cases b <;> rfl
@[simp] theorem State.storeBits_gs1 (b : BufSel) (v : Bits) : (s.storeBits b v).gs1 = s.gs1 := by cases b <;> rfl
@[simp] theorem State.storeBits_gs2 (b : BufSel) (v : Bits) : (s.storeBits b v).gs2 = s.gs2 := by cases b <;> rfl
@[simp] theorem State.storeBits_gs3 (b : BufSel) (v : Bits) : (s.storeBits b v).gs3 = s.gs3 := by cases b <;> rfl
@[simp] theorem State.storeBits_rdata (b : BufSel) (v : Bits) : (s.storeBits b v).rdata = s.rdata := by cases b <;> rfl
@[simp] theorem State.storeBits_port (b : BufSel) (v : Bits) : (s.storeBits b v).port = s.port := by cases b <;> rfl
@[simp] theorem State.storeBits_fresh (b : BufSel) (v : Bits) : (s.storeBits b v).fresh = s.fresh := by cases b <;> rfl

@[simp] theorem State.storeBytes_maxLen (v : List Byte) : (s.storeBytes v).maxLen = s.maxLen := rfl
@[simp] theorem State.storeBytes_configured (v : List Byte) : (s.storeBytes v).configured = s.configured := rfl
@[simp] theorem State.storeBytes_tvalid (v : List Byte) : (s.storeBytes v).tvalid = s.tvalid := rfl
@[simp] theorem State.storeBytes_sticky (v : List Byte) : (s.storeBytes v).sticky = s.sticky := rfl
@[simp] theorem State.storeBytes_err (v : List Byte) : (s.storeBytes v).err = s.err := rfl
@[simp] theorem State.storeBytes_inflight (v : List Byte) : (s.storeBytes v).inflight = s.inflight := rfl
@[simp] theorem State.storeBytes_argLen (v : List Byte) : (s.storeBytes v).argLen = s.argLen := rfl
@[simp] theorem State.storeBytes_argVal (v : List Byte) : (s.storeBytes v).argVal = s.argVal := rfl
@[simp] theorem State.storeBytes_n (v : List Byte) : (s.storeBytes v).n = s.n := rfl
@[simp] theorem State.storeBytes_slen (v : List Byte) : (s.storeBytes v).slen = s.slen := rfl
@[simp] theorem State.storeBytes_tlen (v : List Byte) : (s.storeBytes v).tlen = s.tlen := rfl
@[simp] theorem State.storeBytes_bcnt (v : List Byte) : (s.storeBytes v).bcnt = BitVec.ofNat 32 v.length := rfl
@[simp] theorem State.storeBytes_olen (v : List Byte) : (s.storeBytes v).olen = s.olen := rfl
@[simp] theorem State.storeBytes_stlen (v : List Byte) : (s.storeBytes v).stlen = s.stlen := rfl
@[simp] theorem State.storeBytes_bmL (v : List Byte) : (s.storeBytes v).bmL = s.bmL := rfl
@[simp] theorem State.storeBytes_bmM (v : List Byte) : (s.storeBytes v).bmM = s.bmM := rfl
@[simp] theorem State.storeBytes_gs1 (v : List Byte) : (s.storeBytes v).gs1 = s.gs1 := rfl
@[simp] theorem State.storeBytes_gs2 (v : List Byte) : (s.storeBytes v).gs2 = s.gs2 := rfl
@[simp] theorem State.storeBytes_gs3 (v : List Byte) : (s.storeBytes v).gs3 = s.gs3 := rfl
@[simp] theorem State.storeBytes_rdata (v : List Byte) : (s.storeBytes v).rdata = s.rdata := rfl
@[simp] theorem State.storeBytes_port (v : List Byte) : (s.storeBytes v).port = s.port := rfl
@[simp] theorem State.storeBytes_fresh (v : List Byte) : (s.storeBytes v).fresh = s.fresh := rfl

@[simp] theorem State.seedChanged_maxLen (b : BufSel) : (s.seedChanged b).maxLen = s.maxLen := by cases b <;> rfl
@[simp] theorem State.seedChanged_configured (b : BufSel) : (s.seedChanged b).configured = (if b = .seed then false else s.configured) := by cases b <;> rfl
@[simp] theorem State.seedChanged_tvalid (b : BufSel) : (s.seedChanged b).tvalid = (if b = .seed then false else s.tvalid) := by cases b <;> rfl
@[simp] theorem State.seedChanged_sticky (b : BufSel) : (s.seedChanged b).sticky = s.sticky := by cases b <;> rfl
@[simp] theorem State.seedChanged_err (b : BufSel) : (s.seedChanged b).err = s.err := by cases b <;> rfl
@[simp] theorem State.seedChanged_inflight (b : BufSel) : (s.seedChanged b).inflight = s.inflight := by cases b <;> rfl
@[simp] theorem State.seedChanged_argLen (b : BufSel) : (s.seedChanged b).argLen = s.argLen := by cases b <;> rfl
@[simp] theorem State.seedChanged_argVal (b : BufSel) : (s.seedChanged b).argVal = s.argVal := by cases b <;> rfl
@[simp] theorem State.seedChanged_n (b : BufSel) : (s.seedChanged b).n = s.n := by cases b <;> rfl
@[simp] theorem State.seedChanged_slen (b : BufSel) : (s.seedChanged b).slen = s.slen := by cases b <;> rfl
@[simp] theorem State.seedChanged_tlen (b : BufSel) : (s.seedChanged b).tlen = s.tlen := by cases b <;> rfl
@[simp] theorem State.seedChanged_bcnt (b : BufSel) : (s.seedChanged b).bcnt = s.bcnt := by cases b <;> rfl
@[simp] theorem State.seedChanged_olen (b : BufSel) : (s.seedChanged b).olen = s.olen := by cases b <;> rfl
@[simp] theorem State.seedChanged_stlen (b : BufSel) : (s.seedChanged b).stlen = s.stlen := by cases b <;> rfl
@[simp] theorem State.seedChanged_bmL (b : BufSel) : (s.seedChanged b).bmL = s.bmL := by cases b <;> rfl
@[simp] theorem State.seedChanged_bmM (b : BufSel) : (s.seedChanged b).bmM = s.bmM := by cases b <;> rfl
@[simp] theorem State.seedChanged_gs1 (b : BufSel) : (s.seedChanged b).gs1 = s.gs1 := by cases b <;> rfl
@[simp] theorem State.seedChanged_gs2 (b : BufSel) : (s.seedChanged b).gs2 = s.gs2 := by cases b <;> rfl
@[simp] theorem State.seedChanged_gs3 (b : BufSel) : (s.seedChanged b).gs3 = s.gs3 := by cases b <;> rfl
@[simp] theorem State.seedChanged_rdata (b : BufSel) : (s.seedChanged b).rdata = s.rdata := by cases b <;> rfl
@[simp] theorem State.seedChanged_port (b : BufSel) : (s.seedChanged b).port = s.port := by cases b <;> rfl
@[simp] theorem State.seedChanged_fresh (b : BufSel) : (s.seedChanged b).fresh = s.fresh := by cases b <;> rfl
@[simp] theorem State.seedChanged_mem (b : BufSel) : (s.seedChanged b).mem = s.mem := by cases b <;> rfl

@[simp] theorem State.commitReconstruction_maxLen (v : Bits) (st : BmState) : (s.commitReconstruction v st).maxLen = s.maxLen := by simp [State.commitReconstruction]
@[simp] theorem State.commitReconstruction_configured (v : Bits) (st : BmState) : (s.commitReconstruction v st).configured = true := by simp [State.commitReconstruction]
@[simp] theorem State.commitReconstruction_tvalid (v : Bits) (st : BmState) : (s.commitReconstruction v st).tvalid = true := by simp [State.commitReconstruction]
@[simp] theorem State.commitReconstruction_sticky (v : Bits) (st : BmState) : (s.commitReconstruction v st).sticky = s.sticky := by simp [State.commitReconstruction]
@[simp] theorem State.commitReconstruction_err (v : Bits) (st : BmState) : (s.commitReconstruction v st).err = s.err := by simp [State.commitReconstruction]
@[simp] theorem State.commitReconstruction_inflight (v : Bits) (st : BmState) : (s.commitReconstruction v st).inflight = s.inflight := by simp [State.commitReconstruction]
@[simp] theorem State.commitReconstruction_argLen (v : Bits) (st : BmState) : (s.commitReconstruction v st).argLen = s.argLen := by simp [State.commitReconstruction]
@[simp] theorem State.commitReconstruction_argVal (v : Bits) (st : BmState) : (s.commitReconstruction v st).argVal = s.argVal := by simp [State.commitReconstruction]
@[simp] theorem State.commitReconstruction_n (v : Bits) (st : BmState) : (s.commitReconstruction v st).n = BitVec.ofNat 32 st.l := by simp [State.commitReconstruction]
@[simp] theorem State.commitReconstruction_slen (v : Bits) (st : BmState) : (s.commitReconstruction v st).slen = BitVec.ofNat 32 st.l := by simp [State.commitReconstruction]
@[simp] theorem State.commitReconstruction_tlen (v : Bits) (st : BmState) : (s.commitReconstruction v st).tlen = s.tlen := by simp [State.commitReconstruction]
@[simp] theorem State.commitReconstruction_bcnt (v : Bits) (st : BmState) : (s.commitReconstruction v st).bcnt = s.bcnt := by simp [State.commitReconstruction]
@[simp] theorem State.commitReconstruction_olen (v : Bits) (st : BmState) : (s.commitReconstruction v st).olen = s.olen := by simp [State.commitReconstruction]
@[simp] theorem State.commitReconstruction_stlen (v : Bits) (st : BmState) : (s.commitReconstruction v st).stlen = BitVec.ofNat 32 v.length := by simp [State.commitReconstruction]
@[simp] theorem State.commitReconstruction_bmL (v : Bits) (st : BmState) : (s.commitReconstruction v st).bmL = BitVec.ofNat 32 st.l := by simp [State.commitReconstruction]
@[simp] theorem State.commitReconstruction_bmM (v : Bits) (st : BmState) : (s.commitReconstruction v st).bmM = BitVec.ofInt 32 st.m := by simp [State.commitReconstruction]
@[simp] theorem State.commitReconstruction_gs1 (v : Bits) (st : BmState) : (s.commitReconstruction v st).gs1 = s.gs1 := by simp [State.commitReconstruction]
@[simp] theorem State.commitReconstruction_gs2 (v : Bits) (st : BmState) : (s.commitReconstruction v st).gs2 = s.gs2 := by simp [State.commitReconstruction]
@[simp] theorem State.commitReconstruction_gs3 (v : Bits) (st : BmState) : (s.commitReconstruction v st).gs3 = s.gs3 := by simp [State.commitReconstruction]
@[simp] theorem State.commitReconstruction_rdata (v : Bits) (st : BmState) : (s.commitReconstruction v st).rdata = s.rdata := by simp [State.commitReconstruction]
@[simp] theorem State.commitReconstruction_port (v : Bits) (st : BmState) : (s.commitReconstruction v st).port = s.port := by simp [State.commitReconstruction]
@[simp] theorem State.commitReconstruction_fresh (v : Bits) (st : BmState) : (s.commitReconstruction v st).fresh = s.fresh := by simp [State.commitReconstruction]

end Sys2Proof.Machine
end

