-- ==== Sys2Proof/Laws/Buffers.lean ====
section
/-!
SUPPORT. The laws of the buffers: the bits and bytes of a buffer after a zero-filled write of it, of another buffer,
or of one word (00_scope.md R11, 20_memory.md R64 to R67).
-/

namespace Sys2Proof.Machine

theorem Buf.wordBit_lt (b : Buf) (i : Nat) : b.wordBit i < 32 := by
  cases b <;> simp only [Buf.wordBit] <;> omega

/-- Within a word, the place of bit `i` is its own inverse. -/
theorem Buf.wordBit_wordBit (b : Buf) (i : Nat) : b.wordBit (b.wordBit i) = i % 32 := by
  cases b <;> simp only [Buf.wordBit] <;> omega

theorem Buf.wordBit_mod (b : Buf) (i : Nat) : b.wordBit (i % 32) = b.wordBit i := by
  cases b <;> simp only [Buf.wordBit] <;> omega

/-- Bit `wordBit i` of the packed word `i / 32` is bit `i` of the vector. -/
theorem getLsbD_packedWord (b : Buf) (v : Bits) (i : Nat) :
    (packedWord b v (i / 32)).getLsbD (b.wordBit i) = v.getD i false := by
  rw [packedWord, BitVec.getLsbD_ofFnLE, dif_pos (Buf.wordBit_lt b i)]
  simp only [Buf.wordBit_wordBit]
  congr 1
  omega

theorem length_flatMap_words (f : Nat → Word) (n : Nat) :
    ((List.range n).flatMap fun k => bytesOfWord (f k)).length = 4 * n := by
  induction n with
  | zero => rfl
  | succ n ih => rw [List.range_succ, List.flatMap_append, List.length_append, ih]; simp; omega

theorem getD_flatMap_words (f : Nat → Word) (n i : Nat) (h : i < 4 * n) :
    ((List.range n).flatMap fun k => bytesOfWord (f k)).getD i 0 = (bytesOfWord (f (i / 4))).getD (i % 4) 0 := by
  induction n with
  | zero => omega
  | succ n ih =>
    rw [List.range_succ, List.flatMap_append]
    simp only [List.getD_eq_getElem?_getD, List.flatMap_cons, List.flatMap_nil, List.append_nil] at ih ⊢
    by_cases hi : i < 4 * n
    · rw [List.getElem?_append_left (by rw [length_flatMap_words]; exact hi), ih hi]
    · rw [List.getElem?_append_right (by rw [length_flatMap_words]; omega), length_flatMap_words]
      have h1 : i / 4 = n := by omega
      have h2 : i - 4 * n = i % 4 := by omega
      rw [h1, h2]

theorem packedWord_zero (b : Buf) (v : Bits) (k : Nat) (h : v.length ≤ 32 * k) : packedWord b v k = 0 := by
  apply BitVec.eq_of_getLsbD_eq
  intro j hj
  rw [packedWord, BitVec.getLsbD_ofFnLE, dif_pos hj]
  simp only [List.getD_eq_getElem?_getD]
  rw [List.getElem?_eq_none (by omega)]
  simp

/-- The window bytes of a packed vector, as the bytes of its words. -/
theorem getD_packedBytes (b : Buf) (v : Bits) (i : Nat) :
    (packedBytes b v).getD i 0 = (bytesOfWord (packedWord b v (i / 4))).getD (i % 4) 0 := by
  by_cases h : i < 4 * ((v.length + 31) / 32)
  · exact getD_flatMap_words _ _ _ h
  · rw [packedWord_zero b v _ (by omega)]
    rw [List.getD_eq_getElem?_getD, List.getElem?_eq_none]
    · have : i % 4 < 4 := by omega
      generalize i % 4 = j at this
      have hj : j = 0 ∨ j = 1 ∨ j = 2 ∨ j = 3 := by omega
      rcases hj with rfl | rfl | rfl | rfl <;> rfl
    · rw [packedBytes, length_flatMap_words]; omega

variable (s : State)

/-- A buffer's word after a zero-filled write of the buffer. -/
theorem State.bufWord_writeBits_self (b : Buf) (v : Bits) (k : Nat) (h : k < b.words s.maxLen) :
    (s.writeBits b v).bufWord b k = packedWord b (v.take (b.capacity s.maxLen)) k := by
  apply Memory.readWord_of_bytes
  intro i hi
  rw [State.writeBits_mem, Memory.read_replace, if_pos ⟨by omega, by omega⟩, getD_packedBytes]
  have h1 : (b.base + 4 * k + i - b.base) / 4 = k := by omega
  have h2 : (b.base + 4 * k + i - b.base) % 4 = i := by omega
  rw [h1, h2]

/-- Another buffer's mapped words are as before. -/
theorem State.bufWord_writeBits_other {b b' : Buf} (hne : b ≠ b') (v : Bits) (k : Nat)
    (h : k < b'.words s.maxLen) : (s.writeBits b v).bufWord b' k = s.bufWord b' k := by
  have := Buf.base_apart hne
  have := Buf.words_le s.maxLen b
  have := Buf.words_le s.maxLen b'
  exact Memory.readWord_replace_apart _ _ _ _ _ (by omega)

/-- A bit of a buffer lies in a mapped word when it lies in the capacity. -/
theorem Buf.word_lt_of_lt_capacity {m : MaxLen} {b : Buf} {i : Nat} (h : i < b.capacity m) :
    i / 32 < b.words m := by
  have := m.bits_mod
  cases b <;> simp only [Buf.capacity, Buf.words] at * <;> omega

/-- `WriteBits(buf, v)` (00_scope.md R11): within the capacity, bit `i` is `v[i]`, and 0 from `len(v)` on. -/
theorem State.bufBit_writeBits_self (b : Buf) (v : Bits) (i : Nat) (h : i < b.capacity s.maxLen) :
    (s.writeBits b v).bufBit b i = v.getD i false := by
  rw [State.bufBit, State.bufWord_writeBits_self _ _ _ _ (Buf.word_lt_of_lt_capacity h), getLsbD_packedWord]
  simp only [List.getD_eq_getElem?_getD]
  rw [List.getElem?_take, if_pos h]

theorem State.bufBit_writeBits_other {b b' : Buf} (hne : b ≠ b') (v : Bits) (i : Nat)
    (h : i / 32 < b'.words s.maxLen) : (s.writeBits b v).bufBit b' i = s.bufBit b' i := by
  rw [State.bufBit, State.bufWord_writeBits_other _ hne _ _ h, State.bufBit]

/-- The words of every window but BYTES are as before after a write of BYTES. -/
theorem State.bufWord_writeBytes_other {b : Buf} (hne : b ≠ .bytes) (v : List Byte) (k : Nat)
    (h : k < b.words s.maxLen) : (s.writeBytes v).bufWord b k = s.bufWord b k := by
  have := Buf.base_apart hne
  have := s.maxLen.bits_bounds
  have := Buf.words_le s.maxLen b
  exact Memory.readWord_replace_apart _ _ _ _ _ (by omega)

theorem State.bufBit_writeBytes_other {b : Buf} (hne : b ≠ .bytes) (v : List Byte) (i : Nat)
    (h : i / 32 < b.words s.maxLen) : (s.writeBytes v).bufBit b i = s.bufBit b i := by
  rw [State.bufBit, State.bufWord_writeBytes_other _ hne _ _ h, State.bufBit]

/-- Byte `j` of BYTES is the byte at `j` of its window (20_memory.md R64). -/
theorem State.byteAt_eq_read (j : Nat) : s.byteAt j = Memory.read s.mem (Buf.bytes.base + j) := by
  apply BitVec.eq_of_getLsbD_eq
  intro i hi
  rw [State.byteAt, BitVec.getLsbD_extractLsb', State.bufWord, Memory.getLsbD_readWord _ _ _ (by omega)]
  have h1 : Buf.bytes.base + 4 * (j / 4) + (3 - (24 - 8 * (j % 4) + i) / 8) = Buf.bytes.base + j := by omega
  have h2 : (24 - 8 * (j % 4) + i) % 8 = i := by omega
  rw [h1, h2, decide_eq_true hi, Bool.true_and]

/-- `WriteBytes(v)` (00_scope.md R11): within the capacity, byte `j` is `v[j]`, and 0 from `len(v)` on. -/
theorem State.byteAt_writeBytes (v : List Byte) (j : Nat) (h : j < s.maxLen.bits) :
    (s.writeBytes v).byteAt j = v.getD j 0 := by
  rw [State.byteAt_eq_read, State.writeBytes_mem, Memory.read_replace, if_pos ⟨by omega, by omega⟩,
    Nat.add_sub_cancel_left]

theorem State.byteAt_writeBits {b : Buf} (hne : b ≠ .bytes) (v : Bits) (j : Nat) (h : j < s.maxLen.bits) :
    (s.writeBits b v).byteAt j = s.byteAt j := by
  have hw : j / 4 < Buf.bytes.words s.maxLen := by
    have := s.maxLen.bits_mod
    simp only [Buf.words]; omega
  rw [State.byteAt, State.bufWord_writeBits_other _ hne _ _ hw, State.byteAt]

@[simp] theorem State.length_bits (b : Buf) (len : Nat) : (s.bits b len).length = len := by simp [State.bits]

@[simp] theorem State.length_bytes (c : Nat) : (s.bytes c).length = c := by simp [State.bytes]

theorem State.getD_bits (b : Buf) (len i : Nat) (h : i < len) : (s.bits b len).getD i false = s.bufBit b i := by
  simp [State.bits, h]

theorem State.getD_bytes (c j : Nat) (h : j < c) : (s.bytes c).getD j 0 = s.byteAt j := by
  simp [State.bytes, h]

/-- Two vectors of one length with equal bits are equal. -/
theorem ext_getD {α : Type} {d : α} {v w : List α} (hl : v.length = w.length)
    (h : ∀ i, i < v.length → v.getD i d = w.getD i d) : v = w := by
  apply List.ext_getElem hl
  intro i h1 h2
  have := h i h1
  simpa [List.getD_eq_getElem?_getD, h1, h2] using this

/-- A buffer holds what was written into it. -/
theorem State.bits_writeBits_self (b : Buf) (v : Bits) (h : v.length ≤ b.capacity s.maxLen) :
    (s.writeBits b v).bits b v.length = v := by
  apply ext_getD (d := false) (by simp)
  intro i hi
  simp only [State.length_bits] at hi
  rw [State.getD_bits _ _ _ _ hi, State.bufBit_writeBits_self _ _ _ _ (by omega)]

theorem State.bits_congr {s t : State} {b : Buf} {len : Nat} (h : ∀ i, i < len → t.bufBit b i = s.bufBit b i) :
    t.bits b len = s.bits b len := by
  unfold State.bits
  exact List.map_congr_left fun i hi => h i (List.mem_range.1 hi)

theorem State.bytes_congr {s t : State} {c : Nat} (h : ∀ j, j < c → t.byteAt j = s.byteAt j) :
    t.bytes c = s.bytes c := by
  unfold State.bytes
  exact List.map_congr_left fun j hj => h j (List.mem_range.1 hj)

/-- BYTES holds what was written into it. -/
theorem State.bytes_writeBytes (v : List Byte) (h : v.length ≤ s.maxLen.bits) :
    (s.writeBytes v).bytes v.length = v := by
  apply ext_getD (d := 0) (by simp)
  intro j hj
  simp only [State.length_bytes] at hj
  rw [State.getD_bytes _ _ _ hj, State.byteAt_writeBytes _ _ _ (by omega)]

/-- The views depend on the memory alone. -/
theorem State.bufBit_mem {s t : State} (h : t.mem = s.mem) (b : Buf) (i : Nat) : t.bufBit b i = s.bufBit b i := by
  simp only [State.bufBit, State.bufWord, h]

theorem State.byteAt_mem {s t : State} (h : t.mem = s.mem) (j : Nat) : t.byteAt j = s.byteAt j := by
  simp only [State.byteAt, State.bufWord, h]

theorem State.bits_mem {s t : State} (h : t.mem = s.mem) (b : Buf) (len : Nat) : t.bits b len = s.bits b len :=
  State.bits_congr fun i _ => State.bufBit_mem h b i

/-- A host's word store: the word itself, and every other word of every window as before. -/
theorem State.bufWord_storeWord (b b' : Buf) (k k' : Nat) (w : Word) (h : k < b.words s.maxLen)
    (h' : k' < b'.words s.maxLen) :
    (s.storeWord b k w).bufWord b' k' = if b = b' ∧ k = k' then w else s.bufWord b' k' := by
  split
  · rename_i he
    obtain ⟨rfl, rfl⟩ := he
    exact Memory.readWord_writeWord _ _ _
  · rename_i he
    refine Memory.readWord_replace_apart _ _ _ _ _ ?_
    by_cases hb : b = b'
    · subst hb
      simp only [true_and] at he
      omega
    · have := Buf.base_apart hb
      have := Buf.words_le s.maxLen b
      have := Buf.words_le s.maxLen b'
      omega

end Sys2Proof.Machine
end

