-- ==== Sys2Proof/Laws/Codec.lean ====
section
/-!
SUPPORT. The laws of the codec's pure functions: lengths and elements of `unpack`, `hexBytes` and `strBytes`
(40_codec.md R100, R103, R104).
-/

namespace Sys2Proof.Machine

@[simp] theorem length_nibbleBits (v : BitVec 4) : (nibbleBits v).length = 4 := rfl

@[simp] theorem length_byteBits (x : Byte) : (byteBits x).length = 8 := rfl

theorem getD_nibbleBits (v : BitVec 4) (i : Nat) (h : i < 4) : (nibbleBits v).getD i false = v.getLsbD (3 - i) := by
  have : i = 0 ∨ i = 1 ∨ i = 2 ∨ i = 3 := by omega
  rcases this with rfl | rfl | rfl | rfl <;> rfl

theorem getD_byteBits (x : Byte) (i : Nat) (h : i < 8) : (byteBits x).getD i false = x.getLsbD (7 - i) := by
  have : i = 0 ∨ i = 1 ∨ i = 2 ∨ i = 3 ∨ i = 4 ∨ i = 5 ∨ i = 6 ∨ i = 7 := by omega
  rcases this with rfl | rfl | rfl | rfl | rfl | rfl | rfl | rfl <;> rfl

/-- Reading an append: below the first part's length its element, else the second's. -/
theorem getD_append {α : Type} (d : α) (v w : List α) (i : Nat) :
    (v ++ w).getD i d = if i < v.length then v.getD i d else w.getD (i - v.length) d := by
  simp only [List.getD_eq_getElem?_getD]
  split
  · rw [List.getElem?_append_left ‹_›]
  · rw [List.getElem?_append_right (by omega)]

theorem hexVal_hexChar : ∀ v : BitVec 4, hexVal (hexChar v) = some v := by decide

/-- The four bits of a group, read back from its value. -/
theorem nibbleBits_bitsToNat : ∀ a b c d : Bool, nibbleBits (BitVec.ofNat 4 (bitsToNat [a, b, c, d])) = [a, b, c, d] := by
  decide

/-- The eight bits of a group, read back from its value. -/
theorem byteBits_bitsToNat : ∀ a b c d e f g h : Bool,
    byteBits (BitVec.ofNat 8 (bitsToNat [a, b, c, d, e, f, g, h])) = [a, b, c, d, e, f, g, h] := by
  decide

theorem unpackHexDigits_length {b : List Byte} {v : Bits} (h : unpackHexDigits b = some v) :
    v.length = 4 * b.length := by
  induction b generalizing v with
  | nil => simp [unpackHexDigits] at h; simp [← h]
  | cons x xs ih =>
    rw [unpackHexDigits] at h
    split at h
    · rename_i r hx hr
      rw [← Option.some.inj h, List.length_append, ih hr, List.length_cons]
      simp; omega
    · simp at h

theorem length_flatMap_byteBits (b : List Byte) : (b.flatMap byteBits).length = 8 * b.length := by
  induction b with
  | nil => rfl
  | cons x xs ih => rw [List.flatMap_cons, List.length_append, ih, List.length_cons]; simp; omega

/-- The length of a decoded vector: one bit per byte under BIN, 4 under HEX, 8 under STR (40_codec.md R100). -/
def unpackedLength : Fmt → Nat → Nat
  | .bin, c => c
  | .hex, c => 4 * c
  | .str, c => 8 * c

theorem length_unpack {f : Fmt} {b : List Byte} {v : Bits} (h : unpack f b = some v) :
    v.length = unpackedLength f b.length := by
  cases f with
  | bin =>
    simp only [unpack] at h
    split at h
    · simp [← Option.some.inj h, unpackedLength]
    · simp at h
  | hex =>
    simp only [unpack] at h
    split at h
    · simp at h
    · exact unpackHexDigits_length h
  | str =>
    simp only [unpack] at h
    rw [← Option.some.inj h]
    exact length_flatMap_byteBits b

/-- The bits of `n` whole bytes, from the characters of their nibbles. -/
theorem unpackHexDigits_hexBytes (v : Bits) (h : v.length % 4 = 0) : unpackHexDigits (hexBytes v) = some v := by
  match v, h with
  | [], _ => rfl
  | [_], h => simp at h
  | [_, _], h => simp at h
  | [_, _, _], h => simp at h
  | a :: b :: c :: d :: r, h =>
    have hr : r.length % 4 = 0 := by simp only [List.length_cons] at h; omega
    rw [hexBytes, unpackHexDigits, hexVal_hexChar, unpackHexDigits_hexBytes r hr]
    exact congrArg (fun l => some (l ++ r)) (nibbleBits_bitsToNat a b c d)

theorem flatMap_strBytes (v : Bits) (h : v.length % 8 = 0) : (strBytes v).flatMap byteBits = v := by
  match v, h with
  | [], _ => rfl
  | [_], h => simp at h
  | [_, _], h => simp at h
  | [_, _, _], h => simp at h
  | [_, _, _, _], h => simp at h
  | [_, _, _, _, _], h => simp at h
  | [_, _, _, _, _, _], h => simp at h
  | [_, _, _, _, _, _, _], h => simp at h
  | a :: b :: c :: d :: e :: f :: g :: i :: r, h =>
    have hr : r.length % 8 = 0 := by simp only [List.length_cons] at h; omega
    rw [strBytes, List.flatMap_cons, flatMap_strBytes r hr, byteBits_bitsToNat]
    rfl

theorem length_hexBytes (v : Bits) : (hexBytes v).length = v.length / 4 := by
  match v with
  | [] => simp [hexBytes]
  | [_] => simp [hexBytes]
  | [_, _] => simp [hexBytes]
  | [_, _, _] => simp [hexBytes]
  | a :: b :: c :: d :: r =>
    rw [hexBytes, List.length_cons, length_hexBytes r]
    simp only [List.length_cons]
    omega

theorem length_strBytes (v : Bits) : (strBytes v).length = v.length / 8 := by
  match v with
  | [] => simp [strBytes]
  | [_] => simp [strBytes]
  | [_, _] => simp [strBytes]
  | [_, _, _] => simp [strBytes]
  | [_, _, _, _] => simp [strBytes]
  | [_, _, _, _, _] => simp [strBytes]
  | [_, _, _, _, _, _] => simp [strBytes]
  | [_, _, _, _, _, _, _] => simp [strBytes]
  | a :: b :: c :: d :: e :: f :: g :: i :: r =>
    rw [strBytes, List.length_cons, length_strBytes r]
    simp only [List.length_cons]
    omega

/-- Character `k` of the HEX packing is the character of bits `4k` to `4k+3`. -/
theorem getD_hexBytes (v : Bits) (k : Nat) (h : k < (hexBytes v).length) :
    ∃ n : BitVec 4, (hexBytes v).getD k 0 = hexChar n ∧
      ∀ i, i < 4 → n.getLsbD (3 - i) = v.getD (4 * k + i) false := by
  match v, k with
  | [], _ => simp [hexBytes] at h
  | [_], _ => simp [hexBytes] at h
  | [_, _], _ => simp [hexBytes] at h
  | [_, _, _], _ => simp [hexBytes] at h
  | a :: b :: c :: d :: r, 0 =>
    refine ⟨BitVec.ofNat 4 (bitsToNat [a, b, c, d]), rfl, fun i hi => ?_⟩
    rw [← getD_nibbleBits _ _ hi, nibbleBits_bitsToNat]
    have : i = 0 ∨ i = 1 ∨ i = 2 ∨ i = 3 := by omega
    rcases this with rfl | rfl | rfl | rfl <;> rfl
  | a :: b :: c :: d :: r, k + 1 =>
    obtain ⟨n, hn, hb⟩ := getD_hexBytes r k (by simpa [hexBytes] using h)
    refine ⟨n, by rw [hexBytes, List.getD_cons_succ, hn], fun i hi => ?_⟩
    rw [hb i hi, show 4 * (k + 1) + i = 4 * k + i + 1 + 1 + 1 + 1 by omega]
    rfl

/-- Byte `k` of the STR packing is bits `8k` to `8k+7`. -/
theorem getD_strBytes (v : Bits) (k : Nat) (h : k < (strBytes v).length) (i : Nat) (hi : i < 8) :
    ((strBytes v).getD k 0).getLsbD (7 - i) = v.getD (8 * k + i) false := by
  match v, k with
  | [], _ => simp [strBytes] at h
  | [_], _ => simp [strBytes] at h
  | [_, _], _ => simp [strBytes] at h
  | [_, _, _], _ => simp [strBytes] at h
  | [_, _, _, _], _ => simp [strBytes] at h
  | [_, _, _, _, _], _ => simp [strBytes] at h
  | [_, _, _, _, _, _], _ => simp [strBytes] at h
  | [_, _, _, _, _, _, _], _ => simp [strBytes] at h
  | a :: b :: c :: d :: e :: f :: g :: j :: r, 0 =>
    rw [strBytes, List.getD_cons_zero, ← getD_byteBits _ _ hi, byteBits_bitsToNat]
    have : i = 0 ∨ i = 1 ∨ i = 2 ∨ i = 3 ∨ i = 4 ∨ i = 5 ∨ i = 6 ∨ i = 7 := by omega
    rcases this with rfl | rfl | rfl | rfl | rfl | rfl | rfl | rfl <;> rfl
  | a :: b :: c :: d :: e :: f :: g :: j :: r, k + 1 =>
    have := getD_strBytes r k (by simpa [strBytes] using h) i hi
    rw [strBytes, List.getD_cons_succ, this,
      show 8 * (k + 1) + i = 8 * k + i + 1 + 1 + 1 + 1 + 1 + 1 + 1 + 1 by omega]
    rfl

/-- Everything `pack` can answer. -/
theorem pack_cases (fmt : Fmt) (v : Bits) :
    (fmt = .bin ∧ pack fmt v = .ok (.bits v)) ∨
    (fmt ≠ .bin ∧ v.length % 8 ≠ 0 ∧ pack fmt v = .error .lengthError) ∨
    (fmt = .hex ∧ v.length % 8 = 0 ∧ pack fmt v = .ok (.bytes (hexBytes v))) ∨
    (fmt = .str ∧ v.length % 8 = 0 ∧ pack fmt v = .ok (.bytes (strBytes v))) := by
  cases fmt <;> by_cases h : v.length % 8 = 0 <;> simp [pack, h]

end Sys2Proof.Machine
end

