-- ==== Sys2Proof/Laws/Lfsr.lean ====
section
/-!
SUPPORT. The laws of the generation function, of the Berlekamp–Massey variables and of the Geffe output
(41_lfsr_engine.md R130, 42_berlekamp_massey.md R161, 43_geffe.md R193).
-/

namespace Sys2Proof.Machine

@[simp] theorem xorSum_nil : xorSum [] = false := rfl

@[simp] theorem xorSum_cons (a : Bool) (v : Bits) : xorSum (a :: v) = (a ^^ xorSum v) := rfl

theorem xorSum_append (v w : Bits) : xorSum (v ++ w) = (xorSum v ^^ xorSum w) := by
  induction v with
  | nil => simp
  | cons a v ih => simp [ih]

theorem xorSum_replicate_false (n : Nat) : xorSum (List.replicate n false) = false := by
  induction n with
  | zero => rfl
  | succ n ih => simp [List.replicate_succ, ih]

@[simp] theorem length_lfsrHistory (seed : Bits) (taps : List Nat) (k : Nat) :
    (lfsrHistory seed taps k).length = k := by
  induction k with
  | zero => rfl
  | succ k ih => rw [lfsrHistory, lfsrNext, List.length_cons, ih]

@[simp] theorem length_lfsr (seed : Bits) (taps : List Nat) (len : Nat) : (lfsr seed taps len).length = len := by
  rw [lfsr, List.length_reverse, length_lfsrHistory]

/-- One more bit: the seed's, or the feedback of the history. -/
theorem lfsr_succ (seed : Bits) (taps : List Nat) (k : Nat) :
    lfsr seed taps (k + 1) = lfsr seed taps k ++
      [if k < seed.length then seed.getD k false else feedback taps (lfsrHistory seed taps k)] := by
  rw [lfsr, lfsrHistory, lfsrNext, List.reverse_cons, ← lfsr]

/-- The history is the output read backwards. -/
theorem getD_lfsrHistory (seed : Bits) (taps : List Nat) (k j : Nat) (h : j < k) :
    (lfsrHistory seed taps k).getD j false = (lfsr seed taps k).getD (k - 1 - j) false := by
  have h1 : j < (lfsrHistory seed taps k).length := by simpa using h
  have h2 : k - 1 - j < (lfsrHistory seed taps k).reverse.length := by simp; omega
  rw [lfsr, List.getD_eq_getElem _ _ h1, List.getD_eq_getElem _ _ h2, List.getElem_reverse]
  congr 1
  simp only [length_lfsrHistory]
  omega

/-- The seed has length L and is a part of the target. -/
theorem length_bmSeed (v : Bits) (st : BmState) (h : st.l ≤ v.length) : (bmSeed v st).length = st.l := by
  simp [bmSeed, h]

theorem mem_bmTaps {st : BmState} {p : Nat} :
    p ∈ bmTaps st ↔ 1 ≤ p ∧ p ≤ st.l ∧ st.c.getD p false = true := by
  simp only [bmTaps, List.mem_filter, List.mem_map, List.mem_range]
  constructor
  · rintro ⟨⟨a, ha, rfl⟩, hc⟩
    exact ⟨by omega, by omega, hc⟩
  · rintro ⟨h1, h2, h3⟩
    exact ⟨⟨p - 1, by omega, by omega⟩, h3⟩

theorem mem_tapSet {s : State} {n p : Nat} :
    p ∈ s.tapSet n ↔ 1 ≤ p ∧ p ≤ n ∧ s.bufBit .taps (p - 1) = true := by
  simp only [State.tapSet, List.mem_filter, List.mem_map, List.mem_range]
  constructor
  · rintro ⟨⟨a, ha, rfl⟩, hc⟩
    exact ⟨by omega, by omega, hc⟩
  · rintro ⟨h1, h2, h3⟩
    exact ⟨⟨p - 1, by omega, by omega⟩, h3⟩

/-- Mask bit `p - 1` is 1 exactly when `p` is in the tap set (20_memory.md R65). -/
theorem getD_tapMask (taps : List Nat) (n j : Nat) :
    (tapMask taps n).getD j false = (decide (j < n) && decide (j + 1 ∈ taps)) := by
  by_cases h : j < n
  · simp [tapMask, h]
  · simp [tapMask, List.getD_eq_getElem?_getD, h]

/-- The tap set depends on the mask bits below `n` alone. -/
theorem State.tapSet_congr {s t : State} {n : Nat} (h : ∀ i, i < n → t.bufBit .taps i = s.bufBit .taps i) :
    t.tapSet n = s.tapSet n := by
  unfold State.tapSet
  apply List.filter_congr
  intro p hp
  simp only [List.mem_map, List.mem_range] at hp
  obtain ⟨a, ha, rfl⟩ := hp
  exact h _ (by omega)

/-- What GET and TEST generate depends on N, on SEED below N and on TAPS below N alone (41_lfsr_engine.md R132). -/
theorem State.engineOutput_congr {s t : State} (hn : t.n = s.n)
    (hs : ∀ i, i < s.n.toNat → t.bufBit .seed i = s.bufBit .seed i)
    (ht : ∀ i, i < s.n.toNat → t.bufBit .taps i = s.bufBit .taps i) (len : Nat) :
    t.engineOutput len = s.engineOutput len := by
  unfold State.engineOutput
  rw [hn, State.bits_congr hs, State.tapSet_congr ht]

@[simp] theorem State.length_engineOutput (s : State) (len : Nat) : (s.engineOutput len).length = len := by
  simp [State.engineOutput]

@[simp] theorem length_geffe (g1 g2 g3 : Word) (len : Nat) : (geffe g1 g2 g3 len).length = len := by
  simp [geffe]

@[simp] theorem length_geffeSeed (g : Word) : (geffeSeed g).length = 32 := by simp [geffeSeed]

@[simp] theorem length_seedOfInt (v : Word) (n : Nat) : (seedOfInt v n).length = n := by simp [seedOfInt]

/-- Coefficient `j` of a sum (00_scope.md R13). -/
theorem getD_polyAdd (p q : Bits) (j : Nat) :
    (polyAdd p q).getD j false = (p.getD j false ^^ q.getD j false) := by
  induction p generalizing q j with
  | nil => simp [polyAdd]
  | cons a p ih =>
    cases q with
    | nil => simp [polyAdd]
    | cons b q =>
      cases j with
      | zero => simp [polyAdd]
      | succ j => simp only [polyAdd, List.getD_cons_succ, ih]

/-- Coefficient `j` of `x^k * P` (00_scope.md R13). -/
theorem getD_polyShift (k : Nat) (p : Bits) (j : Nat) :
    (polyShift k p).getD j false = (decide (k ≤ j) && p.getD (j - k) false) := by
  rw [polyShift, getD_append, List.length_replicate]
  by_cases h : j < k
  · rw [if_pos h, List.getD_eq_getElem?_getD, List.getElem?_replicate, if_pos h]
    simp [show ¬k ≤ j by omega]
  · rw [if_neg h]
    simp [show k ≤ j by omega]

end Sys2Proof.Machine
end

