-- ==== Sys2Proof/Laws/Commands.lean ====
section
/-!
SUPPORT. How every command ends (60_exceptions.md R214, R215): its checks answer an error or the state its results
make, and `finish` commits that.
-/

namespace Sys2Proof.Machine

/-- The checks and results of each command. -/
def commandResult (i : Instr) (s : State) : Except ErrCode State :=
  match i with
  | .tobits form dst => tobitsResult form dst s
  | .frombits fmt src => frombitsResult fmt src s
  | .seedint => seedintResult s
  | .ecfg => ecfgResult s
  | .get fmt dflt => getResult fmt dflt s
  | .test supplied => testResult supplied s
  | .tcfg => tcfgResult s
  | .gkeyBin src => gkeyBinResult src s
  | .gkeyStr => gkeyStrResult s
  | .gget fmt => ggetResult fmt s

theorem exec_eq_finish (i : Instr) (s : State) : exec i s = s.finish (commandResult i s) := by
  cases i <;> rfl

@[simp] theorem State.finish_error (s : State) (e : ErrCode) : s.finish (.error e) = .next (s.raise e) := rfl

@[simp] theorem State.finish_ok (s t : State) : s.finish (.ok t) = .next t.succeed := rfl

/-- Every command answers a next state: its error entry, or its results. -/
theorem exec_cases {i : Instr} {s t : State} (h : exec i s = .next t) :
    (∃ e, commandResult i s = .error e ∧ t = s.raise e) ∨
      (∃ u, commandResult i s = .ok u ∧ t = u.succeed) := by
  rw [exec_eq_finish] at h
  cases hr : commandResult i s with
  | error e =>
    rw [hr, State.finish_error] at h
    exact .inl ⟨e, rfl, (Host.Outcome.next.inj h).symm⟩
  | ok u =>
    rw [hr, State.finish_ok] at h
    exact .inr ⟨u, rfl, (Host.Outcome.next.inj h).symm⟩

theorem exec_next (i : Instr) (s : State) : ∃ t, exec i s = .next t := by
  rw [exec_eq_finish]
  cases commandResult i s with
  | error e => exact ⟨_, rfl⟩
  | ok u => exact ⟨_, rfl⟩

theorem exec_of_ok {i : Instr} {s u : State} (h : commandResult i s = .ok u) : exec i s = .next u.succeed := by
  rw [exec_eq_finish, h, State.finish_ok]

theorem exec_of_error {i : Instr} {s : State} {e : ErrCode} (h : commandResult i s = .error e) :
    exec i s = .next (s.raise e) := by
  rw [exec_eq_finish, h, State.finish_error]

/-- No check answers the code of success. -/
theorem commandResult_ne_success (i : Instr) (s : State) : commandResult i s ≠ .error .success := by
  cases i with
  | tobits form dst => simp only [commandResult, tobitsResult]; (repeat' split) <;> simp
  | frombits fmt src =>
    simp only [commandResult, frombitsResult]
    split
    · simp
    · rcases pack_cases fmt (s.bits (bufOf src) (s.selLen src)) with ⟨_, h⟩ | ⟨_, _, h⟩ | ⟨_, _, h⟩ | ⟨_, _, h⟩ <;>
        simp [h]
  | seedint => simp only [commandResult, seedintResult]; (repeat' split) <;> simp
  | ecfg => simp only [commandResult, ecfgResult]; (repeat' split) <;> simp
  | get fmt dflt => simp only [commandResult, getResult]; (repeat' split) <;> simp
  | test supplied => simp only [commandResult, testResult, State.compareWith]; (repeat' split) <;> simp
  | tcfg => simp only [commandResult, tcfgResult, State.reconstruct]; (repeat' split) <;> simp
  | gkeyBin src => simp only [commandResult, gkeyBinResult]; split <;> simp
  | gkeyStr => simp only [commandResult, gkeyStrResult]; split <;> simp
  | gget fmt => simp only [commandResult, ggetResult]; (repeat' split) <;> simp

/-- A command that succeeded committed its results. -/
theorem ok_of_success {i : Instr} {s t : State} (h : exec i s = .next t) (he : t.err = .success) :
    ∃ u, commandResult i s = .ok u ∧ t = u.succeed := by
  rcases exec_cases h with ⟨e, hr, rfl⟩ | hu
  · rw [State.raise_err] at he
    exact absurd (he ▸ hr) (commandResult_ne_success i s)
  · exact hu

end Sys2Proof.Machine
end

