-- ==== Sys2Proof/Laws/Bus.lean ====
section
/-!
SUPPORT. The laws of the address map and of the bus accesses (10_state.md R20, 20_memory.md R61, R62, R69).
-/

namespace Sys2Proof.Machine

theorem Reg.offset_lt (r : Reg) : r.offset < 0x44 := by cases r <;> decide

theorem Buf.base_ge (b : Buf) : 0x40000 ≤ b.base := by cases b <;> decide

theorem mem_allRegs (r : Reg) : r ∈ allRegs := by cases r <;> decide

theorem mem_allBufs (b : Buf) : b ∈ allBufs := by cases b <;> decide

theorem Reg.offset_inj {r r' : Reg} (h : r.offset = r'.offset) : r = r' := by
  revert h; cases r <;> cases r' <;> simp [Reg.offset]

/-- What an address selects, with what that says about the address. -/
theorem targetOf_cases (m : MaxLen) (x : Nat) :
    (∃ r : Reg, x = r.offset ∧ targetOf m x = .reg r) ∨
    (∃ b : Buf, Buf.mapped m b x ∧ targetOf m x = .window b ((x - b.base) / 4)) ∨
    ((∀ r : Reg, x ≠ r.offset) ∧ (∀ b : Buf, ¬Buf.mapped m b x) ∧ targetOf m x = .unmapped) := by
  unfold targetOf
  cases hr : allRegs.find? (fun r => r.offset == x) with
  | some r =>
    have := List.find?_some hr
    exact .inl ⟨r, (beq_iff_eq.1 this).symm, rfl⟩
  | none =>
    rw [List.find?_eq_none] at hr
    cases hb : allBufs.find? (fun b => decide (Buf.mapped m b x)) with
    | some b =>
      have := List.find?_some hb
      exact .inr (.inl ⟨b, of_decide_eq_true this, rfl⟩)
    | none =>
      rw [List.find?_eq_none] at hb
      refine .inr (.inr ⟨fun r h => ?_, fun b h => ?_, rfl⟩)
      · exact hr r (mem_allRegs r) (beq_iff_eq.2 h.symm)
      · exact hb b (mem_allBufs b) (decide_eq_true h)

theorem Buf.not_mapped_of_lt {m : MaxLen} {b : Buf} {x : Nat} (h : x < 0x40000) : ¬Buf.mapped m b x := by
  have := b.base_ge
  unfold Buf.mapped
  omega

/-- The address of a register selects it. -/
theorem targetOf_reg (m : MaxLen) (r : Reg) : targetOf m r.offset = .reg r := by
  have hlt := r.offset_lt
  rcases targetOf_cases m r.offset with ⟨r', h, ht⟩ | ⟨b, h, _⟩ | ⟨h, _⟩
  · rw [ht, Reg.offset_inj h]
  · exact absurd h (Buf.not_mapped_of_lt (by omega))
  · exact absurd rfl (h r)

/-- A mapped address selects its window's word. -/
theorem targetOf_mapped {m : MaxLen} {b : Buf} {x : Nat} (h : Buf.mapped m b x) :
    targetOf m x = .window b ((x - b.base) / 4) := by
  rcases targetOf_cases m x with ⟨r, hr, _⟩ | ⟨b', h', ht⟩ | ⟨_, hn, _⟩
  · have := r.offset_lt
    exact absurd h (Buf.not_mapped_of_lt (by omega))
  · rw [Buf.mapped_unique h h', ht]
  · exact absurd h (hn b)

/-- A word of a window is at `base + 4*k` (20_memory.md R62). -/
theorem targetOf_word {m : MaxLen} {b : Buf} {k : Nat} (h : k < b.words m) :
    targetOf m (b.base + 4 * k) = .window b k := by
  rw [targetOf_mapped (b := b) ⟨by omega, by omega⟩, show (b.base + 4 * k - b.base) / 4 = k by omega]

theorem State.busRead_reg (s : State) (r : Reg) : s.busRead r.offset = s.readReg r := by
  simp only [State.busRead, targetOf_reg]

theorem State.busWrite_reg (s : State) (r : Reg) (w : Word) : s.busWrite r.offset w = s.writeReg r w := by
  simp only [State.busWrite, targetOf_reg]

theorem State.busRead_word (s : State) {b : Buf} {k : Nat} (h : k < b.words s.maxLen) :
    s.busRead (b.base + 4 * k) = s.bufWord b k := by
  simp only [State.busRead, targetOf_word h]

theorem State.busWrite_word (s : State) {b : Buf} {k : Nat} (w : Word) (h : k < b.words s.maxLen) :
    s.busWrite (b.base + 4 * k) w = s.writeWindow b k w := by
  simp only [State.busWrite, targetOf_word h]

/-- Byte address 4 aligned and mapped: which word it is. -/
theorem Buf.word_of_mapped {m : MaxLen} {b : Buf} {x : Nat} (h : Buf.mapped m b x) (h4 : x % 4 = 0) :
    ∃ k, k < b.words m ∧ x = b.base + 4 * k := by
  refine ⟨(x - b.base) / 4, ?_, ?_⟩
  · unfold Buf.mapped at h; omega
  · have : b.base % 4 = 0 := by cases b <;> decide
    unfold Buf.mapped at h
    omega

theorem byteAddress_mod (a : BitVec 20) : byteAddress a % 4 = 0 := by
  unfold byteAddress; omega

theorem byteAddress_lt (a : BitVec 20) : byteAddress a < 0x400000 := by
  have := a.isLt
  unfold byteAddress; omega

/-- Everything a bus write can do: what it keeps, whatever it writes. -/
theorem State.busWrite_keeps (s : State) (x : Nat) (w : Word) :
    (s.busWrite x w).maxLen = s.maxLen ∧ (s.busWrite x w).err = s.err ∧
    (s.busWrite x w).olen = s.olen ∧ (s.busWrite x w).stlen = s.stlen ∧
    (s.busWrite x w).bmL = s.bmL ∧ (s.busWrite x w).bmM = s.bmM ∧
    (s.busWrite x w).rdata = s.rdata ∧ (s.busWrite x w).port = s.port := by
  unfold State.busWrite
  split
  · rename_i r _
    cases r <;> exact ⟨rfl, rfl, rfl, rfl, rfl, rfl, rfl, rfl⟩
  · rename_i b k _
    cases b <;> exact ⟨rfl, rfl, rfl, rfl, rfl, rfl, rfl, rfl⟩
  · exact ⟨rfl, rfl, rfl, rfl, rfl, rfl, rfl, rfl⟩

/-- The bus write as one of its cases: a register write, the store of a word of a writable window, or nothing. -/
theorem State.busWrite_cases (s : State) (x : Nat) (w : Word) :
    (∃ r : Reg, x = r.offset ∧ s.busWrite x w = s.writeReg r w) ∨
    (∃ (b : Buf) (k : Nat), b.hostWrites = true ∧ Buf.mapped s.maxLen b x ∧ k = (x - b.base) / 4 ∧
      k < b.words s.maxLen ∧
      s.busWrite x w = (if b = .seed ∨ b = .taps then s.clearConfig else s).storeWord b k w) ∨
    ((∀ r : Reg, x ≠ r.offset) ∧ (∀ b : Buf, b.hostWrites = true → ¬Buf.mapped s.maxLen b x) ∧
      s.busWrite x w = s) := by
  rcases targetOf_cases s.maxLen x with ⟨r, hx, ht⟩ | ⟨b, hm, ht⟩ | ⟨hr, hb, ht⟩
  · exact .inl ⟨r, hx, by simp only [State.busWrite, ht]⟩
  · have hw : s.busWrite x w = s.writeWindow b ((x - b.base) / 4) w := by simp only [State.busWrite, ht]
    have hk : (x - b.base) / 4 < b.words s.maxLen := by unfold Buf.mapped at hm; omega
    have hnr : ∀ r : Reg, x ≠ r.offset := by
      intro r hr
      have := r.offset_lt
      exact absurd hm (Buf.not_mapped_of_lt (by omega))
    by_cases hwr : b.hostWrites = true
    · refine .inr (.inl ⟨b, _, hwr, hm, rfl, hk, ?_⟩)
      rw [hw]
      cases b <;> simp_all [Buf.hostWrites, State.writeWindow]
    · refine .inr (.inr ⟨hnr, fun b' hb' hm' => ?_, ?_⟩)
      · rw [← Buf.mapped_unique hm hm'] at hb'
        exact hwr hb'
      · rw [hw]
        cases b <;> simp_all [Buf.hostWrites, State.writeWindow]
  · exact .inr (.inr ⟨hr, fun b _ => hb b, by simp only [State.busWrite, ht]⟩)

/-- What the next bus cycle does, whole: the four outcomes of a clock. -/
theorem State.busCycle_cases {s t : State} {c : BusCycle} (h : s.busCycle c = .next t) :
    (c.rst = true ∧ c.sel = false ∧ t = s.resetCycle) ∨
    (c.rst = false ∧ c.sel = false ∧ t = s) ∨
    (c.rst = false ∧ c.sel = true ∧ c.we = true ∧ s.busy = false ∧ t = s.busWrite (byteAddress c.a) c.wdata) ∨
    (c.rst = false ∧ c.sel = true ∧ c.we = false ∧ (s.busy = true → byteAddress c.a = 0x008) ∧
      t = s.answerRead (byteAddress c.a)) := by
  unfold State.busCycle at h
  split at h
  · split at h
    · cases h
    · exact .inl ⟨‹_›, by simpa using ‹¬c.sel = true›, (Host.Outcome.next.inj h).symm⟩
  · have hr : c.rst = false := by simpa using ‹¬c.rst = true›
    split at h
    · exact .inr (.inl ⟨hr, by simpa using ‹(!c.sel) = true›, (Host.Outcome.next.inj h).symm⟩)
    · have hs : c.sel = true := by simpa using ‹¬(!c.sel) = true›
      split at h
      · cases h
      · rename_i hb
        split at h
        · rename_i hw
          refine .inr (.inr (.inl ⟨hr, hs, hw, ?_, (Host.Outcome.next.inj h).symm⟩))
          simpa [BusCycle.readsStatus, hw] using hb
        · rename_i hw
          have hw' : c.we = false := by simpa using hw
          refine .inr (.inr (.inr ⟨hr, hs, hw', fun hbusy => ?_, (Host.Outcome.next.inj h).symm⟩))
          simpa [BusCycle.readsStatus, hw', hbusy, Reg.offset] using hb

end Sys2Proof.Machine
end

