-- ==== Sys2Proof/Laws/PerInstr.lean ====
section
/-!
SUPPORT. Facts proved one command at a time: the encoding of a legal command has RES = 0 and the field values of the
legality table (30_encoding.md R86, R87).
-/

namespace Sys2Proof.Laws.EncodeLegal

open Sys2Proof.Machine

/-- A legal command's word has RES = 0 and legal fields. -/
def Statement (i : Instr) : Prop :=
  i.wf = true → (fieldsOf (encode i)).res = 0 ∧ LegalFields (fieldsOf (encode i))

theorem tobits (form : InForm) (dst : BufSel) : Statement (.tobits form dst) := by
  intro h
  rcases form with f | _
  · cases f <;> cases dst <;> first | (exact absurd h (by decide)) | (decide)
  · cases dst <;> first | (exact absurd h (by decide)) | (decide)

theorem frombits (fmt : Fmt) (src : BufSel) : Statement (.frombits fmt src) := by
  intro _; cases fmt <;> cases src <;> decide

theorem seedint : Statement .seedint := by intro _; decide

theorem ecfg : Statement .ecfg := by intro _; decide

theorem get (fmt : Fmt) (dflt : Bool) : Statement (.get fmt dflt) := by
  intro _; cases fmt <;> cases dflt <;> decide

theorem test (supplied : Bool) : Statement (.test supplied) := by
  intro _; cases supplied <;> decide

theorem tcfg : Statement .tcfg := by intro _; decide

theorem gkeyBin (src : BufSel) : Statement (.gkeyBin src) := by
  intro _; cases src <;> decide

theorem gkeyStr : Statement .gkeyStr := by intro _; decide

theorem gget (fmt : Fmt) : Statement (.gget fmt) := by
  intro _; cases fmt <;> decide

end Sys2Proof.Laws.EncodeLegal
end

