-- ==== Sys2Proof/Laws/Results.lean ====
section
/-!
SUPPORT. What the shared result operations do, said once: the zero-filled buffer writes, the packed keystream, the
commit of a reconstruction, the tap check and the shares of a key.
-/

namespace Sys2Proof.Machine

variable (s : State)

@[simp] theorem bufOf_seed : bufOf .seed = .seed := rfl

@[simp] theorem bufOf_tgt : bufOf .tgt = .tgt := rfl

@[simp] theorem bufOf_out : bufOf .out = .out := rfl

@[simp] theorem bufOf_stgt : bufOf .stgt = .stgt := rfl

/-- What a buffer holds depends on the memory and the capacity alone. -/
theorem State.holds_mem {s t : State} {b : Buf} {v : Bits} (hs : s.Holds b v) (h : t.mem = s.mem)
    (hm : t.maxLen = s.maxLen) : t.Holds b v := by
  intro i hi
  rw [State.bufBit_mem h]
  exact hs i (hm ▸ hi)

/-- `WriteBits(buf, v)`: the buffer holds `v`. -/
theorem State.holds_writeBits_self (b : Buf) (v : Bits) : (s.writeBits b v).Holds b v :=
  fun i hi => s.bufBit_writeBits_self b v i hi

/-- `WriteBits(buf, v)`: every other buffer holds what it held. -/
theorem State.holds_writeBits_other {s : State} {b b' : Buf} (hne : b ≠ b') (v : Bits) {w : Bits} (h : s.Holds b' w) :
    (s.writeBits b v).Holds b' w := by
  intro i hi
  rw [s.bufBit_writeBits_other hne v i (Buf.word_lt_of_lt_capacity hi)]
  exact h i hi

/-- `WriteBytes(v)`: every bit buffer holds what it held. -/
theorem State.holds_writeBytes {s : State} {b : Buf} (hne : b ≠ .bytes) (v : List Byte) {w : Bits} (h : s.Holds b w) :
    (s.writeBytes v).Holds b w := by
  intro i hi
  rw [s.bufBit_writeBytes_other hne v i (Buf.word_lt_of_lt_capacity hi)]
  exact h i hi

/-- `WriteBytes(v)`: BYTES holds `v`. -/
theorem State.holdsBytes_writeBytes (v : List Byte) : (s.writeBytes v).HoldsBytes v :=
  fun j hj => s.byteAt_writeBytes v j hj

/-- `WriteBits(buf, v)` stores to the buffer's window alone. -/
theorem State.read_writeBits (b : Buf) (v : Bits) (a : Nat) (h : ¬Buf.mapped s.maxLen b a) :
    Memory.read (s.writeBits b v).mem a = Memory.read s.mem a := by
  rw [State.writeBits_mem, Memory.read_replace, if_neg h]

/-- `WriteBytes(v)` stores to the window of BYTES alone. -/
theorem State.read_writeBytes (v : List Byte) (a : Nat) (h : ¬Buf.mapped s.maxLen .bytes a) :
    Memory.read (s.writeBytes v).mem a = Memory.read s.mem a := by
  have := s.maxLen.bits_mod
  rw [State.writeBytes_mem, Memory.read_replace, if_neg]
  simp only [Buf.mapped, Buf.words] at h
  omega

/-- Every store of the state keeps the canonical form, and reset has it. -/
theorem State.writeBits_wf (b : Buf) (v : Bits) (h : Memory.wf s.mem) : Memory.wf (s.writeBits b v).mem :=
  Memory.replace_wf h _ _ _

theorem State.writeBytes_wf (v : List Byte) (h : Memory.wf s.mem) : Memory.wf (s.writeBytes v).mem :=
  Memory.replace_wf h _ _ _

theorem State.storeWord_wf (b : Buf) (k : Nat) (w : Word) (h : Memory.wf s.mem) : Memory.wf (s.storeWord b k w).mem :=
  Memory.writeWord_wf h _ _

theorem State.reset_wf : Memory.wf State.reset.mem := Memory.empty_wf

theorem State.storeBits_mem (b : BufSel) (v : Bits) : (s.storeBits b v).mem = (s.writeBits (bufOf b) v).mem := by
  simp [State.storeBits]

theorem State.storeBytes_mem (v : List Byte) : (s.storeBytes v).mem = (s.writeBytes v).mem := rfl

/-- A packed format and a whole number of bytes: what `pack` answers, and that it is the packing of the bits. -/
theorem pack_ok {fmt : Fmt} {v : Bits} (hf : fmt ≠ .bin) (h : v.length % 8 = 0) :
    ∃ r, pack fmt v = .ok (.bytes r) ∧ IsPackOf fmt v r := by
  cases fmt with
  | bin => exact absurd rfl hf
  | hex => exact ⟨_, by simp [pack, h], length_hexBytes v, fun k hk => getD_hexBytes v k hk⟩
  | str => exact ⟨_, by simp [pack, h], length_strBytes v, fun k hk i hi => getD_strBytes v k hk i hi⟩

/-- A keystream under FMT = BIN goes into OUT alone. -/
theorem State.emit_bin (v : Bits) : s.emit .bin v = s.storeBits .out v := rfl

/-- A keystream under HEX or STR goes into OUT, and packed into BYTES. -/
theorem State.emit_packed {fmt : Fmt} {v : Bits} {r : List Byte} (h : pack fmt v = .ok (.bytes r)) :
    s.emit fmt v = (s.storeBits .out v).storeBytes r := by
  simp [State.emit, State.storePacked, h]

theorem State.emit_packed_mem {fmt : Fmt} {v : Bits} {r : List Byte} (h : pack fmt v = .ok (.bytes r)) :
    (s.emit fmt v).mem = ((s.writeBits .out v).writeBytes r).mem := by
  simp [s.emit_packed h, State.storeBytes, State.storeBits]

/-- The five buffer writes of a reconstruction's commit (42_berlekamp_massey.md R168). -/
theorem State.commitReconstruction_mem (v : Bits) (st : BmState) :
    (s.commitReconstruction v st).mem =
      (((((s.writeBits .seed (bmSeed v st)).writeBits .taps (tapMask (bmTaps st) st.l)).writeBits .stgt v).writeBits
        .bmc st.c).writeBits .bmb st.b).mem := by
  simp [State.commitReconstruction, State.storeBits]

/-- The tap check finds exactly the taps above `n` (41_lfsr_engine.md R138). -/
theorem State.tapAbove_iff (n : Nat) :
    s.tapAbove n = true ↔ ∃ p, n < p ∧ p ≤ s.maxLen.bits ∧ s.bufBit .taps (p - 1) = true := by
  unfold State.tapAbove
  rw [List.any_eq_true]
  constructor
  · rintro ⟨j, hj, hb⟩
    rw [List.mem_range'_1] at hj
    exact ⟨j + 1, by omega, by omega, hb⟩
  · rintro ⟨p, h1, h2, h3⟩
    exact ⟨p - 1, by rw [List.mem_range'_1]; omega, h3⟩

/-- A bit of a key chunk (43_geffe.md R196). -/
theorem getLsbD_keyChunk (key : Bits) (j k : Nat) (h : k < 32) :
    (keyChunk key j).getLsbD (31 - k) = key.getD (32 * j + k) false := by
  unfold keyChunk
  rw [BitVec.getLsbD_ofFnLE, dif_pos (by omega)]
  simp only [show 31 - (31 - k) = k by omega]

/-- Everything a keystream's store can be. -/
theorem State.emit_cases (fmt : Fmt) (v : Bits) :
    (s.emit fmt v = s.storeBits .out v ∧ (fmt = .bin ∨ v.length % 8 ≠ 0)) ∨
      ∃ r, fmt ≠ .bin ∧ s.emit fmt v = (s.storeBits .out v).storeBytes r := by
  rcases pack_cases fmt v with ⟨rfl, hh⟩ | ⟨h1, h2, hh⟩ | ⟨h1, h2, hh⟩ | ⟨h1, h2, hh⟩
  · exact .inl ⟨rfl, .inl rfl⟩
  · exact .inl ⟨by simp [State.emit, State.storePacked, hh], .inr h2⟩
  · exact .inr ⟨_, by simp [h1], s.emit_packed hh⟩
  · exact .inr ⟨_, by simp [h1], s.emit_packed hh⟩

theorem bin_or_whole_bytes {fmt : Fmt} {k : Nat} (h : ¬(packsBytes fmt = true ∧ k % 8 ≠ 0)) :
    fmt = .bin ∨ k % 8 = 0 := by
  cases fmt <;> simp_all [packsBytes]

/-- Everything a command that succeeds can commit, one case for each shape of results. -/
theorem ok_cases {i : Instr} {s u : State} (h : commandResult i s = .ok u) :
    (∃ form dst v, i = .tobits form dst ∧ dst ≠ .stgt ∧ v.length ≤ s.maxLen.bits ∧
      u = (s.storeBits dst v).seedChanged dst) ∨
    (∃ src, i = .frombits .bin src ∧ s.selLen src ≤ s.maxLen.bits ∧
      u = s.storeBits .out (s.bits (bufOf src) (s.selLen src))) ∨
    (∃ fmt src r, i = .frombits fmt src ∧ fmt ≠ .bin ∧ u = s.storeBytes r) ∨
    (i = .seedint ∧ s.n.toNat ≤ s.maxLen.bits ∧
      u = (s.storeBits .seed (seedOfInt s.argVal s.n.toNat)).clearConfig) ∨
    (i = .ecfg ∧ 0 < s.n.toNat ∧ s.n.toNat ≤ s.maxLen.bits ∧ s.tapAbove s.n.toNat = false ∧ s.slen = s.n ∧
      u = { s with configured := true, tvalid := false }) ∨
    (∃ v, (i = .gget .bin ∨ ∃ d, i = .get .bin d) ∧ v.length ≤ s.maxLen.bits ∧ u = s.storeBits .out v) ∨
    (∃ fmt v r, (i = .gget fmt ∨ ∃ d, i = .get fmt d) ∧ fmt ≠ .bin ∧ v.length ≤ s.maxLen.bits ∧
      u = (s.storeBits .out v).storeBytes r) ∨
    (∃ b, i = .test b ∧ u = s) ∨
    (∃ v, i = .tcfg ∧ v.length = s.tlen.toNat ∧ v.length ≤ s.maxLen.bits ∧
      lfsr (bmSeed v (bmFinal v)) (bmTaps (bmFinal v)) v.length = v ∧
      u = s.commitReconstruction v (bmFinal v)) ∨
    (∃ g1 g2 g3, (i = .gkeyStr ∨ ∃ src, i = .gkeyBin src) ∧ u = s.setGeffeSeeds g1 g2 g3) := by
  cases i with
  | tobits form dst =>
    left
    simp only [commandResult, tobitsResult] at h
    split at h <;> try cases h
    split at h <;> try cases h
    split at h <;> try cases h
    split at h <;> try cases h
    refine ⟨form, dst, _, rfl, ?_, by omega, rfl⟩
    rintro rfl
    simp_all [BufSel.isDestination]
  | frombits fmt src =>
    right
    simp only [commandResult, frombitsResult] at h
    split at h <;> try cases h
    rcases pack_cases fmt (s.bits (bufOf src) (s.selLen src)) with ⟨rfl, hh⟩ | ⟨h1, h2, hh⟩ |
      ⟨h1, h2, hh⟩ | ⟨h1, h2, hh⟩ <;> rw [hh] at h <;> cases h
    · exact .inl ⟨src, rfl, by omega, rfl⟩
    · exact .inr (.inl ⟨_, _, _, rfl, by simp [h1], rfl⟩)
    · exact .inr (.inl ⟨_, _, _, rfl, by simp [h1], rfl⟩)
  | seedint =>
    right; right; right; left
    simp only [commandResult, seedintResult] at h
    split at h <;> try cases h
    split at h <;> try cases h
    split at h <;> try cases h
    exact ⟨rfl, by omega, rfl⟩
  | ecfg =>
    right; right; right; right; left
    simp only [commandResult, ecfgResult] at h
    split at h <;> try cases h
    split at h <;> try cases h
    split at h <;> try cases h
    split at h <;> try cases h
    exact ⟨rfl, by omega, by omega, by simp_all, by simp_all, rfl⟩
  | get fmt d =>
    simp only [commandResult, getResult] at h
    split at h <;> try cases h
    split at h <;> try cases h
    split at h <;> try cases h
    rename_i hh
    rcases s.emit_cases fmt (s.engineOutput (s.getLen d)) with ⟨he, hf⟩ | ⟨r, hf, he⟩
    · have : fmt = .bin := by
        rcases hf with hf | hf
        · exact hf
        · rcases bin_or_whole_bytes hh with h | h
          · exact h
          · simp at hf
            omega
      subst this
      exact .inr (.inr (.inr (.inr (.inr (.inl ⟨_, .inr ⟨_, rfl⟩, by simp; omega, he⟩)))))
    · exact .inr (.inr (.inr (.inr (.inr (.inr (.inl ⟨fmt, _, r, .inr ⟨_, rfl⟩, hf, by simp; omega, he⟩))))))
  | gget fmt =>
    simp only [commandResult, ggetResult] at h
    split at h <;> try cases h
    split at h <;> try cases h
    rename_i hh
    rcases s.emit_cases fmt (geffe s.gs1 s.gs2 s.gs3 s.argLen.toNat) with ⟨he, hf⟩ | ⟨r, hf, he⟩
    · have : fmt = .bin := by
        rcases hf with hf | hf
        · exact hf
        · rcases bin_or_whole_bytes hh with h | h
          · exact h
          · simp at hf
            omega
      subst this
      exact .inr (.inr (.inr (.inr (.inr (.inl ⟨_, .inl rfl, by simp; omega, he⟩)))))
    · exact .inr (.inr (.inr (.inr (.inr (.inr (.inl ⟨fmt, _, r, .inl rfl, hf, by simp; omega, he⟩))))))
  | test b =>
    refine .inr (.inr (.inr (.inr (.inr (.inr (.inr (.inl ⟨b, rfl, ?_⟩)))))))
    simp only [commandResult, testResult, State.compareWith] at h
    repeat' (split at h)
    all_goals first | (cases h; done) | (cases h; rfl)
  | tcfg =>
    simp only [commandResult, tcfgResult, State.reconstruct] at h
    split at h <;> try cases h
    split at h <;> try cases h
    rename_i h1 h2
    exact .inr (.inr (.inr (.inr (.inr (.inr (.inr (.inr (.inl ⟨_, rfl, by simp, by simp; omega, by simpa using h2, rfl⟩))))))))
  | gkeyBin src =>
    simp only [commandResult, gkeyBinResult] at h
    split at h <;> cases h
    exact .inr (.inr (.inr (.inr (.inr (.inr (.inr (.inr (.inr ⟨_, _, _, .inr ⟨_, rfl⟩, rfl⟩))))))))
  | gkeyStr =>
    simp only [commandResult, gkeyStrResult] at h
    split at h <;> cases h
    exact .inr (.inr (.inr (.inr (.inr (.inr (.inr (.inr (.inr ⟨_, _, _, .inl rfl, rfl⟩))))))))

/-- Every run of one position more is one step. -/
theorem bmRun_succ (v : Bits) (i : Nat) : bmRun v (i + 1) = bmStep v i (bmRun v i) := rfl

end Sys2Proof.Machine
end

