-- ==== Sys2Proof/Laws/Step.lean ====
section
/-!
SUPPORT. Everything a step can do: complete the command in flight, or apply the host's next bus cycle.
-/

namespace Sys2Proof.Machine

/-- A due command runs. -/
theorem step_due {s : State} {w : Word} (h : s.inflight = some ⟨w, 0⟩) : step s = s.runCommand w := by
  simp only [step, State.advance, h]

/-- A due command's word that decodes runs as that command. -/
theorem step_decoded {s : State} {w : Word} {i : Instr} (h : s.inflight = some ⟨w, 0⟩)
    (hd : decode w = .ok i) : step s = exec i s := by
  rw [step_due h, State.runCommand, hd]

/-- A due word that is no command raises CommandError. -/
theorem step_undecoded {s : State} {w : Word} {e : DecodeError} (h : s.inflight = some ⟨w, 0⟩)
    (hd : decode w = .error e) : step s = .next (s.raise .commandError) := by
  rw [step_due h, State.runCommand, hd]
  rfl

theorem step_idle {s : State} (h : s.inflight = none) : step s = s.clock := by
  simp only [step, State.advance, h]

theorem step_busy {s : State} {w : Word} {k : Nat} (h : s.inflight = some ⟨w, k + 1⟩) :
    step s = (s.busyClock ⟨w, k + 1⟩).clock := by
  simp only [step, State.advance, h]

/-- The state a bus cycle is applied to: the cycle taken from the port, one clock less for a command in flight. -/
def State.beforeCycle (s : State) : State :=
  { s with
    port := s.port.tail
    inflight := s.inflight.map fun f => { f with busyLeft := f.busyLeft - 1 } }

theorem appliesCycle_iff (s : State) :
    s.appliesCycle = true ↔ s.inflight = none ∨ ∃ w k, s.inflight = some ⟨w, k + 1⟩ := by
  unfold State.appliesCycle
  cases hi : s.inflight with
  | none => simp
  | some f =>
    obtain ⟨w, k⟩ := f
    cases k with
    | zero => simp
    | succ k => simp

theorem step_cycle {s : State} (h : s.appliesCycle = true) : step s = s.beforeCycle.busCycle s.nextCycle := by
  rcases (appliesCycle_iff s).1 h with hi | ⟨w, k, hi⟩
  · rw [step_idle hi, State.clock]
    congr 1
    simp only [State.beforeCycle, hi, Option.map_none]
  · rw [step_busy hi, State.clock, State.beforeCycle, hi]
    rfl

/-- A step is a command completing, a word that is no command, or a bus cycle. -/
theorem step_cases (s : State) :
    (∃ w i, s.inflight = some ⟨w, 0⟩ ∧ decode w = .ok i ∧ step s = exec i s) ∨
    (∃ w e, s.inflight = some ⟨w, 0⟩ ∧ decode w = .error e ∧ step s = .next (s.raise .commandError)) ∨
    (s.appliesCycle = true ∧ step s = s.beforeCycle.busCycle s.nextCycle) := by
  cases hi : s.inflight with
  | none =>
    have ha := (appliesCycle_iff s).2 (.inl hi)
    exact .inr (.inr ⟨ha, step_cycle ha⟩)
  | some f =>
    obtain ⟨w, k⟩ := f
    cases k with
    | zero =>
      cases hd : decode w with
      | ok i => exact .inl ⟨w, i, rfl, hd, step_decoded hi hd⟩
      | error e => exact .inr (.inl ⟨w, e, rfl, hd, step_undecoded hi hd⟩)
    | succ k =>
      have ha := (appliesCycle_iff s).2 (.inr ⟨w, k, hi⟩)
      exact .inr (.inr ⟨ha, step_cycle ha⟩)

/-- A due command is no bus cycle. -/
theorem not_appliesCycle {s : State} {w : Word} (h : s.inflight = some ⟨w, 0⟩) : s.appliesCycle = false := by
  simp [State.appliesCycle, h]

/-- Everything a step that answers a next state can be. -/
theorem step_next_cases {s t : State} (h : step s = .next t) :
    (∃ w i, s.inflight = some ⟨w, 0⟩ ∧ decode w = .ok i ∧ exec i s = .next t) ∨
    (∃ w e, s.inflight = some ⟨w, 0⟩ ∧ decode w = .error e ∧ t = s.raise .commandError) ∨
    (s.appliesCycle = true ∧ s.beforeCycle.busCycle s.nextCycle = .next t) := by
  rcases step_cases s with ⟨w, i, hi, hd, h'⟩ | ⟨w, e, hi, hd, h'⟩ | ⟨ha, h'⟩
  · exact .inl ⟨w, i, hi, hd, by rw [← h', h]⟩
  · exact .inr (.inl ⟨w, e, hi, hd, by rw [h] at h'; exact Host.Outcome.next.inj h'⟩)
  · exact .inr (.inr ⟨ha, by rw [← h', h]⟩)

/-- A cycle without reset that is idle or a read of STATUS changes at most rdata. -/
theorem State.busCycle_quiet (s : State) {c : BusCycle} (hr : c.rst = false)
    (hc : c.sel = false ∨ (c.we = false ∧ byteAddress c.a = 0x008)) :
    ∃ d, s.busCycle c = .next { s with rdata := d } := by
  by_cases hs : c.sel = false
  · exact ⟨s.rdata, by simp [State.busCycle, hr, hs]⟩
  · obtain ⟨hw, ha⟩ := hc.resolve_left hs
    exact ⟨_, by simp [State.busCycle, hr, hw, ha, hs, BusCycle.readsStatus, Reg.offset]; rfl⟩

/-- While a command has clocks left, a step whose cycle is idle or a read of STATUS takes one of them
(70_reset_and_hazards.md R250, R251). -/
theorem step_waits {s : State} {w : Word} {k : Nat} (hf : s.inflight = some ⟨w, k + 1⟩)
    (hr : s.nextCycle.rst = false)
    (hc : s.nextCycle.sel = false ∨ (s.nextCycle.we = false ∧ byteAddress s.nextCycle.a = 0x008)) :
    ∃ d, step s = .next { s with inflight := some ⟨w, k⟩, port := s.port.tail, rdata := d } := by
  rw [step_cycle ((appliesCycle_iff s).2 (.inr ⟨w, k, hf⟩))]
  obtain ⟨d, hd⟩ := s.beforeCycle.busCycle_quiet hr hc
  exact ⟨d, by rw [hd, State.beforeCycle, hf]; rfl⟩

/-- Bit 0 of a read of STATUS is BUSY (10_state.md R23). -/
theorem State.busRead_status_busy (s : State) : (s.busRead 0x008).getLsbD 0 = s.busy := by
  rw [show (0x008 : Nat) = Reg.offset .status from rfl, State.busRead_reg]
  simp only [State.readReg, State.statusWord]
  rw [BitVec.getLsbD_append]
  simp

/-- A run takes its first step, then runs on. -/
theorem run_succ {s t : State} (k : Nat) (h : step s = .next t) :
    Host.Core.run core (k + 1) s = Host.Core.run core k t := by
  simp only [Host.Core.run]
  rw [show core.step s = .next t from h]

end Sys2Proof.Machine
end

