-- ==== Sys2Proof/Tests/Slice0.lean ====
section
/-!
SUPPORT. The model's own tests. Every expected value is copied from spec/ (95_test_vectors.md unless the comment says
otherwise); the last section shows, for each obligation with hypotheses, concrete inputs that meet them.
-/

namespace Sys2Proof.Tests

open Sys2Proof.Machine
set_option Elab.async false

/-- The outcome is a next state with the property `p`. -/
def nextIs (o : Host.Outcome State Fault Refusal) (p : State → Bool) : Bool :=
  match o with
  | .next t => p t
  | .fault _ => false
  | .refused _ => false

/-- The outcome is the fault HazardViolation. -/
def isHazard (o : Host.Outcome State Fault Refusal) : Bool :=
  match o with
  | .next _ => false
  | .fault .hazardViolation => true
  | .refused _ => false

/-- The reset state with these words stored at these byte addresses. -/
def stored (l : List (Nat × Word)) : State :=
  l.foldl (fun s p => { s with mem := Memory.writeWord s.mem p.1 p.2 }) State.reset

/-- BYTES word 0 is `w` and BCNT is `c`. -/
def bytesState (w : Word) (c : Word) : State := { stored [(0x200000, w)] with bcnt := c }

/-- TGT word 0 is `w` and TLEN is `c`. -/
def tgtState (w : Word) (c : Word) : State := { stored [(0x0C0000, w)] with tlen := c }

/-- The base configuration "G5" of 95_test_vectors.md 2.3. -/
def g5 : State :=
  { stored [(0x040000, 0x80000000), (0x080000, 0x00000012)] with n := 5, slen := 5, configured := true }

/-- The reset state with one host cycle to apply. -/
def hostState (c : BusCycle) : State := { State.reset with port := [c] }

/-! ## Well-formed and ill-formed commands (30_encoding.md R83, R87) -/

theorem test_wf_refuses_stgt_destination : (Instr.tobits (.fixed .bin) .stgt).wf = false := by decide

theorem test_wf_accepts_out_destination : (Instr.tobits .auto .out).wf = true := by decide

/-! ## Decoding: the words of V-E1, and of V-E2 -/

theorem test_decode_tobits : decode 0x00001101 = .ok (.tobits (.fixed .hex) .tgt) := by decide

theorem test_decode_tobits_auto : decode 0x00002301 = .ok (.tobits .auto .out) := by decide

theorem test_decode_frombits : decode 0x00003202 = .ok (.frombits .str .stgt) := by decide

theorem test_decode_seedint : decode 0x00000003 = .ok .seedint := by decide

theorem test_decode_ecfg : decode 0x00000004 = .ok .ecfg := by decide

theorem test_decode_get : decode 0x00010105 = .ok (.get .hex true) := by decide

theorem test_decode_get_length : decode 0x00000205 = .ok (.get .str false) := by decide

theorem test_decode_test : decode 0x00020006 = .ok (.test true) := by decide

theorem test_decode_tcfg : decode 0x00000007 = .ok .tcfg := by decide

theorem test_decode_gkeyBin : decode 0x00003008 = .ok (.gkeyBin .stgt) := by decide

theorem test_decode_gkeyStr : decode 0x00000208 = .ok .gkeyStr := by decide

theorem test_decode_gget : decode 0x00000109 = .ok (.gget .hex) := by decide

theorem test_decode_rejects_reserved_bits :
    decode 0x00040005 = .error .reservedBits ∧ decode 0x80000005 = .error .reservedBits := by decide

theorem test_decode_rejects_opcodes :
    decode 0x00000000 = .error .reservedOpcode ∧ decode 0x0000000A = .error .reservedOpcode ∧
      decode 0x000000FF = .error .reservedOpcode := by decide

theorem test_decode_rejects_fields :
    decode 0x00000305 = .error .illegalFields ∧ decode 0x00000405 = .error .illegalFields ∧
      decode 0x00003001 = .error .illegalFields ∧ decode 0x00004002 = .error .illegalFields ∧
      decode 0x00000302 = .error .illegalFields ∧ decode 0x00000104 = .error .illegalFields ∧
      decode 0x00010009 = .error .illegalFields ∧ decode 0x00000108 = .error .illegalFields ∧
      decode 0x00001208 = .error .illegalFields ∧ decode 0x00010006 = .error .illegalFields ∧
      decode 0x00020005 = .error .illegalFields ∧ decode 0x00001005 = .error .illegalFields ∧
      decode 0x00000107 = .error .illegalFields := by decide

theorem test_encode_words :
    encode (.frombits .hex .tgt) = 0x00001102 ∧ encode (.get .bin true) = 0x00010005 ∧
      encode (.test true) = 0x00020006 ∧ encode .gkeyStr = 0x00000208 := by decide

/-- The assembler text of V-E1. -/
theorem test_asm :
    (Instr.tobits .auto .out).asm = "tobits.auto out" ∧ (Instr.get .hex true).asm = "get.hex default" ∧
      (Instr.gkeyBin .stgt).asm = "gkey.bin stgt" := by decide

/-! ## The host's two questions: every row of the table decodes, and the step after reset runs it -/

theorem test_table_words_decode :
    ∀ w ∈ [1, 2, 3, 4, 5, 6, 7, 8, 0x208, 9], (decodeTableWord 32 w).isSome = true := by decide

/-- V-L8, V-L10, V-L12, V-G11 and the corner cases of V-C6 and V-B1: from reset, GET, TEST and both GKEY, SEEDINT and
ECFG report ParameterError, and the others complete. -/
theorem test_first_step_after_reset :
    (∀ w ∈ [3, 4, 5, 6, 8, 0x208],
      nextIs (step (State.reset.withFetchWord 32 w)) (fun t => t.statusWord == 0x00000308) = true) ∧
    (∀ w ∈ [1, 2, 9],
      nextIs (step (State.reset.withFetchWord 32 w)) (fun t => t.statusWord == 0x00000000) = true) ∧
    nextIs (step (State.reset.withFetchWord 32 7)) (fun t => t.statusWord == 0x00000006) = true := by
  decide +kernel

/-! ## The commands -/

/-- V-C6: "012" under AUTO is STR. -/
theorem test_tobits_auto_text :
    nextIs (exec (.tobits .auto .tgt) (bytesState 0x30313200 3))
      (fun t => t.tlen == 24 && t.busRead 0x0C0000 == 0x30313200) = true := by decide +kernel

/-- V-C8: 26 hex digits with 'g' first are a FormatError; the format check comes before the output capacity check. -/
theorem test_tobits_format_first :
    nextIs (exec (.tobits (.fixed .hex) .tgt) (bytesState 0x67000000 26)) (fun t => t.err == .formatError) = true := by
  decide +kernel

/-- V-C9: "4a", lower case. -/
theorem test_frombits_hex :
    nextIs (exec (.frombits .hex .tgt) (tgtState 0x4A000000 8))
      (fun t => t.busRead 0x200000 == 0x34610000 && t.bcnt == 2) = true := by decide +kernel

/-- V-C12: 12 bits are no whole bytes. -/
theorem test_frombits_length :
    nextIs (exec (.frombits .hex .tgt) (tgtState 0x4A000000 12))
      (fun t => t.err == .lengthError && t.bcnt == 0) = true := by decide +kernel

/-- V-L9: N = 40. -/
theorem test_seedint_wide :
    nextIs (exec .seedint { State.reset with n := 40, argVal := 0xFFFFFFFF })
      (fun t => t.busRead 0x040000 == 0x00FFFFFF && t.busRead 0x040004 == 0xFF000000 && t.slen == 40) = true := by
  decide +kernel

/-- V-L9: 0x10 needs 5 bits. -/
theorem test_seedint_length :
    nextIs (exec .seedint { State.reset with n := 4, argVal := 0x10 }) (fun t => t.err == .lengthError) = true := by
  decide +kernel

/-- V-L10: tap 5 = n is legal. -/
theorem test_ecfg_tap_n :
    nextIs (exec .ecfg { stored [(0x080000, 0x10)] with n := 5, slen := 5, tvalid := true })
      (fun t => t.configured && !t.tvalid && t.err == .success) = true := by decide +kernel

/-- V-L10: tap 33 is found, and before the length error. -/
theorem test_ecfg_tap_above :
    nextIs (exec .ecfg { stored [(0x080004, 0x1)] with n := 5, slen := 4 })
      (fun t => !t.configured && t.err == .parameterError) = true := by decide +kernel

/-- V-L2: 64 bits of the golden engine. -/
theorem test_get_golden :
    nextIs (exec (.get .bin false) { g5 with argLen := 64 })
      (fun t => t.busRead 0x100000 == 0x85763E69 && t.busRead 0x100004 == 0x0AEC7CD2 && t.olen == 64) = true := by
  decide +kernel

/-- V-L6: `get.hex`. -/
theorem test_get_hex :
    nextIs (exec (.get .hex false) { g5 with argLen := 16 })
      (fun t => t.busRead 0x100000 == 0x85760000 && t.busRead 0x200000 == 0x38353736 && t.bcnt == 4) = true := by
  decide +kernel

/-- V-L12: the golden target passes. -/
theorem test_test_passes :
    nextIs (exec (.test true) { stored [(0x040000, 0x80000000), (0x080000, 0x00000012), (0x0C0000, 0x85400000)] with
      n := 5, slen := 5, configured := true, tlen := 10 }) (fun t => t.statusWord == 0x00000002) = true := by
  decide +kernel

/-- V-L12: a wrong last bit. -/
theorem test_test_differs :
    nextIs (exec (.test true) { stored [(0x040000, 0x80000000), (0x080000, 0x00000012), (0x0C0000, 0x85000000)] with
      n := 5, slen := 5, configured := true, tlen := 10 }) (fun t => t.statusWord == 0x0000040A) = true := by
  decide +kernel

/-- V-B6. -/
theorem test_tcfg_golden :
    nextIs (exec .tcfg (tgtState 0x85400000 10))
      (fun t => t.n == 5 && t.bmM == 5 && t.busRead 0x080000 == 0x12 && t.busRead 0x180000 == 0x25 &&
        t.busRead 0x1C0000 == 0x1 && t.busRead 0x140000 == 0x85400000 && t.statusWord == 0x6) = true := by
  decide +kernel

/-- V-B4, which tells the non-strict condition from the strict one. -/
theorem test_tcfg_nonstrict :
    nextIs (exec .tcfg (tgtState 0x80000000 1))
      (fun t => t.n == 1 && t.bmM == 0 && t.busRead 0x080000 == 0x1 && t.busRead 0x180000 == 0x3) = true := by
  decide +kernel

/-- V-G10: `gkey.bin tgt`. -/
theorem test_gkeyBin :
    nextIs (exec (.gkeyBin .tgt) { stored [(0x0C0000, 0x11111111), (0x0C0004, 0x22222222), (0x0C0008, 0x33333333)]
      with tlen := 96 }) (fun t => t.gs1 == 0x11111111 && t.gs2 == 0x22222222 && t.gs3 == 0x33333333) = true := by
  decide +kernel

/-- V-G10: `gkey.str`. -/
theorem test_gkeyStr :
    nextIs (exec .gkeyStr { stored [(0x200000, 0x00010203), (0x200004, 0x04050607), (0x200008, 0x08090A0B)]
      with bcnt := 12 }) (fun t => t.gs1 == 0x00010203 && t.gs2 == 0x04050607 && t.gs3 == 0x08090A0B) = true := by
  decide +kernel

/-- V-G9: `gget.hex` of 64 bits with the seeds of V-G2. -/
theorem test_gget_hex :
    nextIs (exec (.gget .hex) { State.reset with argLen := 64, gs1 := 0xFFFFFFFF, gs2 := 0xAAAAAAAA, gs3 := 0x55555555 })
      (fun t => t.busRead 0x100004 == 0x3C6DB65C && t.busRead 0x20000C == 0x62363563 && t.bcnt == 16) = true := by
  decide +kernel

/-- V-G3: 64 bits. -/
theorem test_gget_bits :
    nextIs (exec (.gget .bin) { State.reset with argLen := 64, gs1 := 0x12345678, gs2 := 0x9ABCDEF0, gs3 := 0x0F1E2D3C })
      (fun t => t.busRead 0x100000 == 0x1F3E7F74 && t.busRead 0x100004 == 0xA4515DCE) = true := by decide +kernel

/-! ## The bus and reset -/

/-- V-R1, 10_state.md R44: ID, CAP and STATUS after reset. -/
theorem test_reset_reads :
    State.reset.busRead 0x000 = 0x4C465352 ∧ State.reset.busRead 0x004 = 96 ∧ State.reset.busRead 0x008 = 0 := by
  decide +kernel

/-- V-L11: `wr N, 5` clears CONFIGURED. -/
theorem test_write_n_clears :
    nextIs (step { g5 with port := [hostWrite 0x018 5] }) (fun t => !t.configured && t.n == 5) = true := by
  decide +kernel

/-- V-R2: `wr OUT+0, 0x1234` is ignored, and a read beyond the mapped words of SEED gives 0. -/
theorem test_read_only_and_unmapped :
    step (hostState (hostWrite 0x100000 0x1234)) = .next State.reset ∧ g5.busRead 0x04000C = 0 := by
  constructor
  · rfl
  · decide +kernel

/-- 70_reset_and_hazards.md R251: a register write while BUSY = 1. -/
theorem test_busy_write_is_hazard :
    isHazard (step { hostState (hostWrite 0x010 1) with inflight := some ⟨5, 2⟩ }) = true := by decide +kernel

/-- 60_exceptions.md R219: reset aborts the command in flight. -/
theorem test_reset_aborts :
    nextIs (step { hostState hostReset with inflight := some ⟨7, 2⟩ })
      (fun t => t.inflight.isNone && t.statusWord == 0) = true := by decide +kernel

/-! ## Witnesses: inputs that meet the hypotheses of the obligations, clause by clause -/

theorem witness_IllegalWordRaisesCommandError :
    (State.reset.commandInFlight 0x80000005).inflight = some ⟨0x80000005, 0⟩ ∧
      ¬((fieldsOf 0x80000005).res = 0 ∧ LegalFields (fieldsOf 0x80000005)) ∧
      ¬((fieldsOf 0x00000305).res = 0 ∧ LegalFields (fieldsOf 0x00000305)) := by
  refine ⟨rfl, ?_, ?_⟩ <;> decide

theorem witness_StepRunsDecodedCommand :
    (State.reset.commandInFlight 5).inflight = some ⟨5, 0⟩ ∧ decode 5 = .ok (.get .bin false) := by decide

theorem witness_CmdWriteStartsCommand :
    (hostState (hostWrite 0x00C 7)).inflight = none ∧ (hostState (hostWrite 0x00C 7)).port = hostWrite 0x00C 7 :: [] ∧
      (hostWrite 0x00C 7).rst = false ∧ (hostWrite 0x00C 7).sel = true ∧ (hostWrite 0x00C 7).we = true ∧
      byteAddress (hostWrite 0x00C 7).a = 0x00C := by decide

theorem witness_BusyStatusReadShowsOldFields :
    ∃ s : State, s.inflight = some ⟨7, 0 + 1⟩ ∧ s.port = hostRead 0x008 :: [] ∧ (hostRead 0x008).rst = false ∧
      (hostRead 0x008).sel = true ∧ (hostRead 0x008).we = false ∧ byteAddress (hostRead 0x008).a = 0x008 :=
  ⟨{ hostState (hostRead 0x008) with inflight := some ⟨7, 1⟩ }, by decide⟩

/-- Both sides of the equivalence: a busy register write breaks the protocol, a busy STATUS read does not. -/
theorem witness_FaultsExactlyOnViolation :
    (State.Violates { hostState (hostWrite 0x010 1) with inflight := some ⟨7, 1⟩ }) ∧
      ¬(State.Violates { hostState (hostRead 0x008) with inflight := some ⟨7, 1⟩ }) := by
  constructor <;> unfold State.Violates <;> decide

theorem witness_ProtocolKeepsRunSafe :
    ∀ j, j < 1 → ∀ t, Host.Core.run core j (hostState (hostWrite 0x010 1)) = .next t → ¬t.Violates := by
  intro j hj t h
  obtain rfl : j = 0 := by omega
  obtain rfl : hostState (hostWrite 0x010 1) = t := by injection h
  unfold State.Violates
  decide

/-- A write, a read, a clock with no access, and no cycle given. -/
theorem witness_IdleBlockAnswersAccess :
    (hostState (hostWrite 0x010 1)).inflight = none ∧ (hostState (hostWrite 0x010 1)).port = hostWrite 0x010 1 :: [] ∧
      (hostWrite 0x010 1).rst = false ∧ (hostWrite 0x010 1).sel = true ∧ (hostWrite 0x010 1).we = true ∧
      (hostState (hostRead 0x240000)).port = hostRead 0x240000 :: [] ∧
      (hostRead 0x240000).sel = true ∧ (hostRead 0x240000).we = false ∧
      (hostState .idle).inflight = none ∧ (hostState .idle).port = .idle :: [] ∧ BusCycle.idle.rst = false ∧
      BusCycle.idle.sel = false ∧ State.reset.inflight = none ∧ State.reset.port = [] := by decide

theorem witness_ResetCycleGivesResetValues :
    ∃ s : State, s.inflight = some ⟨7, 2⟩ ∧ s.configured = true ∧ s.port = hostReset :: [] ∧
      s.appliesCycle = true ∧ hostReset.rst = true ∧ hostReset.sel = false :=
  ⟨{ hostState hostReset with inflight := some ⟨7, 2⟩, configured := true }, by decide⟩

theorem reset_bufBit (b : Buf) (i : Nat) : State.reset.bufBit b i = false := by
  simp [State.bufBit, State.bufWord, Memory.readWord, State.reset, State.resetOf, Memory.read_nil]

theorem reset_inv : State.reset.Inv where
  mem := ⟨Memory.empty_wf, by simp [State.reset, State.resetOf]⟩
  flags := ⟨by decide, by decide, by decide, fun h => absurd h (by decide), by decide⟩
  results := ⟨by decide, fun i _ _ => reset_bufBit _ i, by decide, fun i _ _ => reset_bufBit _ i, by decide,
    fun i _ _ => reset_bufBit _ i, fun i _ _ => reset_bufBit _ i⟩
  selfConsistent := fun h => absurd h (by decide)
  busy := fun f h => absurd h (by simp [State.reset, State.resetOf])

theorem witness_StepKeepsInvariant : ∃ t, State.reset.Inv ∧ step State.reset = .next t :=
  ⟨State.reset, reset_inv, rfl⟩

theorem witness_IdAndCapAreConstant :
    step (hostState (hostWrite 0x004 1)) = .next State.reset := rfl

/-- The least and the greatest legal MAXLEN. -/
theorem witness_MaxLenIsLegal :
    ∀ n ∈ [96, 262144], 96 ≤ n ∧ n ≤ 262144 ∧ n % 32 = 0 := by decide

/-- The first, a middle and the last code. -/
theorem witness_ErrorCodesInStatus :
    ∀ p ∈ [(ErrCode.success, (0 : BitVec 4)), (.commandError, 6), (.capacityError, 7)],
      (p.1, p.2) ∈ [(.success, 0), (.formatError, 1), (.lengthError, 2), (.parameterError, 3), (.validationError, 4),
        (.reconstructionError, 5), (.commandError, 6), (.capacityError, 7)] ∧
      (State.reset.raise p.1).err = p.1 := by decide

theorem witness_RegisterWriteReadsBack :
    (0x010 ∈ [0x010, 0x014, 0x018, 0x01C, 0x020, 0x024, 0x038, 0x03C, 0x040]) ∧
      (0x040 ∈ [0x010, 0x014, 0x018, 0x01C, 0x020, 0x024, 0x038, 0x03C, 0x040]) ∧
      byteAddress 0x00005 ≠ 0x010 ∧ byteAddress 0x00005 ≠ 0x008 ∧ 0x040 ≠ 0x018 ∧ 0x040 ≠ 0x01C := by decide

/-- The first and last addresses of each clause, with MAXLEN = 96. -/
theorem witness_UnmappedAndReadOnlyIgnored :
    byteAddress 0x00011 = 0x044 ∧ byteAddress 0x0FFFF = 0x03FFFC ∧ byteAddress 0x90000 = 0x240000 ∧
      byteAddress 0xFFFFF = 0x3FFFFC ∧
      (0x040000 + 4 * (State.reset.maxLen.bits / 32) ≤ byteAddress 0x10003 ∧
        byteAddress 0x1FFFF < 0x040000 + 0x40000) ∧
      byteAddress 0x60004 = 0x180000 + 4 * (State.reset.maxLen.bits / 32 + 1) ∧
      byteAddress 0x80018 = 0x200000 + 4 * (State.reset.maxLen.bits / 4) ∧
      byteAddress 0x8FFFF < 0x200000 + 0x40000 ∧
      byteAddress 0x0000D ∈ [0x000, 0x004, 0x028, 0x02C, 0x030, 0x034] ∧
      byteAddress 0x40000 = 0x100000 ∧ byteAddress 0x7FFFF = 0x1FFFFC := by decide

/-- The first and last word of SEED and TAPS, the two registers, and an address outside. -/
theorem witness_EngineWritesClearFlags :
    byteAddress 0x00006 = 0x018 ∧ byteAddress 0x00007 = 0x01C ∧
      Buf.mapped State.reset.maxLen .seed (byteAddress 0x10000) ∧
      Buf.mapped State.reset.maxLen .seed (byteAddress 0x10002) ∧
      Buf.mapped State.reset.maxLen .taps (byteAddress 0x20000) ∧
      Buf.mapped State.reset.maxLen .taps (byteAddress 0x20002) ∧
      ¬(byteAddress 0x10003 = 0x018 ∨ byteAddress 0x10003 = 0x01C ∨
        Buf.mapped State.reset.maxLen .seed (byteAddress 0x10003) ∨
        Buf.mapped State.reset.maxLen .taps (byteAddress 0x10003)) := by decide

theorem witness_WindowWriteStoresOneWord :
    Buf.mapped State.reset.maxLen .seed (byteAddress 0x10000) ∧
      Buf.mapped State.reset.maxLen .taps (byteAddress 0x20002) ∧
      Buf.mapped State.reset.maxLen .tgt (byteAddress 0x30002) ∧
      Buf.mapped State.reset.maxLen .bytes (byteAddress 0x80017) := by decide

theorem witness_WindowPacking :
    0 < State.reset.maxLen.bits ∧ 95 < State.reset.maxLen.bits ∧ 96 ≤ State.reset.maxLen.bits ∧
      (Buf.bmc, State.reset.maxLen.bits + 1) ∈ [(.seed, 96), (.taps, 96), (.tgt, 96), (.out, 96), (.stgt, 96),
        (.bmc, 97), (.bmb, 97), (.bytes, 768)] := by decide

theorem witness_AutoDetectsBinOrStr :
    (∀ x ∈ ([] : List Byte), x = 0x30 ∨ x = 0x31) ∧ ¬(∀ x ∈ ([0x30, 0x32] : List Byte), x = 0x30 ∨ x = 0x31) := by
  simp

/-- The bytes just outside the ranges are no hex digits. -/
theorem witness_HexDigitValues :
    (9#4).toNat ≤ 9 ∧ 10 ≤ (10#4).toNat ∧ (∃ x ∈ [(0x3A : Byte)], hexVal x = none) ∧ hexVal 0x2F = none ∧
      hexVal 0x40 = none ∧ hexVal 0x47 = none ∧ hexVal 0x60 = none ∧ hexVal 0x67 = none := by decide

/-- Success at the capacity (12 bytes under STR), and the three errors of V-C8 and V-C3. -/
theorem witness_TobitsDecodesBytes :
    (∀ d ∈ [(BufSel.seed, Buf.seed), (.tgt, .tgt), (.out, .out)],
      (d.1, d.2) ∈ [(.seed, .seed), (.tgt, .tgt), (.out, .out)]) ∧
    (∃ v : Bits, (bytesState 0x41420000 12).bcnt.toNat ≤ (bytesState 0x41420000 12).maxLen.bits ∧
      unpack (resolveForm (.fixed .str) ((bytesState 0x41420000 12).bytes (bytesState 0x41420000 12).bcnt.toNat))
        ((bytesState 0x41420000 12).bytes (bytesState 0x41420000 12).bcnt.toNat) = some v ∧
      v.length ≤ (bytesState 0x41420000 12).maxLen.bits) ∧
    (bytesState 0 97).bcnt.toNat > (bytesState 0 97).maxLen.bits ∧
    ((bytesState 0x61626300 3).bcnt.toNat ≤ (bytesState 0x61626300 3).maxLen.bits ∧
      unpack (resolveForm (.fixed .hex) ((bytesState 0x61626300 3).bytes (bytesState 0x61626300 3).bcnt.toNat))
        ((bytesState 0x61626300 3).bytes (bytesState 0x61626300 3).bcnt.toNat) = none) ∧
    (∃ v : Bits, (bytesState 0 13).bcnt.toNat ≤ (bytesState 0 13).maxLen.bits ∧
      unpack (resolveForm (.fixed .str) ((bytesState 0 13).bytes (bytesState 0 13).bcnt.toNat))
        ((bytesState 0 13).bytes (bytesState 0 13).bcnt.toNat) = some v ∧
      v.length > (bytesState 0 13).maxLen.bits) :=
  ⟨by decide, ⟨_, by decide, rfl, by decide +kernel⟩, by decide, ⟨by decide, by decide +kernel⟩,
    ⟨_, by decide, rfl, by decide +kernel⟩⟩

/-- Each source with its buffer and length register. -/
def sources (s : State) : List (BufSel × Buf × Word) :=
  [(.seed, .seed, s.slen), (.tgt, .tgt, s.tlen), (.out, .out, s.olen), (.stgt, .stgt, s.stlen)]

/-- TGT at the capacity, beyond it, and at no whole number of bytes; and STGT at the capacity. -/
theorem witness_FrombitsPacksBits :
    ((.tgt, .tgt, 96) ∈ sources (tgtState 0 96) ∧ (96#32).toNat ≤ (tgtState 0 96).maxLen.bits ∧
        (96#32).toNat % 8 = 0) ∧
      ((.stgt, .stgt, 96) ∈ sources { State.reset with stlen := 96 } ∧ (96#32).toNat ≤ State.reset.maxLen.bits) ∧
      ((.tgt, .tgt, 97) ∈ sources (tgtState 0 97) ∧ (97#32).toNat > (tgtState 0 97).maxLen.bits) ∧
      ((.tgt, .tgt, 12) ∈ sources (tgtState 0 12) ∧ (12#32).toNat ≤ (tgtState 0 12).maxLen.bits ∧ Fmt.hex ≠ .bin ∧
        (12#32).toNat % 8 ≠ 0) := by decide

theorem witness_StrRoundTrip :
    (tgtState 0x30310000 16).tlen.toNat ≤ (tgtState 0x30310000 16).maxLen.bits ∧
      (tgtState 0x30310000 16).tlen.toNat % 8 = 0 := by decide

theorem witness_HexRoundTrip :
    (bytesState 0x34410000 2).bcnt.toNat % 2 = 0 ∧
      4 * (bytesState 0x34410000 2).bcnt.toNat ≤ (bytesState 0x34410000 2).maxLen.bits ∧
      (∀ j, j < (bytesState 0x34410000 2).bcnt.toNat →
        (hexVal ((bytesState 0x34410000 2).byteAt j)).isSome = true) := by decide +kernel

theorem witness_TobitsStrCopiesWords :
    8 * (bytesState 0x41424344 12).bcnt.toNat ≤ (bytesState 0x41424344 12).maxLen.bits ∧
      4 * (2 + 1) ≤ (bytesState 0x41424344 12).bcnt.toNat := by decide

theorem witness_LfsrRecurrence :
    (∀ p ∈ [2, 5], 1 ≤ p ∧ p ≤ ([true, false, false, false, false] : Bits).length) ∧ 4 < 10 ∧ 5 < 10 := by decide

theorem witness_LfsrProperties :
    5 ≤ ([true, false, false, false, false] : Bits).length ∧
      ([true, false, false, false, false] : Bits).length ≤ 5 ∧ 5 ≤ 10 := by decide

/-- V-L9: N = 5 at the greatest value, N = 97, N = 0 and 0x10 in 4 bits. -/
theorem witness_SeedintLoadsInteger :
    (0 < { State.reset with n := 5, argVal := 0x1F }.n.toNat ∧
      { State.reset with n := 5, argVal := 0x1F }.n.toNat ≤ State.reset.maxLen.bits ∧
      { State.reset with n := 5, argVal := 0x1F }.argVal.toNat < 2 ^ { State.reset with n := 5 }.n.toNat) ∧
    (State.reset.n.toNat = 0) ∧
    ({ State.reset with n := 97 }.n.toNat > State.reset.maxLen.bits) ∧
    ({ State.reset with n := 4, argVal := 0x10 }.argVal.toNat ≥ 2 ^ { State.reset with n := 4, argVal := 0x10 }.n.toNat)
    := by decide

/-- V-L10: the engine G5 is legal; N = 0; N = 97; tap 6 above N = 5; SLEN = 4. -/
theorem witness_EcfgValidatesEngine :
    (0 < g5.n.toNat ∧ g5.n.toNat ≤ g5.maxLen.bits ∧
      (∀ p, p < 97 → g5.n.toNat < p → p ≤ g5.maxLen.bits → g5.bufBit .taps (p - 1) = false) ∧ g5.slen = g5.n) ∧
    State.reset.n.toNat = 0 ∧ { State.reset with n := 97 }.n.toNat > State.reset.maxLen.bits ∧
    { stored [(0x080000, 0x32)] with n := 5, slen := 5 }.bufBit .taps (6 - 1) = true ∧
    { g5 with slen := 4 }.slen ≠ { g5 with slen := 4 }.n := by decide +kernel

theorem witness_GetGeneratesKeystream :
    (g5.configured = true ∧ { g5 with argLen := 96 }.argLen.toNat ≤ g5.maxLen.bits ∧ 96 % 8 = 0) ∧
      1 = (if g5.tvalid then g5.stlen.toNat else 1) ∧ 1 % 8 ≠ 0 ∧
      State.reset.configured = false ∧ { g5 with argLen := 97 }.argLen.toNat > g5.maxLen.bits ∧
      ({ g5 with argLen := 10 }.argLen.toNat ≤ g5.maxLen.bits ∧ Fmt.hex ≠ .bin ∧
        { g5 with argLen := 10 }.argLen.toNat % 8 ≠ 0) := by decide

/-- The golden target passes, 101 fails (V-L12); no engine; no stored target; a target beyond the capacity. -/
theorem witness_TestComparesWithTarget :
    (g5.configured = true ∧ 10 ≤ g5.maxLen.bits ∧
      lfsr (g5.bits .seed g5.n.toNat) (g5.tapSet g5.n.toNat) 10 =
        { tgtState 0x85400000 10 with tlen := 10 }.bits .tgt 10 ∧
      lfsr (g5.bits .seed g5.n.toNat) (g5.tapSet g5.n.toNat) 3 ≠ (tgtState 0xA0000000 3).bits .tgt 3) ∧
    State.reset.configured = false ∧ g5.tvalid = false ∧
    { g5 with tlen := 97 }.tlen.toNat > g5.maxLen.bits := by decide +kernel

/-- A bit of SEED beyond N = 5 differs; `get.hex` of 16 bits succeeds in both states. -/
theorem witness_GetReadsOnlyTheEngine :
    ∃ s t t' : State, s = { g5 with argLen := 16 } ∧ Fmt.hex ≠ .bin ∧
      (∀ i, i < s.n.toNat → s.bufBit .seed i =
        { s with mem := Memory.writeWord s.mem 0x040000 0x80000001 }.bufBit .seed i) ∧
      (∀ i, i < s.n.toNat → s.bufBit .taps i =
        { s with mem := Memory.writeWord s.mem 0x040000 0x80000001 }.bufBit .taps i) ∧
      exec (.get .hex false) s = .next t ∧ t.err = .success ∧
      exec (.get .hex false) { s with mem := Memory.writeWord s.mem 0x040000 0x80000001 } = .next t' := by
  obtain ⟨t', ht'⟩ :=
    exec_next (.get .hex false) { g5 with argLen := 16, mem := Memory.writeWord g5.mem 0x040000 0x80000001 }
  exact ⟨_, _, t', rfl, by decide, by decide +kernel, by decide +kernel, rfl, by decide +kernel, ht'⟩

/-- V-B6: a step with no change, one with a length change and one without, by their discrepancies. -/
theorem witness_BmStepFollowsRules :
    ∃ v : Bits, 7 < v.length ∧
      discrepancy v 2 (bmRun v 2).c (bmRun v 2).l = false ∧
      (discrepancy v 5 (bmRun v 5).c (bmRun v 5).l = true ∧ 2 * (bmRun v 5).l ≤ 5) ∧
      (discrepancy v 7 (bmRun v 7).c (bmRun v 7).l = true ∧ ¬2 * (bmRun v 7).l ≤ 7) :=
  ⟨[true, false, false, false, false, true, false, true, false, true], by decide +kernel⟩

/-- The first and the last position of a target of one bit. -/
theorem witness_BmBounds : 0 ≤ ([true] : Bits).length ∧ 1 ≤ ([true] : Bits).length := by decide

theorem witness_BmFindsLinearComplexity :
    (∀ p ∈ [2, 5], 1 ≤ p ∧ p ≤ ([true, false, false, false, false] : Bits).length) ∧
      lfsr [true, false, false, false, false] [2, 5] 10 =
        [true, false, false, false, false, true, false, true, false, true] := by decide +kernel

theorem witness_BmRecoversTrueComplexity :
    (∀ p ∈ [1], 1 ≤ p ∧ p ≤ ([true] : Bits).length) ∧ 2 * ([true] : Bits).length ≤ ([true, true] : Bits).length ∧
      lfsr [true] [1] ([true, true] : Bits).length = [true, true] ∧
      (∀ (seed' : Bits) (taps' : List Nat), seed'.length < ([true] : Bits).length →
        (∀ p ∈ taps', 1 ≤ p ∧ p ≤ seed'.length) → ∃ k, lfsr seed' taps' k ≠ lfsr [true] [1] k) := by
  refine ⟨by decide, by decide, by decide +kernel, fun seed' taps' h ht => ⟨1, ?_⟩⟩
  obtain rfl : seed' = [] := List.length_eq_zero_iff.mp (by simpa using h)
  cases taps' with
  | nil => decide
  | cons p r => exact absurd (ht p (by simp)) (by simp; omega)

/-- V-B6 and V-B10. -/
theorem witness_TcfgCommitsReconstruction :
    ((tgtState 0x85400000 10).tlen.toNat ≤ (tgtState 0x85400000 10).maxLen.bits ∧
      ∃ v st, v = (tgtState 0x85400000 10).bits .tgt 10 ∧ st = bmFinal v ∧
        lfsr (bmSeed v st) (bmTaps st) v.length = v) ∧
      (tgtState 0 97).tlen.toNat > (tgtState 0 97).maxLen.bits :=
  ⟨⟨by decide, _, _, rfl, rfl, by decide +kernel⟩, by decide⟩

theorem witness_TcfgAlwaysSucceeds :
    (tgtState 0 0).tlen.toNat ≤ (tgtState 0 0).maxLen.bits ∧
      (tgtState 0 96).tlen.toNat ≤ (tgtState 0 96).maxLen.bits := by decide

theorem witness_TestPassesAfterTcfg :
    ∃ t, exec .tcfg (tgtState 0x85400000 10) = .next t ∧ t.err = .success := ⟨_, rfl, rfl⟩

theorem witness_GeffeCombinesEngines : 0 < 64 ∧ 63 < 64 ∧ 31 < 32 := by decide

theorem witness_GgetGeneratesKeystream :
    ({ State.reset with argLen := 96 }.argLen.toNat ≤ State.reset.maxLen.bits ∧ 96 % 8 = 0) ∧
      { State.reset with argLen := 97 }.argLen.toNat > State.reset.maxLen.bits ∧
      ({ State.reset with argLen := 12 }.argLen.toNat ≤ State.reset.maxLen.bits ∧ Fmt.str ≠ .bin ∧
        { State.reset with argLen := 12 }.argLen.toNat % 8 ≠ 0) := by decide

theorem witness_GeffePrefixAndZeroSeeds : 32 ≤ 64 := by decide

theorem witness_GkeyLoadsSeeds :
    (.tgt, .tgt, 96) ∈ sources (tgtState 0 96) ∧ ((.tgt, .tgt, 95) ∈ sources (tgtState 0 95) ∧ (95 : Word) ≠ 96) ∧
      (.out, .out, 96) ∈ sources { State.reset with olen := 96 } ∧ (bytesState 0 12).bcnt = 12 ∧
      (bytesState 0 13).bcnt ≠ 12 := by decide

theorem witness_ErrorsArePrecise : ∃ t, exec .ecfg State.reset = .next t ∧ t.err ≠ .success :=
  ⟨_, rfl, by decide⟩

/-- A success, an error, and the host's two ways to clear STICKY. -/
theorem witness_StickyClearedOnlyByHost :
    (∃ t, exec (.gget .bin) State.reset = .next t ∧ t.err = .success) ∧
      (∃ t, exec .ecfg State.reset = .next t ∧ t.err ≠ .success) ∧
      (∃ t, step { hostState hostClear with sticky := true } = .next t ∧ t.sticky = false) ∧
      (∃ t, step { hostState hostReset with sticky := true } = .next t ∧ t.sticky = false) :=
  ⟨⟨_, rfl, rfl⟩, ⟨_, rfl, by decide⟩, ⟨_, rfl, rfl⟩, ⟨_, rfl, rfl⟩⟩

theorem witness_ReportsFirstFailingCheck :
    (Instr.tobits .auto .seed).wf = true ∧
      (State.reset.commandInFlight 0x00000305).inflight = some ⟨0x00000305, 0⟩ ∧
      decode 0x00000305 = .error .illegalFields := by decide

theorem witness_ErrorsOfEachCommand : ∃ t, Instr.ecfg.wf = true ∧ exec .ecfg State.reset = .next t := ⟨_, rfl, rfl⟩

theorem witness_CommandStoresOnlyItsBuffers : ∃ t, exec (.gget .hex) State.reset = .next t := ⟨_, rfl⟩

theorem witness_CommandWritesOnlyItsRegisters :
    ∃ t, exec (.gget .hex) State.reset = .next t ∧ Reg.n ≠ .status ∧ Reg.n ∉ writesTo (.gget .hex) :=
  ⟨_, rfl, by decide, by decide⟩

theorem witness_FlagsSetOnlyByConstruction :
    (∃ t, step (State.reset.commandInFlight 7) = .next t ∧ State.reset.tvalid = false ∧ t.tvalid = true) ∧
      (∃ t, step ({ g5 with configured := false }.commandInFlight 4) = .next t ∧ t.configured = true) :=
  ⟨⟨_, rfl, rfl, rfl⟩, ⟨_, rfl, rfl⟩⟩

theorem witness_StoredTargetWrittenOnlyByTcfg :
    (∃ t, step ((tgtState 0x85400000 10).commandInFlight 7) = .next t ∧
      t.stlen ≠ ((tgtState 0x85400000 10).commandInFlight 7).stlen) ∧
    (∃ t, step ((tgtState 0x85400000 10).commandInFlight 7) = .next t ∧
      Buf.mapped State.reset.maxLen .stgt 0x140000 ∧
      Memory.read t.mem 0x140000 ≠ Memory.read (tgtState 0x85400000 10).mem 0x140000) :=
  ⟨⟨_, rfl, by decide +kernel⟩, ⟨_, rfl, by decide, by decide +kernel⟩⟩

/-- A command with as many clocks as the bound allows, whose host polls STATUS in each of them and writes a register
after, and one whose host gives no cycle. -/
def pollState (port : List BusCycle) : State :=
  { State.reset with inflight := some ⟨7, Config.busyBound State.reset.maxLen⟩, port := port }

theorem pollState_inv (port : List BusCycle) : (pollState port).Inv where
  mem := ⟨Memory.empty_wf, by simp [pollState, State.reset, State.resetOf]⟩
  flags := ⟨nofun, nofun, nofun, nofun, nofun⟩
  results := ⟨Nat.zero_le _, fun i _ _ => reset_bufBit _ i, Nat.zero_le _, fun i _ _ => reset_bufBit _ i,
    Nat.le_refl _, fun i _ _ => reset_bufBit _ i, fun i _ _ => reset_bufBit _ i⟩
  selfConsistent := nofun
  busy := fun f h => by cases h; exact Nat.le_refl _

theorem witness_CommandCompletes :
    ∃ k polled, polled = List.replicate k (hostRead 0x008) ++ [hostWrite 0x010 1] ∧
      (pollState polled).Inv ∧ (pollState polled).inflight = some ⟨7, k⟩ ∧
      (∀ c ∈ (pollState polled).port.take k,
        c.rst = false ∧ (c.sel = false ∨ (c.we = false ∧ byteAddress c.a = 0x008))) ∧
      (pollState []).Inv ∧ (pollState []).inflight = some ⟨7, k⟩ ∧
      (∀ c ∈ (pollState []).port.take k,
        c.rst = false ∧ (c.sel = false ∨ (c.we = false ∧ byteAddress c.a = 0x008))) := by
  refine ⟨_, _, rfl, pollState_inv _, rfl, fun c hc => ?_, pollState_inv _, rfl, fun c hc => ?_⟩
  · replace hc := (List.take_left' List.length_replicate).subst (motive := (c ∈ ·)) hc
    rw [List.eq_of_mem_replicate hc]
    decide
  · simp [pollState] at hc

end Sys2Proof.Tests
end

section
/-! The scope statements (00_scope.md): MAXLEN. -/

namespace Sys2Proof

/-- Settles O15: the bounds hold of the type `MaxLen` itself, and `State.resetOf` takes any legal number. -/
theorem maxLenIsLegal : Obligations.MaxLenIsLegal := by
  unfold Obligations.MaxLenIsLegal
  constructor
  · intro s
    obtain ⟨hge, hle⟩ := s.maxLen.bits_bounds
    exact ⟨hge, hle, s.maxLen.bits_mod⟩
  · intro n hge hle hmod
    obtain ⟨m, hm⟩ := MaxLen.every_legal n hge hle hmod
    exact ⟨m, hm⟩

end Sys2Proof
end

section
/-!
What an operation leaves unchanged: the frames in the buffers (`StoresOnly`, 20_memory.md R62) and in the registers
(`WritesOnly`, 10_state.md R20) of the operations of the model, of every command and of the host's accesses.
-/

namespace Sys2Proof.Machine

variable {s t u : State}

/-! ### Buffers -/

theorem StoresOnly.of_mem_eq (bs : List Buf) (h : t.mem = s.mem) : StoresOnly bs s t := fun a _ => by rw [h]

theorem StoresOnly.mono {bs bs' : List Buf} (h : StoresOnly bs s t) (hsub : bs ⊆ bs') : StoresOnly bs' s t :=
  fun a ha => h a fun b hb => ha b (hsub hb)

theorem StoresOnly.trans {bs : List Buf} (h : StoresOnly bs s t) (h' : StoresOnly bs t u)
    (hm : t.maxLen = s.maxLen) : StoresOnly bs s u :=
  fun a ha => (h' a (by rwa [hm])).trans (h a ha)

/-- The bytes of a window that is not among the stored ones. -/
theorem StoresOnly.read_eq {bs : List Buf} {b : Buf} {a : Nat} (h : StoresOnly bs s t) (hb : b ∉ bs)
    (ha : Buf.mapped s.maxLen b a) : Memory.read t.mem a = Memory.read s.mem a :=
  h a fun _ hb' ha' => hb (Buf.mapped_unique ha ha' ▸ hb')

theorem StoresOnly.bufBit_eq {bs : List Buf} {b : Buf} {i : Nat} (h : StoresOnly bs s t) (hb : b ∉ bs)
    (hi : i < b.capacity s.maxLen) : t.bufBit b i = s.bufBit b i := by
  have hw := Buf.word_lt_of_lt_capacity hi
  have hword : t.bufWord b (i / 32) = s.bufWord b (i / 32) :=
    Memory.readWord_congr fun x h1 h2 => h.read_eq hb ⟨by omega, by omega⟩
  rw [State.bufBit, hword, State.bufBit]

theorem storesOnly_writeBits (s : State) (b : Buf) (v : Bits) : StoresOnly [b] s (s.writeBits b v) :=
  fun a ha => s.read_writeBits b v a (ha b (List.mem_singleton_self b))

theorem storesOnly_storeBits (s : State) (b : BufSel) (v : Bits) : StoresOnly [bufOf b] s (s.storeBits b v) :=
  fun a ha => by rw [s.storeBits_mem, storesOnly_writeBits s _ v a ha]

theorem storesOnly_storeBytes (s : State) (v : List Byte) : StoresOnly [.bytes] s (s.storeBytes v) :=
  fun a ha => s.read_writeBytes v a (ha _ (List.mem_singleton_self _))

theorem storesOnly_storeWord (s : State) {b : Buf} {k : Nat} (w : Word) (hk : k < b.words s.maxLen) :
    StoresOnly [b] s (s.storeWord b k w) := by
  intro a ha
  have hna := ha b (List.mem_singleton_self b)
  rw [State.storeWord_mem, Memory.writeWord, Memory.read_replace, if_neg]
  unfold Buf.mapped at hna
  omega

/-- A packed keystream stores to OUT and BYTES. -/
theorem storesOnly_storeBits_storeBytes (s : State) (v : Bits) (r : List Byte) :
    StoresOnly [.out, .bytes] s ((s.storeBits .out v).storeBytes r) :=
  ((storesOnly_storeBits s .out v).mono (by simp)).trans ((storesOnly_storeBytes _ r).mono (by simp)) (by simp)

/-- One more buffer written, of those allowed. -/
theorem StoresOnly.writeBits {bs : List Buf} {b : Buf} (h : StoresOnly bs s t) (hm : t.maxLen = s.maxLen)
    (hb : b ∈ bs) (v : Bits) : StoresOnly bs s (t.writeBits b v) :=
  h.trans ((storesOnly_writeBits t b v).mono (by simpa using hb)) hm

theorem storesOnly_commitReconstruction (s : State) (v : Bits) (st : BmState) :
    StoresOnly [.seed, .taps, .stgt, .bmc, .bmb] s (s.commitReconstruction v st) := by
  have hseed : StoresOnly [.seed, .taps, .stgt, .bmc, .bmb] s (s.writeBits .seed (bmSeed v st)) :=
    (storesOnly_writeBits s .seed _).mono (by simp)
  have htaps := hseed.writeBits (by simp) (b := .taps) (by simp) (tapMask (bmTaps st) st.l)
  have hstgt := htaps.writeBits (by simp) (b := .stgt) (by simp) v
  have hbmc := hstgt.writeBits (by simp) (b := .bmc) (by simp) st.c
  have hbmb := hbmc.writeBits (by simp) (b := .bmb) (by simp) st.b
  intro a ha
  rw [s.commitReconstruction_mem, hbmb a ha]

/-- The buffers the host can write (20_memory.md R62). -/
def hostBufs : List Buf := allBufs.filter Buf.hostWrites

theorem mem_hostBufs {b : Buf} : b ∈ hostBufs ↔ b.hostWrites = true := by
  simp [hostBufs, mem_allBufs]

@[simp] theorem State.writeReg_mem (s : State) (r : Reg) (w : Word) : (s.writeReg r w).mem = s.mem := by
  cases r <;> rfl

@[simp] theorem State.writeReg_maxLen (s : State) (r : Reg) (w : Word) : (s.writeReg r w).maxLen = s.maxLen := by
  cases r <;> rfl

theorem storesOnly_busWrite (s : State) (x : Nat) (w : Word) : StoresOnly hostBufs s (s.busWrite x w) := by
  rcases s.busWrite_cases x w with ⟨r, -, hw⟩ | ⟨b, k, hb, -, -, hk, hw⟩ | ⟨-, -, hw⟩ <;> rw [hw]
  · exact .of_mem_eq _ (s.writeReg_mem r w)
  · have hsub : [b] ⊆ hostBufs := by simpa using mem_hostBufs.2 hb
    split
    · exact (storesOnly_storeWord s.clearConfig w hk).mono hsub
    · exact (storesOnly_storeWord s w hk).mono hsub
  · exact .of_mem_eq _ rfl

theorem storesTo_frombits {fmt : Fmt} (hf : fmt ≠ .bin) (src : BufSel) : storesTo (.frombits fmt src) = [.bytes] := by
  cases fmt <;> simp_all [storesTo]

/-- The results of a command that succeeds lie in its buffers. -/
theorem storesOnly_of_ok {i : Instr} (h : commandResult i s = .ok u) : StoresOnly (storesTo i) s u := by
  rcases ok_cases h with ⟨form, dst, v, rfl, hd, -, rfl⟩ | ⟨src, rfl, -, rfl⟩ | ⟨fmt, src, r, rfl, hf, rfl⟩ |
    ⟨rfl, -, rfl⟩ | ⟨rfl, -, -, -, -, rfl⟩ | ⟨v, hi, -, rfl⟩ | ⟨fmt, v, r, hi, hf, -, rfl⟩ | ⟨b, rfl, rfl⟩ |
    ⟨v, rfl, -, -, -, rfl⟩ | ⟨g1, g2, g3, -, rfl⟩
  case inl =>
    have hdst : storesTo (.tobits form dst) = [bufOf dst] := by
      cases dst <;> simp_all [storesTo]
    rw [hdst]
    exact (storesOnly_storeBits s dst v).trans (.of_mem_eq _ (by simp)) (by simp)
  · exact storesOnly_storeBits s .out _
  · rw [storesTo_frombits hf]
    exact storesOnly_storeBytes s r
  · exact storesOnly_storeBits s .seed _
  · exact .of_mem_eq _ rfl
  · obtain rfl | ⟨d, rfl⟩ := hi <;> exact storesOnly_storeBits s .out v
  · have hboth : storesTo i = [.out, .bytes] := by
      obtain rfl | ⟨d, rfl⟩ := hi <;> cases fmt <;> simp_all [storesTo]
    rw [hboth]
    exact storesOnly_storeBits_storeBytes s v r
  · exact .of_mem_eq _ rfl
  · exact storesOnly_commitReconstruction s v _
  · exact .of_mem_eq _ rfl

theorem storesOnly_exec {i : Instr} (h : exec i s = .next t) : StoresOnly (storesTo i) s t := by
  rcases exec_cases h with ⟨e, -, rfl⟩ | ⟨u, hu, rfl⟩
  · exact .of_mem_eq _ rfl
  · exact fun a ha => by rw [State.succeed_mem, storesOnly_of_ok hu a ha]

/-! ### Registers -/

/-- `t` reads as `s` in every register outside `rs` but STATUS, and has the same port output, pending cycles and free
values (log 2, 3, 4). -/
def WritesOnly (rs : List Reg) (s t : State) : Prop :=
  (∀ r, r ≠ .status → r ∉ rs → t.readReg r = s.readReg r) ∧
    t.rdata = s.rdata ∧ t.port = s.port ∧ t.fresh = s.fresh

theorem WritesOnly.mono {rs rs' : List Reg} (h : WritesOnly rs s t) (hsub : rs ⊆ rs') : WritesOnly rs' s t :=
  ⟨fun r hr hrs => h.1 r hr fun hm => hrs (hsub hm), h.2⟩

theorem WritesOnly.trans {rs : List Reg} (h : WritesOnly rs s t) (h' : WritesOnly rs t u) : WritesOnly rs s u := by
  obtain ⟨hr, hd, hp, hf⟩ := h
  obtain ⟨hr', hd', hp', hf'⟩ := h'
  exact ⟨fun r hs hm => (hr' r hs hm).trans (hr r hs hm), hd'.trans hd, hp'.trans hp, hf'.trans hf⟩

/-- The length register of the buffer that SEL names (30_encoding.md R83). -/
def lenReg : BufSel → Reg
  | .seed => .slen
  | .tgt => .tlen
  | .out => .olen
  | .stgt => .stlen

theorem writesOnly_storeBits (s : State) (b : BufSel) (v : Bits) : WritesOnly [lenReg b] s (s.storeBits b v) := by
  refine ⟨fun r hs hr => ?_, by simp, by simp, by simp⟩
  cases r with
  | status => exact absurd rfl hs
  | slen | tlen | olen | stlen => cases b <;> simp_all [State.readReg, lenReg]
  | _ => simp [State.readReg]

theorem writesOnly_storeBytes (s : State) (v : List Byte) : WritesOnly [.bcnt] s (s.storeBytes v) := by
  refine ⟨fun r hs hr => ?_, rfl, rfl, rfl⟩
  cases r <;> simp_all [State.readReg]

theorem writesOnly_setGeffeSeeds (s : State) (g1 g2 g3 : Word) :
    WritesOnly [.gs1, .gs2, .gs3] s (s.setGeffeSeeds g1 g2 g3) := by
  refine ⟨fun r hs hr => ?_, rfl, rfl, rfl⟩
  cases r <;> simp_all [State.readReg]

theorem writesOnly_commitReconstruction (s : State) (v : Bits) (st : BmState) :
    WritesOnly [.n, .slen, .stlen, .bmL, .bmM] s (s.commitReconstruction v st) := by
  refine ⟨fun r hs hr => ?_, by simp, by simp, by simp⟩
  cases r <;> simp_all [State.readReg]

/-- The flags and the ending of a command show in STATUS alone. -/
theorem WritesOnly.of_flags (rs : List Reg) (c v k : Bool) (e : ErrCode) (f : Option InFlight) :
    WritesOnly rs s { s with configured := c, tvalid := v, sticky := k, err := e, inflight := f } := by
  refine ⟨fun r hs _ => ?_, rfl, rfl, rfl⟩
  cases r <;> simp_all [State.readReg]

theorem WritesOnly.seedChanged {rs : List Reg} (h : WritesOnly rs s t) (b : BufSel) :
    WritesOnly rs s (t.seedChanged b) := by
  cases b with
  | seed => exact h.trans (.of_flags rs ..)
  | tgt | out | stgt => exact h

theorem writesTo_frombits {fmt : Fmt} (hf : fmt ≠ .bin) (src : BufSel) : writesTo (.frombits fmt src) = [.bcnt] := by
  cases fmt <;> simp_all [writesTo]

/-- The results of a command that succeeds lie in its registers. -/
theorem writesOnly_of_ok {i : Instr} (h : commandResult i s = .ok u) : WritesOnly (writesTo i) s u := by
  rcases ok_cases h with ⟨form, dst, v, rfl, hd, -, rfl⟩ | ⟨src, rfl, -, rfl⟩ | ⟨fmt, src, r, rfl, hf, rfl⟩ |
    ⟨rfl, -, rfl⟩ | ⟨rfl, -, -, -, -, rfl⟩ | ⟨v, hi, -, rfl⟩ | ⟨fmt, v, r, hi, hf, -, rfl⟩ | ⟨b, rfl, rfl⟩ |
    ⟨v, rfl, -, -, -, rfl⟩ | ⟨g1, g2, g3, hi, rfl⟩
  case inl =>
    have hdst : writesTo (.tobits form dst) = [lenReg dst] := by
      cases dst <;> simp_all [writesTo, lenReg]
    rw [hdst]
    exact (writesOnly_storeBits s dst v).seedChanged dst
  · exact writesOnly_storeBits s .out _
  · rw [writesTo_frombits hf]
    exact writesOnly_storeBytes s r
  · exact (writesOnly_storeBits s .seed _).trans (.of_flags [.slen] ..)
  · exact .of_flags [] ..
  · obtain rfl | ⟨d, rfl⟩ := hi <;> exact writesOnly_storeBits s .out v
  · have hboth : writesTo i = [.olen, .bcnt] := by
      obtain rfl | ⟨d, rfl⟩ := hi <;> cases fmt <;> simp_all [writesTo]
    rw [hboth]
    exact ((writesOnly_storeBits s .out v).mono (by simp [lenReg])).trans
      ((writesOnly_storeBytes _ r).mono (by simp))
  · exact .of_flags [] ..
  · exact writesOnly_commitReconstruction s v _
  · obtain rfl | ⟨src, rfl⟩ := hi <;> exact writesOnly_setGeffeSeeds s g1 g2 g3

theorem writesOnly_exec {i : Instr} (h : exec i s = .next t) : WritesOnly (writesTo i) s t := by
  rcases exec_cases h with ⟨e, -, rfl⟩ | ⟨u, hu, rfl⟩
  · exact .of_flags _ ..
  · exact (writesOnly_of_ok hu).trans (.of_flags _ ..)

/-- A host's write to a register shows in that register and in STATUS alone (10_state.md R42, R46). -/
theorem State.readReg_writeReg_other (s : State) {r r' : Reg} (w : Word) (hne : r' ≠ r) (hs : r' ≠ .status) :
    (s.writeReg r w).readReg r' = s.readReg r' := by
  cases r with
  | id | cap | olen | stlen | bmL | bmM => rfl
  | status | cmd =>
    cases r' with
    | status => exact absurd rfl hs
    | _ => rfl
  | argLen | argVal | n | slen | tlen | bcnt | gs1 | gs2 | gs3 =>
    cases r' <;> simp_all [State.writeReg, State.readReg]

/-! ### MAXLEN and the flags -/

/-- A command has no effect on MAXLEN (10_state.md R22). -/
theorem maxLen_of_ok {i : Instr} (h : commandResult i s = .ok u) : u.maxLen = s.maxLen := by
  rcases ok_cases h with ⟨form, dst, v, -, -, -, rfl⟩ | ⟨src, -, -, rfl⟩ | ⟨fmt, src, r, -, -, rfl⟩ |
    ⟨-, -, rfl⟩ | ⟨-, -, -, -, -, rfl⟩ | ⟨v, -, -, rfl⟩ | ⟨fmt, v, r, -, -, -, rfl⟩ | ⟨b, -, rfl⟩ |
    ⟨v, -, -, -, -, rfl⟩ | ⟨g1, g2, g3, -, rfl⟩ <;> simp

theorem step_maxLen (h : step s = .next t) : t.maxLen = s.maxLen := by
  rcases step_next_cases h with ⟨w, i, -, -, hx⟩ | ⟨w, e, -, -, rfl⟩ | ⟨-, hc⟩
  · rcases exec_cases hx with ⟨e, -, rfl⟩ | ⟨u, hu, rfl⟩
    · rfl
    · exact (State.succeed_maxLen u).trans (maxLen_of_ok hu)
  · rfl
  · rcases State.busCycle_cases hc with ⟨-, -, rfl⟩ | ⟨-, -, rfl⟩ | ⟨-, -, -, -, rfl⟩ | ⟨-, -, -, -, rfl⟩
    · rfl
    · rfl
    · exact (State.busWrite_keeps _ _ _).1
    · rfl

/-- The flags a command that succeeds leaves set: TVALID comes from TCFG, CONFIGURED from ECFG or TCFG (10_state.md
R39, R40). -/
theorem flags_of_ok {i : Instr} (h : commandResult i s = .ok u) :
    (s.tvalid = false → u.tvalid = true → i = .tcfg) ∧
      (s.configured = false → u.configured = true → i = .ecfg ∨ i = .tcfg) := by
  rcases ok_cases h with ⟨form, dst, v, -, -, -, rfl⟩ | ⟨src, -, -, rfl⟩ | ⟨fmt, src, r, -, -, rfl⟩ |
    ⟨-, -, rfl⟩ | ⟨rfl, -, -, -, -, rfl⟩ | ⟨v, -, -, rfl⟩ | ⟨fmt, v, r, -, -, -, rfl⟩ | ⟨b, -, rfl⟩ |
    ⟨v, rfl, -, -, -, rfl⟩ | ⟨g1, g2, g3, -, rfl⟩ <;> simp_all

end Sys2Proof.Machine
end

section
/-!
The invariant of the block (10_state.md R36, R41; 41_lfsr_engine.md R143): which part of it an operation that leaves the
engine, the results or the buffers alone keeps, and what each command and each bus cycle does to it.
-/

namespace Sys2Proof.Machine

variable {s t : State}

theorem MaxLen.toNat_ofNat {m : MaxLen} {k : Nat} (h : k ≤ m.bits) : (BitVec.ofNat 32 k).toNat = k := by
  have := m.bits_bounds
  rw [BitVec.toNat_ofNat, Nat.mod_eq_of_lt (by omega)]

/-! ### What a buffer that holds a vector shows -/

theorem State.Holds.bufBit_of_length_le {b : Buf} {v : Bits} {i : Nat} (h : t.Holds b v) (hv : v.length ≤ i)
    (hi : i < b.capacity t.maxLen) : t.bufBit b i = false := by
  rw [h i hi, List.getD_eq_default _ _ hv]

theorem State.Holds.bits_eq {b : Buf} {v : Bits} (h : t.Holds b v) (hv : v.length ≤ b.capacity t.maxLen) :
    t.bits b v.length = v := by
  refine ext_getD (d := false) (by simp) fun i hi => ?_
  rw [State.length_bits] at hi
  rw [State.getD_bits _ _ _ _ hi, h i (by omega)]

theorem State.HoldsBytes.bytes_eq {r : List Byte} (h : t.HoldsBytes r) (hr : r.length ≤ t.maxLen.bits) :
    t.bytes r.length = r := by
  refine ext_getD (d := 0) (by simp) fun j hj => ?_
  rw [State.length_bytes] at hj
  rw [State.getD_bytes _ _ _ hj, h j (by omega)]

/-! ### Canonical storage -/

theorem State.MemOk.of_mem_eq (h : s.MemOk) (hmem : t.mem = s.mem) (hm : t.maxLen = s.maxLen) : t.MemOk :=
  ⟨hmem ▸ h.canonical, by rw [hmem, hm]; exact h.mapped⟩

/-- A store inside a window keeps the storage canonical. -/
theorem State.MemOk.of_replace {lo k : Nat} {bs : List Byte} {b : Buf} (h : s.MemOk)
    (hmem : t.mem = Memory.replace s.mem lo k bs) (hm : t.maxLen = s.maxLen)
    (hwin : ∀ x, lo ≤ x → x < lo + k → Buf.mapped s.maxLen b x) : t.MemOk := by
  refine ⟨hmem ▸ Memory.replace_wf h.canonical lo k bs, fun c hc => ?_⟩
  rw [hm]
  rw [hmem] at hc
  rcases Memory.mem_replace hc with hold | ⟨hlo, hhi⟩
  · exact h.mapped c hold
  · exact ⟨b, hwin c.1 hlo hhi⟩

theorem State.MemOk.writeBits (h : s.MemOk) (b : Buf) (v : Bits) : (s.writeBits b v).MemOk :=
  h.of_replace rfl rfl fun _ hlo hhi => ⟨hlo, hhi⟩

theorem State.MemOk.writeBytes (h : s.MemOk) (v : List Byte) : (s.writeBytes v).MemOk := by
  refine h.of_replace (b := .bytes) rfl rfl fun x hlo hhi => ⟨hlo, ?_⟩
  have := s.maxLen.bits_mod
  simp only [Buf.words]
  omega

theorem State.MemOk.storeWord {b : Buf} {k : Nat} (h : s.MemOk) (w : Word) (hk : k < b.words s.maxLen) :
    (s.storeWord b k w).MemOk :=
  h.of_replace (b := b) rfl rfl fun x hlo hhi => ⟨by omega, by omega⟩

theorem State.MemOk.storeBits (h : s.MemOk) (b : BufSel) (v : Bits) : (s.storeBits b v).MemOk :=
  (h.writeBits (bufOf b) v).of_mem_eq (s.storeBits_mem b v) (by simp)

theorem State.MemOk.commitReconstruction (h : s.MemOk) (v : Bits) (st : BmState) :
    (s.commitReconstruction v st).MemOk :=
  (((((h.writeBits .seed _).writeBits .taps _).writeBits .stgt _).writeBits .bmc _).writeBits .bmb _).of_mem_eq
    (s.commitReconstruction_mem v st) (by simp)

/-! ### The parts of the invariant under frames -/

/-- The two states have the same capacity, flags, N and SLEN. -/
structure SameEngine (s t : State) : Prop where
  maxLen : t.maxLen = s.maxLen
  configured : t.configured = s.configured
  tvalid : t.tvalid = s.tvalid
  n : t.n = s.n
  slen : t.slen = s.slen

/-- The two states have the same capacity and the same lengths of the read-only buffers. -/
structure SameResults (s t : State) : Prop where
  maxLen : t.maxLen = s.maxLen
  olen : t.olen = s.olen
  stlen : t.stlen = s.stlen
  bmL : t.bmL = s.bmL

theorem State.FlagsOk.of_frame {bs : List Buf} (h : s.FlagsOk) (he : SameEngine s t) (hst : StoresOnly bs s t)
    (htaps : .taps ∉ bs) : t.FlagsOk := by
  obtain ⟨hm, hc, hv, hn, hsl⟩ := he
  refine ⟨?_, ?_, ?_, ?_, ?_⟩ <;> rw [hc]
  · rw [hv]
    exact h.configured_of_tvalid
  · rw [hn, hm]
    exact h.n_le
  · rw [hsl, hn]
    exact h.slen_eq_n
  · rw [hn, hm]
    intro hcon j hnj hj
    rw [hst.bufBit_eq htaps hj]
    exact h.no_tap_above hcon j hnj hj
  · rw [hv, hn]
    exact h.n_pos

theorem State.FlagsOk.of_cleared (hc : t.configured = false) (hv : t.tvalid = false) : t.FlagsOk := by
  constructor <;> simp [hc, hv]

/-- The bits of OUT from OLEN on are 0, and OLEN fits the capacity. -/
def State.OutOk (s : State) : Prop :=
  s.olen.toNat ≤ s.maxLen.bits ∧ ∀ i, s.olen.toNat ≤ i → i < s.maxLen.bits → s.bufBit .out i = false

theorem State.ResultsOk.outOk (h : s.ResultsOk) : s.OutOk := ⟨h.olen_le, h.out_zero⟩

theorem State.OutOk.of_frame {bs : List Buf} (h : s.OutOk) (hm : t.maxLen = s.maxLen) (ho : t.olen = s.olen)
    (hst : StoresOnly bs s t) (hout : .out ∉ bs) : t.OutOk := by
  unfold State.OutOk
  rw [hm, ho]
  exact ⟨h.1, fun i hi hcap => (hst.bufBit_eq hout hcap).trans (h.2 i hi hcap)⟩

theorem State.OutOk.of_holds {v : Bits} (h : t.Holds .out v) (ho : t.olen = BitVec.ofNat 32 v.length)
    (hv : v.length ≤ t.maxLen.bits) : t.OutOk := by
  unfold State.OutOk
  rw [ho, MaxLen.toNat_ofNat hv]
  exact ⟨hv, fun i hi hcap => h.bufBit_of_length_le hi hcap⟩

/-- The stored target and the coefficients are as before, and OUT is zero-filled. -/
theorem State.ResultsOk.of_outOk {bs : List Buf} (h : s.ResultsOk) (hout : t.OutOk) (hm : t.maxLen = s.maxLen)
    (hsl : t.stlen = s.stlen) (hl : t.bmL = s.bmL) (hst : StoresOnly bs s t)
    (hbs : ∀ b ∈ [Buf.stgt, .bmc, .bmb], b ∉ bs) : t.ResultsOk := by
  simp only [List.forall_mem_cons] at hbs
  obtain ⟨hstgt, hbmc, hbmb, -⟩ := hbs
  refine ⟨hout.1, hout.2, ?_, ?_, ?_, ?_, ?_⟩
  · rw [hsl, hm]
    exact h.stlen_le
  · rw [hsl, hm]
    exact fun i hi hcap => (hst.bufBit_eq hstgt hcap).trans (h.stgt_zero i hi hcap)
  · rw [hl, hsl]
    exact h.bmL_le
  · rw [hl, hm]
    exact fun j hj hcap => (hst.bufBit_eq hbmc (Nat.lt_succ_of_le hcap)).trans (h.bmc_zero j hj hcap)
  · rw [hsl, hm]
    exact fun j hj hcap => (hst.bufBit_eq hbmb (Nat.lt_succ_of_le hcap)).trans (h.bmb_zero j hj hcap)

theorem State.ResultsOk.of_frame {bs : List Buf} (h : s.ResultsOk) (hr : SameResults s t) (hst : StoresOnly bs s t)
    (hbs : ∀ b ∈ [Buf.out, .stgt, .bmc, .bmb], b ∉ bs) : t.ResultsOk := by
  obtain ⟨hout, hrest⟩ := List.forall_mem_cons.1 hbs
  exact h.of_outOk (h.outOk.of_frame hr.maxLen hr.olen hst hout) hr.maxLen hr.stlen hr.bmL hst hrest

/-- Under the invariant the stored target and the engine lie within the capacity, so that a store elsewhere does not
reach them. -/
theorem State.SelfConsistent.of_frame {bs : List Buf} (h : s.Inv) (he : SameEngine s t) (hsl : t.stlen = s.stlen)
    (hst : StoresOnly bs s t) (hbs : ∀ b ∈ [Buf.seed, .taps, .stgt], b ∉ bs) : t.SelfConsistent := by
  intro hv
  rw [he.tvalid] at hv
  simp only [List.forall_mem_cons] at hbs
  obtain ⟨hseed, htaps, hstgt, -⟩ := hbs
  have hn := h.flags.n_le (h.flags.configured_of_tvalid hv)
  have hlen := h.results.stlen_le
  rw [hsl, State.engineOutput_congr he.n (fun i hi => hst.bufBit_eq hseed (hi.trans_le hn))
    (fun i hi => hst.bufBit_eq htaps (hi.trans_le hn)), h.selfConsistent hv]
  exact (State.bits_congr fun i hi => hst.bufBit_eq hstgt (hi.trans_le hlen)).symm

theorem State.SelfConsistent.of_not_tvalid (h : t.tvalid = false) : t.SelfConsistent := by
  intro hv
  rw [h] at hv
  cases hv

theorem State.BusyOk.of_inflight (h : s.BusyOk) (hm : t.maxLen = s.maxLen) (hi : t.inflight = s.inflight) :
    t.BusyOk := by
  intro f hf
  rw [hm]
  exact h f (hi ▸ hf)

theorem State.BusyOk.of_idle (h : t.inflight = none) : t.BusyOk := by
  intro f hf
  rw [h] at hf
  cases hf

/-! ### The invariant after each operation -/

/-- The engine and the results as before: only TGT and BYTES may differ. -/
theorem State.Inv.of_frame (h : s.Inv) (hmem : t.MemOk) (hbusy : t.BusyOk) (he : SameEngine s t)
    (hr : SameResults s t) (hst : StoresOnly [.tgt, .bytes] s t) : t.Inv where
  mem := hmem
  flags := h.flags.of_frame he hst (by simp)
  results := h.results.of_frame hr hst (by simp)
  selfConsistent := .of_frame h he hr.stlen hst (by simp)
  busy := hbusy

/-- The memory as before too. -/
theorem State.Inv.of_mem_eq (h : s.Inv) (hmem : t.mem = s.mem) (hbusy : t.BusyOk) (he : SameEngine s t)
    (hr : SameResults s t) : t.Inv :=
  h.of_frame (h.mem.of_mem_eq hmem he.maxLen) hbusy he hr (.of_mem_eq _ hmem)

/-- An operation that clears the flags may store to every buffer the host can write (10_state.md R42). -/
theorem State.Inv.of_cleared (h : s.Inv) (hmem : t.MemOk) (hbusy : t.BusyOk) (hc : t.configured = false)
    (hv : t.tvalid = false) (hr : SameResults s t) (hst : StoresOnly hostBufs s t) : t.Inv where
  mem := hmem
  flags := .of_cleared hc hv
  results := h.results.of_frame hr hst (by decide)
  selfConsistent := .of_not_tvalid hv
  busy := hbusy

theorem State.Inv.raise (h : s.Inv) (e : ErrCode) : (s.raise e).Inv :=
  h.of_mem_eq rfl (.of_idle rfl) ⟨rfl, rfl, rfl, rfl, rfl⟩ ⟨rfl, rfl, rfl, rfl⟩

theorem State.Inv.succeed (h : s.Inv) : s.succeed.Inv :=
  h.of_mem_eq rfl (.of_idle rfl) ⟨rfl, rfl, rfl, rfl, rfl⟩ ⟨rfl, rfl, rfl, rfl⟩

theorem State.Inv.answerRead (h : s.Inv) (x : Nat) : (s.answerRead x).Inv :=
  h.of_mem_eq rfl (h.busy.of_inflight rfl rfl) ⟨rfl, rfl, rfl, rfl, rfl⟩ ⟨rfl, rfl, rfl, rfl⟩

theorem State.Inv.setGeffeSeeds (h : s.Inv) (g1 g2 g3 : Word) : (s.setGeffeSeeds g1 g2 g3).Inv :=
  h.of_mem_eq rfl (h.busy.of_inflight rfl rfl) ⟨rfl, rfl, rfl, rfl, rfl⟩ ⟨rfl, rfl, rfl, rfl⟩

/-- One clock less keeps the bound of 70_reset_and_hazards.md R253. -/
theorem State.BusyOk.beforeCycle (h : s.BusyOk) : s.beforeCycle.BusyOk := by
  intro f hf
  obtain ⟨g, hg, rfl⟩ := Option.map_eq_some_iff.1 hf
  exact (Nat.sub_le _ _).trans (h g hg)

theorem State.Inv.beforeCycle (h : s.Inv) : s.beforeCycle.Inv :=
  h.of_mem_eq rfl h.busy.beforeCycle ⟨rfl, rfl, rfl, rfl, rfl⟩ ⟨rfl, rfl, rfl, rfl⟩

theorem State.bufWord_of_mem_nil (h : s.mem = []) (b : Buf) (k : Nat) : s.bufWord b k = 0 := by
  simp [State.bufWord, h, Memory.readWord]

theorem State.bufBit_resetCycle (s : State) (b : Buf) (i : Nat) : s.resetCycle.bufBit b i = false := by
  rw [State.bufBit, State.bufWord_of_mem_nil rfl]
  simp

/-- The reset values meet the invariant (10_state.md R44), whatever the capacity and the model's own fields. -/
theorem State.inv_resetCycle (s : State) : s.resetCycle.Inv where
  mem := ⟨Memory.empty_wf, by simp⟩
  flags := .of_cleared rfl rfl
  results := by constructor <;> simp [State.bufBit_resetCycle]
  selfConsistent := .of_not_tvalid rfl
  busy := .of_idle rfl

/-! ### Host writes -/

/-- A CMD write starts a command with clocks within the bound (70_reset_and_hazards.md R253, log 3). -/
theorem State.BusyOk.issue (s : State) (w : Word) : (s.issue w).BusyOk := by
  intro f hf
  obtain rfl := Option.some.inj hf
  exact Nat.min_le_right _ _

theorem State.Inv.clearConfig (h : s.Inv) : s.clearConfig.Inv :=
  h.of_cleared (h.mem.of_mem_eq rfl rfl) (h.busy.of_inflight rfl rfl) rfl rfl ⟨rfl, rfl, rfl, rfl⟩
    (.of_mem_eq _ rfl)

theorem State.Inv.writeReg (h : s.Inv) (r : Reg) (w : Word) : (s.writeReg r w).Inv := by
  cases r with
  | n | slen =>
    exact h.of_cleared (h.mem.of_mem_eq rfl rfl) (h.busy.of_inflight rfl rfl) rfl rfl ⟨rfl, rfl, rfl, rfl⟩
      (.of_mem_eq _ rfl)
  | cmd => exact h.of_mem_eq rfl (.issue s w) ⟨rfl, rfl, rfl, rfl, rfl⟩ ⟨rfl, rfl, rfl, rfl⟩
  | id | cap | olen | stlen | bmL | bmM => exact h
  | status | argLen | argVal | tlen | bcnt | gs1 | gs2 | gs3 =>
    exact h.of_mem_eq rfl (h.busy.of_inflight rfl rfl) ⟨rfl, rfl, rfl, rfl, rfl⟩ ⟨rfl, rfl, rfl, rfl⟩

/-- A word stored to TGT or BYTES. -/
theorem State.Inv.storeWord_data {b : Buf} {k : Nat} (h : s.Inv) (hb : b ∈ [Buf.tgt, .bytes]) (w : Word)
    (hk : k < b.words s.maxLen) : (s.storeWord b k w).Inv :=
  h.of_frame (h.mem.storeWord w hk) (h.busy.of_inflight rfl rfl) ⟨rfl, rfl, rfl, rfl, rfl⟩ ⟨rfl, rfl, rfl, rfl⟩
    ((storesOnly_storeWord s w hk).mono (by simpa using hb))

/-- A word stored to a window the host can write while the flags are clear. -/
theorem State.Inv.storeWord_cleared {b : Buf} {k : Nat} (h : s.clearConfig.Inv) (hb : b.hostWrites = true) (w : Word)
    (hk : k < b.words s.maxLen) : (s.clearConfig.storeWord b k w).Inv :=
  h.of_cleared (h.mem.storeWord w hk) (h.busy.of_inflight rfl rfl) rfl rfl ⟨rfl, rfl, rfl, rfl⟩
    ((storesOnly_storeWord _ w hk).mono (by simpa using mem_hostBufs.2 hb))

theorem State.Inv.busWrite (h : s.Inv) (x : Nat) (w : Word) : (s.busWrite x w).Inv := by
  rcases s.busWrite_cases x w with ⟨r, -, hw⟩ | ⟨b, k, hb, -, -, hk, hw⟩ | ⟨-, -, hw⟩ <;> rw [hw]
  · exact h.writeReg r w
  · split
    · exact h.clearConfig.storeWord_cleared hb w hk
    · have hdata : b ∈ [Buf.tgt, .bytes] := by cases b <;> simp_all [Buf.hostWrites]
      exact h.storeWord_data hdata w hk
  · exact h

theorem State.Inv.busCycle {c : BusCycle} (h : s.Inv) (hc : s.busCycle c = .next t) : t.Inv := by
  rcases State.busCycle_cases hc with ⟨-, -, rfl⟩ | ⟨-, -, rfl⟩ | ⟨-, -, -, -, rfl⟩ | ⟨-, -, -, -, rfl⟩
  · exact s.inv_resetCycle
  · exact h
  · exact h.busWrite _ _
  · exact h.answerRead _

/-! ### Commands -/

theorem State.Inv.storeBytes (h : s.Inv) (r : List Byte) : (s.storeBytes r).Inv :=
  h.of_frame ((h.mem.writeBytes r).of_mem_eq rfl rfl) (h.busy.of_inflight rfl rfl) ⟨rfl, rfl, rfl, rfl, rfl⟩
    ⟨rfl, rfl, rfl, rfl⟩ ((storesOnly_storeBytes s r).mono (by simp))

theorem State.Inv.storeBits_tgt (h : s.Inv) (v : Bits) : (s.storeBits .tgt v).Inv :=
  h.of_frame (h.mem.storeBits .tgt v) (h.busy.of_inflight rfl rfl) ⟨rfl, rfl, rfl, rfl, rfl⟩
    ⟨rfl, rfl, rfl, rfl⟩ ((storesOnly_storeBits s .tgt v).mono (by simp))

/-- A new seed clears the flags (40_codec.md R101, 41_lfsr_engine.md R136). -/
theorem State.Inv.storeBits_seed (h : s.Inv) (v : Bits) : (s.storeBits .seed v).clearConfig.Inv :=
  h.of_cleared ((h.mem.storeBits .seed v).of_mem_eq rfl rfl) (h.busy.of_inflight rfl rfl) rfl rfl
    ⟨rfl, rfl, rfl, rfl⟩ (((storesOnly_storeBits s .seed v).mono (by decide)).trans (.of_mem_eq _ rfl) rfl)

theorem State.holds_storeBits_self (s : State) (b : BufSel) (v : Bits) : (s.storeBits b v).Holds (bufOf b) v :=
  State.holds_mem (s.holds_writeBits_self (bufOf b) v) (s.storeBits_mem b v) (by simp)

/-- A new output within the capacity. -/
theorem State.Inv.storeBits_out {v : Bits} (h : s.Inv) (hv : v.length ≤ s.maxLen.bits) :
    (s.storeBits .out v).Inv where
  mem := h.mem.storeBits .out v
  flags := h.flags.of_frame ⟨rfl, rfl, rfl, rfl, rfl⟩ (storesOnly_storeBits s .out v) (by simp)
  results := h.results.of_outOk (.of_holds (s.holds_storeBits_self .out v) rfl hv) rfl rfl rfl
    (storesOnly_storeBits s .out v) (by simp)
  selfConsistent := .of_frame h ⟨rfl, rfl, rfl, rfl, rfl⟩ rfl (storesOnly_storeBits s .out v) (by simp)
  busy := h.busy.of_inflight rfl rfl

/-- The bits of TAPS from `n` on are 0 when ECFG's tap check passes (41_lfsr_engine.md R138). -/
theorem State.bufBit_taps_of_not_tapAbove {n j : Nat} (h : s.tapAbove n = false) (hn : n ≤ j)
    (hj : j < s.maxLen.bits) : s.bufBit .taps j = false := by
  by_contra htap
  have habove := (s.tapAbove_iff n).2 ⟨j + 1, by omega, by omega, by simpa using htap⟩
  rw [h] at habove
  cases habove

/-- ECFG's checks are the flag invariants (41_lfsr_engine.md R138, 10_state.md R41). -/
theorem State.Inv.configure (h : s.Inv) (hpos : 0 < s.n.toNat) (hn : s.n.toNat ≤ s.maxLen.bits)
    (htap : s.tapAbove s.n.toNat = false) (hsl : s.slen = s.n) :
    { s with configured := true, tvalid := false }.Inv where
  mem := h.mem.of_mem_eq rfl rfl
  flags := ⟨fun _ => rfl, fun _ => hn, fun _ => hsl, fun _ _ => State.bufBit_taps_of_not_tapAbove htap,
    fun _ _ => hpos⟩
  results := h.results.of_frame (bs := []) ⟨rfl, rfl, rfl, rfl⟩ (.of_mem_eq _ rfl) (by simp)
  selfConsistent := .of_not_tvalid rfl
  busy := h.busy.of_inflight rfl rfl

end Sys2Proof.Machine
end

section
/-!
The bounds on the Berlekamp–Massey variables (42_berlekamp_massey.md R167), and that the commit of a reconstruction
makes the block self-consistent (R168, R169; 10_state.md R41).
-/

namespace Sys2Proof.Machine

variable {s : State}

/-- The bounds before position `i`: C has constant term 1 and degree at most L, B has degree at most `m + 1 - L`,
which was L before the last length change. -/
structure BmState.Bounded (st : BmState) (i : Nat) : Prop where
  l_le : st.l ≤ i
  l_le_m : (st.l : Int) ≤ st.m + 1
  m_lt : st.m < i
  c_const : st.c.getD 0 false = true
  c_degree : ∀ j, st.l < j → st.c.getD j false = false
  b_degree : ∀ j : Nat, st.m + 1 - st.l < j → st.b.getD j false = false

theorem bmInit_bounded : bmInit.Bounded 0 where
  l_le := Nat.le_refl 0
  l_le_m := by decide
  m_lt := by decide
  c_const := rfl
  c_degree := fun j hj => List.getD_eq_default _ _ hj
  b_degree := fun j hj => List.getD_eq_default _ _ (by simp [bmInit] at hj ⊢; omega)

/-- The update of R164 keeps the constant term and has degree at most the larger of L and `i + 1 - L`. -/
theorem BmState.Bounded.update {st : BmState} {i : Nat} (h : st.Bounded i) :
    (polyAdd st.c (polyShift (i - st.m).toNat st.b)).getD 0 false = true ∧
      ∀ j, st.l < j → i + 1 - st.l < j →
        (polyAdd st.c (polyShift (i - st.m).toNat st.b)).getD j false = false := by
  have hm := h.m_lt
  have hlm := h.l_le_m
  constructor
  · rw [getD_polyAdd, getD_polyShift, h.c_const, decide_eq_false (by omega), Bool.false_and, Bool.xor_false]
  · intro j hl hi
    have hb : (decide ((i - st.m).toNat ≤ j) && st.b.getD (j - (i - st.m).toNat) false) = false := by
      by_cases hj : (i - st.m).toNat ≤ j
      · rw [h.b_degree _ (by omega), Bool.and_false]
      · rw [decide_eq_false hj, Bool.false_and]
    rw [getD_polyAdd, getD_polyShift, h.c_degree j hl, hb, Bool.xor_false]

theorem BmState.Bounded.step {st : BmState} {i : Nat} (h : st.Bounded i) (v : Bits) :
    (bmStep v i st).Bounded (i + 1) := by
  have hl := h.l_le
  have hm := h.m_lt
  obtain ⟨hconst, hdegree⟩ := h.update
  unfold bmStep
  split
  · dsimp only
    split
    case isTrue hgrow =>
      exact ⟨by dsimp only; omega, by dsimp only; omega, by dsimp only; omega, hconst,
        fun j hj => hdegree j (by dsimp only at hj; omega) hj,
        fun j hj => h.c_degree j (by dsimp only at hj; omega)⟩
    case isFalse hkeep =>
      exact ⟨by dsimp only; omega, h.l_le_m, by dsimp only; omega, hconst,
        fun j hj => hdegree j hj (by dsimp only at hj; omega), h.b_degree⟩
  · exact ⟨by omega, h.l_le_m, by omega, h.c_const, h.c_degree, h.b_degree⟩

theorem bmRun_bounded (v : Bits) (i : Nat) : (bmRun v i).Bounded i := by
  induction i with
  | zero => exact bmInit_bounded
  | succ i ih =>
    rw [bmRun_succ]
    exact ih.step v

/-- The five buffers after the commit of a reconstruction (42_berlekamp_massey.md R168). -/
theorem State.commitReconstruction_holds (s : State) (v : Bits) (st : BmState) :
    (s.commitReconstruction v st).Holds .seed (bmSeed v st) ∧
    (s.commitReconstruction v st).Holds .taps (tapMask (bmTaps st) st.l) ∧
    (s.commitReconstruction v st).Holds .stgt v ∧
    (s.commitReconstruction v st).Holds .bmc st.c ∧
    (s.commitReconstruction v st).Holds .bmb st.b := by
  have hmem := s.commitReconstruction_mem v st
  refine ⟨State.holds_mem ?_ hmem (by simp), State.holds_mem ?_ hmem (by simp), State.holds_mem ?_ hmem (by simp),
    State.holds_mem ?_ hmem (by simp), State.holds_mem ?_ hmem (by simp)⟩
  · exact State.holds_writeBits_other (by decide) _ <| State.holds_writeBits_other (by decide) _ <|
      State.holds_writeBits_other (by decide) _ <| State.holds_writeBits_other (by decide) _ <|
      State.holds_writeBits_self _ _ _
  · exact State.holds_writeBits_other (by decide) _ <| State.holds_writeBits_other (by decide) _ <|
      State.holds_writeBits_other (by decide) _ <| State.holds_writeBits_self _ _ _
  · exact State.holds_writeBits_other (by decide) _ <| State.holds_writeBits_other (by decide) _ <|
      State.holds_writeBits_self _ _ _
  · exact State.holds_writeBits_other (by decide) _ <| State.holds_writeBits_self _ _ _
  · exact State.holds_writeBits_self _ _ _

/-- The tap set read back from its mask. -/
theorem State.tapSet_of_holds_tapMask {st : BmState} (h : s.Holds .taps (tapMask (bmTaps st) st.l))
    (hl : st.l ≤ s.maxLen.bits) : s.tapSet st.l = bmTaps st := by
  unfold State.tapSet bmTaps
  refine List.filter_congr fun p hp => ?_
  obtain ⟨a, ha, rfl⟩ := List.mem_map.1 hp
  have ha := List.mem_range.1 ha
  rw [Nat.add_sub_cancel, h a (ha.trans_le hl), getD_tapMask, decide_eq_true ha, Bool.true_and]
  simp only [mem_bmTaps]
  simp only [Nat.le_add_left, true_and, show a + 1 ≤ st.l from ha, Bool.decide_eq_true]

/-- What the engine generates after the commit is what the reconstruction's self-check generated. -/
theorem State.engineOutput_commitReconstruction {v : Bits} {st : BmState} (hl : st.l ≤ v.length)
    (hv : v.length ≤ s.maxLen.bits) (len : Nat) :
    (s.commitReconstruction v st).engineOutput len = lfsr (bmSeed v st) (bmTaps st) len := by
  obtain ⟨hseed, htaps, -⟩ := s.commitReconstruction_holds v st
  have hcap : st.l ≤ (s.commitReconstruction v st).maxLen.bits := by simpa using hl.trans hv
  have hlen := length_bmSeed v st hl
  have hbits := hseed.bits_eq (by rw [hlen]; exact hcap)
  rw [hlen] at hbits
  rw [State.engineOutput, State.commitReconstruction_n, MaxLen.toNat_ofNat hcap, hbits,
    State.tapSet_of_holds_tapMask htaps hcap]

theorem State.FlagsOk.commitReconstruction (s : State) (v : Bits) {st : BmState} (hl : st.l ≤ s.maxLen.bits) :
    (s.commitReconstruction v st).FlagsOk := by
  obtain ⟨-, htaps, -⟩ := s.commitReconstruction_holds v st
  have hn : (s.commitReconstruction v st).n.toNat = st.l := by simpa using MaxLen.toNat_ofNat hl
  refine ⟨fun _ => by simp, fun _ => by rwa [hn, State.commitReconstruction_maxLen], fun _ => by simp,
    fun _ j hj hcap => ?_, by simp⟩
  rw [htaps j hcap, getD_tapMask, decide_eq_false (by omega), Bool.false_and]

/-- The lengths of the target and of C fit, and no bit beyond them is set (42_berlekamp_massey.md R167). -/
theorem State.ResultsOk.commitReconstruction {v : Bits} {st : BmState} (h : s.ResultsOk) (hst : st.Bounded v.length)
    (hv : v.length ≤ s.maxLen.bits) : (s.commitReconstruction v st).ResultsOk := by
  obtain ⟨-, -, hstgt, hbmc, hbmb⟩ := s.commitReconstruction_holds v st
  have hl := hst.l_le
  have hlm := hst.l_le_m
  have hmv := hst.m_lt
  have hstlen : (s.commitReconstruction v st).stlen.toNat = v.length := by simpa using MaxLen.toNat_ofNat hv
  have hbmL : (s.commitReconstruction v st).bmL.toNat = st.l := by simpa using MaxLen.toNat_ofNat (hl.trans hv)
  obtain ⟨holen, hout⟩ := h.outOk.of_frame (by simp) (by simp) (storesOnly_commitReconstruction s v st) (by simp)
  refine ⟨holen, hout, by rwa [hstlen, State.commitReconstruction_maxLen], fun i hi hcap => ?_, by omega,
    fun j hj hcap => ?_, fun j hj hcap => ?_⟩
  · exact hstgt.bufBit_of_length_le (hstlen ▸ hi) hcap
  · exact (hbmc j (Nat.lt_succ_of_le hcap)).trans (hst.c_degree j (by omega))
  · exact (hbmb j (Nat.lt_succ_of_le hcap)).trans (hst.b_degree j (by omega))

theorem State.SelfConsistent.commitReconstruction {v : Bits} {st : BmState} (hl : st.l ≤ v.length)
    (hv : v.length ≤ s.maxLen.bits) (hcheck : lfsr (bmSeed v st) (bmTaps st) v.length = v) :
    (s.commitReconstruction v st).SelfConsistent := by
  intro _
  obtain ⟨-, -, hstgt, -⟩ := s.commitReconstruction_holds v st
  rw [State.commitReconstruction_stlen, MaxLen.toNat_ofNat hv, State.engineOutput_commitReconstruction hl hv, hcheck,
    hstgt.bits_eq (by rwa [State.commitReconstruction_maxLen])]

/-- The commit of a reconstruction that passed its self-check. -/
theorem State.Inv.commitReconstruction {v : Bits} {st : BmState} (h : s.Inv) (hst : st.Bounded v.length)
    (hv : v.length ≤ s.maxLen.bits) (hcheck : lfsr (bmSeed v st) (bmTaps st) v.length = v) :
    (s.commitReconstruction v st).Inv where
  mem := h.mem.commitReconstruction v st
  flags := .commitReconstruction s v (hst.l_le.trans hv)
  results := h.results.commitReconstruction hst hv
  selfConsistent := .commitReconstruction hst.l_le hv hcheck
  busy := h.busy.of_inflight (by simp) (by simp)

theorem State.Inv.of_ok {i : Instr} {u : State} (h : s.Inv) (hu : commandResult i s = .ok u) : u.Inv := by
  rcases ok_cases hu with ⟨form, dst, v, -, hd, hv, rfl⟩ | ⟨src, -, hv, rfl⟩ | ⟨fmt, src, r, -, -, rfl⟩ |
    ⟨-, -, rfl⟩ | ⟨-, hpos, hn, htap, hsl, rfl⟩ | ⟨v, -, hv, rfl⟩ | ⟨fmt, v, r, -, -, hv, rfl⟩ | ⟨b, -, rfl⟩ |
    ⟨v, -, -, hv, hcheck, rfl⟩ | ⟨g1, g2, g3, -, rfl⟩
  case inl =>
    cases dst with
    | seed => exact h.storeBits_seed v
    | tgt => exact h.storeBits_tgt v
    | out => exact h.storeBits_out hv
    | stgt => exact absurd rfl hd
  · exact h.storeBits_out (by simpa using hv)
  · exact h.storeBytes r
  · exact h.storeBits_seed _
  · exact h.configure hpos hn htap hsl
  · exact h.storeBits_out hv
  · exact (h.storeBits_out hv).storeBytes r
  · exact h
  · exact h.commitReconstruction (bmRun_bounded v v.length) hv hcheck
  · exact h.setGeffeSeeds g1 g2 g3

theorem State.Inv.exec {i : Instr} {t : State} (h : s.Inv) (ht : exec i s = .next t) : t.Inv := by
  rcases exec_cases ht with ⟨e, -, rfl⟩ | ⟨u, hu, rfl⟩
  · exact h.raise e
  · exact (h.of_ok hu).succeed

theorem State.Inv.step {t : State} (h : s.Inv) (ht : step s = .next t) : t.Inv := by
  rcases step_next_cases ht with ⟨w, i, -, -, hx⟩ | ⟨w, e, -, -, rfl⟩ | ⟨-, hc⟩
  · exact h.exec hx
  · exact h.raise .commandError
  · exact h.beforeCycle.busCycle hc

end Sys2Proof.Machine
end

section
/-!
The bus accesses to the registers and the windows (10_state.md R20, R42, R44; 20_memory.md R61, R62), and what GET reads
(R36).
-/

namespace Sys2Proof.Machine

variable {s t : State}

/-! ### Clocks -/

theorem State.nextCycle_cons {c : BusCycle} {rest : List BusCycle} (hp : s.port = c :: rest) : s.nextCycle = c := by
  rw [State.nextCycle, hp, List.headD_cons]

/-- A write to an idle block is applied in its clock (20_memory.md R70). -/
theorem step_write {c : BusCycle} {rest : List BusCycle} (hi : s.inflight = none) (hp : s.port = c :: rest)
    (hr : c.rst = false) (hs : c.sel = true) (hw : c.we = true) :
    step s = .next ({ s with port := rest }.busWrite (byteAddress c.a) c.wdata) := by
  rw [step_idle hi, State.clock, State.nextCycle_cons hp, hp, List.tail_cons]
  simp [State.busCycle, State.busy, hr, hs, hw, hi]

/-- A clock with rst = 1 and no access, whatever is in flight but not yet due (70_reset_and_hazards.md R240). -/
theorem step_reset {c : BusCycle} {rest : List BusCycle} (ha : s.appliesCycle = true) (hp : s.port = c :: rest)
    (hr : c.rst = true) (hs : c.sel = false) : step s = .next s.beforeCycle.resetCycle := by
  rw [step_cycle ha, State.nextCycle_cons hp]
  simp [State.busCycle, hr, hs]

/-! ### Registers -/

/-- The registers the host reads and writes that are neither STATUS nor CMD (10_state.md R20). -/
def rwRegs : List Reg := [.argLen, .argVal, .n, .slen, .tlen, .bcnt, .gs1, .gs2, .gs3]

theorem State.readReg_writeReg_self (s : State) {r : Reg} (w : Word) (hr : r ∈ rwRegs) :
    (s.writeReg r w).readReg r = w := by
  simp only [rwRegs, List.mem_cons, List.not_mem_nil, or_false] at hr
  rcases hr with rfl | rfl | rfl | rfl | rfl | rfl | rfl | rfl | rfl <;> rfl

/-- N and SLEN clear CONFIGURED and TVALID (10_state.md R42); no other register of these shows in STATUS. -/
theorem State.statusWord_writeReg (s : State) {r : Reg} (w : Word) (hr : r ∈ rwRegs) (hn : r ≠ .n)
    (hs : r ≠ .slen) : (s.writeReg r w).statusWord = s.statusWord := by
  simp only [rwRegs, List.mem_cons, List.not_mem_nil, hn, hs, or_false, false_or] at hr
  rcases hr with rfl | rfl | rfl | rfl | rfl | rfl | rfl <;> rfl

/-- A register write shows at no other address but that of STATUS. -/
theorem State.busRead_writeReg_other (s : State) {r : Reg} {x : Nat} (w : Word) (hx : x ≠ r.offset)
    (hs : x ≠ Reg.offset .status) : (s.writeReg r w).busRead x = s.busRead x := by
  unfold State.busRead
  rw [s.writeReg_maxLen]
  rcases targetOf_cases s.maxLen x with ⟨r', rfl, ht⟩ | ⟨b, -, ht⟩ | ⟨-, -, ht⟩ <;> rw [ht]
  · exact s.readReg_writeReg_other w (by rintro rfl; exact hx rfl) (by rintro rfl; exact hs rfl)
  · simp only [State.bufWord, s.writeReg_mem]

theorem State.statusWord_flags (s : State) :
    s.statusWord.getLsbD 0 = s.busy ∧ s.statusWord.getLsbD 1 = s.configured ∧
      s.statusWord.getLsbD 2 = s.tvalid ∧ s.statusWord.getLsbD 3 = s.sticky := by
  unfold State.statusWord
  simp only [BitVec.getLsbD_append]
  simp

theorem State.statusWord_err_and_reserved (s : State) :
    s.statusWord.extractLsb' 4 4 = 0 ∧ s.statusWord.extractLsb' 8 4 = s.err.code ∧
      s.statusWord.extractLsb' 12 20 = 0 := by
  unfold State.statusWord
  simp only [BitVec.extractLsb'_append_eq_ite]
  simp

/-- Bit 3 of the written word clears STICKY (10_state.md R23). -/
theorem State.writeStatus_eq (s : State) (w : Word) :
    s.writeStatus w = { s with sticky := if w.getLsbD 3 then false else s.sticky } := by
  unfold State.writeStatus
  cases w.getLsbD 3 <;> simp

/-! ### The engine's operands -/

/-- A host write of a word of SEED or TAPS, of N or of SLEN. -/
def EngineAddress (m : MaxLen) (x : Nat) : Prop :=
  x = 0x018 ∨ x = 0x01C ∨ Buf.mapped m .seed x ∨ Buf.mapped m .taps x

/-- A word of SEED or TAPS: it is stored and the flags are cleared. -/
theorem State.busWrite_engineWindow (s : State) {b : Buf} {x : Nat} (w : Word) (hb : b = .seed ∨ b = .taps)
    (hx : Buf.mapped s.maxLen b x) (h4 : x % 4 = 0) :
    (s.busWrite x w).configured = false ∧ (s.busWrite x w).tvalid = false ∧ (s.busWrite x w).busRead x = w := by
  obtain ⟨k, hk, rfl⟩ := Buf.word_of_mapped hx h4
  have hw : s.busWrite (b.base + 4 * k) w = s.clearConfig.storeWord b k w := by
    rw [s.busWrite_word w hk]
    rcases hb with rfl | rfl <;> rfl
  rw [hw]
  refine ⟨rfl, rfl, ?_⟩
  rw [State.busRead_word (s.clearConfig.storeWord b k w) hk, State.bufWord_storeWord s.clearConfig _ _ _ _ _ hk hk,
    if_pos ⟨rfl, rfl⟩]

/-- R42's writes clear CONFIGURED and TVALID, whatever the word, and it is stored. -/
theorem State.busWrite_engineAddress (s : State) {x : Nat} (w : Word) (hx : EngineAddress s.maxLen x)
    (h4 : x % 4 = 0) :
    (s.busWrite x w).configured = false ∧ (s.busWrite x w).tvalid = false ∧ (s.busWrite x w).busRead x = w := by
  rcases hx with rfl | rfl | hseed | htaps
  · rw [show s.busWrite 0x018 w = s.writeReg .n w from s.busWrite_reg .n w]
    exact ⟨rfl, rfl, State.busRead_reg _ .n⟩
  · rw [show s.busWrite 0x01C w = s.writeReg .slen w from s.busWrite_reg .slen w]
    exact ⟨rfl, rfl, State.busRead_reg _ .slen⟩
  · exact s.busWrite_engineWindow w (.inl rfl) hseed h4
  · exact s.busWrite_engineWindow w (.inr rfl) htaps h4

/-- No other write reaches the flags. -/
theorem State.busWrite_flags_eq (s : State) {x : Nat} (w : Word) (hx : ¬EngineAddress s.maxLen x) :
    (s.busWrite x w).configured = s.configured ∧ (s.busWrite x w).tvalid = s.tvalid := by
  simp only [EngineAddress, not_or] at hx
  obtain ⟨hn, hsl, hseed, htaps⟩ := hx
  rcases s.busWrite_cases x w with ⟨r, rfl, hw⟩ | ⟨b, k, -, hm, -, -, hw⟩ | ⟨-, -, hw⟩ <;> rw [hw]
  · cases r with
    | n => exact absurd rfl hn
    | slen => exact absurd rfl hsl
    | _ => exact ⟨rfl, rfl⟩
  · rw [if_neg (by rintro (rfl | rfl); exacts [hseed hm, htaps hm])]
    exact ⟨rfl, rfl⟩
  · exact ⟨rfl, rfl⟩

/-- A bus cycle sets neither flag (10_state.md R39, R40). -/
theorem State.busCycle_flags {c : BusCycle} (h : s.busCycle c = .next t) :
    (s.tvalid = false → t.tvalid = false) ∧ (s.configured = false → t.configured = false) := by
  rcases State.busCycle_cases h with ⟨-, -, rfl⟩ | ⟨-, -, rfl⟩ | ⟨-, -, -, -, rfl⟩ | ⟨-, -, -, -, rfl⟩
  · exact ⟨fun _ => rfl, fun _ => rfl⟩
  · exact ⟨id, id⟩
  · by_cases hx : EngineAddress s.maxLen (byteAddress c.a)
    · obtain ⟨hc, hv, -⟩ := s.busWrite_engineAddress c.wdata hx (byteAddress_mod c.a)
      exact ⟨fun _ => hv, fun _ => hc⟩
    · obtain ⟨hc, hv⟩ := s.busWrite_flags_eq c.wdata hx
      rw [hc, hv]
      exact ⟨id, id⟩
  · exact ⟨id, id⟩

/-! ### The stored target -/

/-- The stored target of `t` is that of `s`: STLEN and the window of STGT (10_state.md R30). -/
def KeepsTarget (s t : State) : Prop :=
  t.stlen = s.stlen ∧ ∀ a, Buf.mapped s.maxLen .stgt a → Memory.read t.mem a = Memory.read s.mem a

/-- TCFG is the one command with results in STGT and STLEN. -/
theorem stgt_not_mem {i : Instr} (hi : i ≠ .tcfg) : .stgt ∉ storesTo i ∧ .stlen ∉ writesTo i := by
  cases i with
  | tcfg => exact absurd rfl hi
  | tobits form dst => cases dst <;> simp [storesTo, writesTo]
  | frombits fmt src => cases fmt <;> simp [storesTo, writesTo]
  | get fmt dflt => cases fmt <;> simp [storesTo, writesTo]
  | gget fmt => cases fmt <;> simp [storesTo, writesTo]
  | seedint | ecfg | test _ | gkeyBin _ | gkeyStr => simp [storesTo, writesTo]

theorem keepsTarget_exec {i : Instr} (h : exec i s = .next t) (hi : i ≠ .tcfg) : KeepsTarget s t := by
  obtain ⟨hstgt, hstlen⟩ := stgt_not_mem hi
  exact ⟨(writesOnly_exec h).1 .stlen (by decide) hstlen, fun a ha => (storesOnly_exec h).read_eq hstgt ha⟩

theorem keepsTarget_busCycle {c : BusCycle} (h : s.busCycle c = .next t) (hr : c.rst = false) : KeepsTarget s t := by
  rcases State.busCycle_cases h with ⟨hr', -, -⟩ | ⟨-, -, rfl⟩ | ⟨-, -, -, -, rfl⟩ | ⟨-, -, -, -, rfl⟩
  · rw [hr] at hr'
    cases hr'
  · exact ⟨rfl, fun _ _ => rfl⟩
  · obtain ⟨-, -, -, hsl, -⟩ := s.busWrite_keeps (byteAddress c.a) c.wdata
    exact ⟨hsl, fun a ha => (storesOnly_busWrite s _ _).read_eq (by decide) ha⟩
  · exact ⟨rfl, fun _ _ => rfl⟩

/-! ### Reads after reset -/

theorem byteAddress_eq_zero {a : BitVec 20} : byteAddress a = 0 ↔ a = 0 := by
  unfold byteAddress
  bv_omega

theorem byteAddress_eq_four {a : BitVec 20} : byteAddress a = 4 ↔ a = 1 := by
  unfold byteAddress
  bv_omega

theorem State.statusWord_resetCycle (s : State) : s.resetCycle.statusWord = 0 := by
  simp [State.statusWord, State.busy, ErrCode.code]

/-- Every bus address right after reset (10_state.md R44). -/
theorem State.busRead_resetCycle (s : State) (x : Nat) :
    s.resetCycle.busRead x = if x = 0 then 0x4C465352 else if x = 4 then BitVec.ofNat 32 s.maxLen.bits else 0 := by
  rcases targetOf_cases s.maxLen x with ⟨r, rfl, -⟩ | ⟨b, hb, ht⟩ | ⟨hr, -, ht⟩
  · rw [State.busRead_reg]
    cases r with
    | status => exact State.statusWord_resetCycle s
    | _ => rfl
  · have := b.base_ge
    have := hb.1
    rw [if_neg (by omega), if_neg (by omega)]
    simp only [State.busRead, State.resetCycle_maxLen, ht, State.bufWord_of_mem_nil s.resetCycle_mem]
  · rw [if_neg (show x ≠ 0 from hr .id), if_neg (show x ≠ 4 from hr .cap)]
    simp only [State.busRead, State.resetCycle_maxLen, ht]

/-! ### GET -/

/-- GET's checks (41_lfsr_engine.md R140), apart from its results. -/
def getCheck (fmt : Fmt) (dflt : Bool) (s : State) : Option ErrCode :=
  if !s.configured then some .parameterError
  else if s.getLen dflt > s.maxLen.bits then some .capacityError
  else if packsBytes fmt ∧ s.getLen dflt % 8 ≠ 0 then some .lengthError
  else none

theorem getResult_of_check {fmt : Fmt} {dflt : Bool} {e : ErrCode} (h : getCheck fmt dflt s = some e) :
    getResult fmt dflt s = .error e := by
  unfold getCheck at h
  unfold getResult
  split_ifs at h ⊢ <;> simp_all

theorem getResult_of_check_none {fmt : Fmt} {dflt : Bool} (h : getCheck fmt dflt s = none) :
    s.getLen dflt ≤ s.maxLen.bits ∧ (fmt = .bin ∨ s.getLen dflt % 8 = 0) ∧
      getResult fmt dflt s = .ok (s.emit fmt (s.engineOutput (s.getLen dflt))) := by
  unfold getCheck at h
  unfold getResult
  split_ifs at h ⊢
  rename_i hcap hfmt
  exact ⟨by omega, bin_or_whole_bytes hfmt, rfl⟩

/-- A packed keystream within the capacity fits BYTES. -/
theorem length_le_of_isPackOf {fmt : Fmt} {v : Bits} {r : List Byte} (h : IsPackOf fmt v r) :
    r.length ≤ v.length := by
  cases fmt with
  | bin => exact absurd h id
  | hex =>
    have := h.1
    omega
  | str =>
    have := h.1
    omega

theorem State.emit_olen (s : State) (fmt : Fmt) (v : Bits) : (s.emit fmt v).olen = BitVec.ofNat 32 v.length := by
  rcases s.emit_cases fmt v with ⟨he, -⟩ | ⟨r, -, he⟩ <;> rw [he] <;> rfl

theorem State.emit_maxLen (s : State) (fmt : Fmt) (v : Bits) : (s.emit fmt v).maxLen = s.maxLen := by
  rcases s.emit_cases fmt v with ⟨he, -⟩ | ⟨r, -, he⟩ <;> rw [he] <;> rfl

/-- A keystream's bits stand in OUT, in every format. -/
theorem State.emit_holds_out (s : State) (fmt : Fmt) (v : Bits) : (s.emit fmt v).Holds .out v := by
  rcases s.emit_cases fmt v with ⟨he, -⟩ | ⟨r, -, he⟩ <;> rw [he]
  · exact s.holds_storeBits_self .out v
  · exact State.holds_mem (State.holds_writeBytes (by decide) r (s.holds_storeBits_self .out v)) rfl rfl

theorem State.emit_bits_out (s : State) (fmt : Fmt) {v : Bits} (hv : v.length ≤ s.maxLen.bits) :
    (s.emit fmt v).bits .out (s.emit fmt v).olen.toNat = v := by
  rw [s.emit_olen, MaxLen.toNat_ofNat hv]
  exact (s.emit_holds_out fmt v).bits_eq (by rwa [s.emit_maxLen])

theorem State.holdsBytes_storeBytes (s : State) (r : List Byte) : (s.storeBytes r).HoldsBytes r :=
  fun j hj => (State.byteAt_mem (s.storeBytes_mem r) j).trans (s.byteAt_writeBytes r j hj)

/-- The packed bytes are a function of the format and the keystream. -/
theorem State.emit_bytes (s : State) {fmt : Fmt} {v : Bits} {r : List Byte} (hp : pack fmt v = .ok (.bytes r))
    (hr : r.length ≤ s.maxLen.bits) :
    (s.emit fmt v).bcnt = BitVec.ofNat 32 r.length ∧ (s.emit fmt v).bytes (s.emit fmt v).bcnt.toNat = r := by
  have hbcnt : (s.emit fmt v).bcnt = BitVec.ofNat 32 r.length := by rw [s.emit_packed hp, State.storeBytes_bcnt]
  have hholds : (s.emit fmt v).HoldsBytes r := by
    rw [s.emit_packed hp]
    exact State.holdsBytes_storeBytes _ r
  refine ⟨hbcnt, ?_⟩
  rw [hbcnt, MaxLen.toNat_ofNat hr]
  exact hholds.bytes_eq (by rwa [s.emit_maxLen])

/-- A keystream emitted in two states that differ in their memory shows the same lengths, bits and packed bytes. -/
theorem State.emit_congr (s : State) (m : Memory) {fmt : Fmt} {v : Bits} (hv : v.length ≤ s.maxLen.bits)
    (h8 : fmt = .bin ∨ v.length % 8 = 0) :
    ({ s with mem := m }.emit fmt v).bcnt = (s.emit fmt v).bcnt ∧
      (fmt ≠ .bin → ({ s with mem := m }.emit fmt v).bytes ({ s with mem := m }.emit fmt v).bcnt.toNat =
        (s.emit fmt v).bytes (s.emit fmt v).bcnt.toNat) := by
  by_cases hf : fmt = .bin
  · subst hf
    exact ⟨rfl, fun h => absurd rfl h⟩
  · obtain ⟨r, hp, hpack⟩ := pack_ok hf (h8.resolve_left hf)
    have hr := (length_le_of_isPackOf hpack).trans hv
    obtain ⟨hb, hbytes⟩ := s.emit_bytes hp hr
    obtain ⟨hb', hbytes'⟩ := State.emit_bytes { s with mem := m } hp hr
    exact ⟨hb'.trans hb.symm, fun _ => hbytes'.trans hbytes.symm⟩

end Sys2Proof.Machine
end

section
/-! The state statements (10_state.md). -/

namespace Sys2Proof

open Machine

/-- Settles O13: a step ends a command, raises CommandError or applies a bus cycle, and each keeps every part of the
invariant; TCFG makes the stored target self-consistent because its self-check passed. -/
theorem stepKeepsInvariant : Obligations.StepKeepsInvariant := by
  unfold Obligations.StepKeepsInvariant
  exact fun s t hs h => hs.step h

/-- Settles O12: the reset state is its own reset cycle. -/
theorem resetMeetsInvariant : Obligations.ResetMeetsInvariant := by
  unfold Obligations.ResetMeetsInvariant
  exact fun m => (State.resetOf m).inv_resetCycle

/-- Settles O54: a command raises its error, or its results lie in its buffers. -/
theorem commandStoresOnlyItsBuffers : Obligations.CommandStoresOnlyItsBuffers := by
  unfold Obligations.CommandStoresOnlyItsBuffers
  exact fun i s t h => storesOnly_exec h

/-- Settles O55: a command raises its error, or its results lie in its registers. -/
theorem commandWritesOnlyItsRegisters : Obligations.CommandWritesOnlyItsRegisters := by
  unfold Obligations.CommandWritesOnlyItsRegisters
  exact fun i s t h => writesOnly_exec h

/-- Settles O17: the address selects its register, and a register write reaches no other register and no window. -/
theorem registerWriteReadsBack : Obligations.RegisterWriteReadsBack := by
  unfold Obligations.RegisterWriteReadsBack
  refine ⟨fun s => ⟨s.busRead_reg .argLen, s.busRead_reg .argVal, s.busRead_reg .n, s.busRead_reg .slen,
    s.busRead_reg .tlen, s.busRead_reg .bcnt, s.busRead_reg .olen, s.busRead_reg .stlen, s.busRead_reg .bmL,
    s.busRead_reg .bmM, s.busRead_reg .gs1, s.busRead_reg .gs2, s.busRead_reg .gs3⟩, fun s w x hx => ?_⟩
  obtain ⟨r, hr, rfl⟩ := List.mem_map.1 (show x ∈ rwRegs.map Reg.offset from hx)
  rw [s.busWrite_reg, State.busRead_reg]
  refine ⟨s.readReg_writeReg_self w hr, fun a hne hs => s.busRead_writeReg_other w hne hs, fun hn hsl => ?_⟩
  have hstatus := s.statusWord_writeReg w hr (by rintro rfl; exact hn rfl) (by rintro rfl; exact hsl rfl)
  exact (State.busRead_reg _ .status).trans (hstatus.trans (s.busRead_reg .status).symm)

/-- Settles O19: R42's writes clear the flags and store the word; every other write leaves the flags. -/
theorem engineWritesClearFlags : Obligations.EngineWritesClearFlags := by
  unfold Obligations.EngineWritesClearFlags
  exact fun s a w => ⟨fun hx => s.busWrite_engineAddress w hx (byteAddress_mod a),
    fun hx => s.busWrite_flags_eq w hx⟩

/-- Settles O36: GET's checks read registers alone, and its keystream depends on SEED and TAPS below N alone. -/
theorem getReadsOnlyTheEngine : Obligations.GetReadsOnlyTheEngine := by
  unfold Obligations.GetReadsOnlyTheEngine
  intro s m fmt dflt t t' hseed htaps h h'
  cases hc : getCheck fmt dflt s with
  | some e =>
    have ht := exec_of_error (i := .get fmt dflt) (getResult_of_check hc)
    have ht' := exec_of_error (i := .get fmt dflt)
      (getResult_of_check (show getCheck fmt dflt { s with mem := m } = some e from hc))
    obtain rfl := Host.Outcome.next.inj (h.symm.trans ht)
    obtain rfl := Host.Outcome.next.inj (h'.symm.trans ht')
    have he : e ≠ .success := by
      rintro rfl
      exact commandResult_ne_success (.get fmt dflt) s (getResult_of_check hc)
    exact ⟨rfl, rfl, rfl, fun hs => absurd hs he, fun hs => absurd hs he⟩
  | none =>
    obtain ⟨hcap, h8, hok⟩ := getResult_of_check_none hc
    obtain ⟨-, -, hok'⟩ := getResult_of_check_none (show getCheck fmt dflt { s with mem := m } = none from hc)
    obtain rfl := Host.Outcome.next.inj (h.symm.trans (exec_of_ok (i := .get fmt dflt) hok))
    obtain rfl := Host.Outcome.next.inj (h'.symm.trans (exec_of_ok (i := .get fmt dflt) hok'))
    have hv : State.engineOutput { s with mem := m } (s.getLen dflt) = s.engineOutput (s.getLen dflt) :=
      State.engineOutput_congr (s := s) (t := { s with mem := m }) rfl (fun i hi => (hseed i hi).symm)
        (fun i hi => (htaps i hi).symm) _
    rw [show State.getLen { s with mem := m } dflt = s.getLen dflt from rfl, hv]
    have hlen : (s.engineOutput (s.getLen dflt)).length ≤ s.maxLen.bits := by simpa using hcap
    obtain ⟨hbcnt, hbytes⟩ := s.emit_congr m hlen (by simpa using h8)
    refine ⟨rfl, ?_, hbcnt, fun _ => ?_, fun _ hf => hbytes hf⟩
    · exact (State.emit_olen _ fmt _).trans (s.emit_olen fmt _).symm
    · exact (State.emit_bits_out { s with mem := m } fmt hlen).trans (s.emit_bits_out fmt hlen).symm

/-- Settles O56: a bus cycle sets neither flag, and of the commands only ECFG and TCFG do. -/
theorem flagsSetOnlyByConstruction : Obligations.FlagsSetOnlyByConstruction := by
  unfold Obligations.FlagsSetOnlyByConstruction
  intro s t h
  rcases step_next_cases h with ⟨w, i, hi, hd, hx⟩ | ⟨w, e, -, -, rfl⟩ | ⟨-, hc⟩
  · rcases exec_cases hx with ⟨e, -, rfl⟩ | ⟨u, hu, rfl⟩
    · simp_all
    · obtain ⟨hv, hcon⟩ := flags_of_ok hu
      refine ⟨fun hs ht => ⟨w, hi, hv hs ht ▸ hd⟩, fun hs ht => ⟨w, hi, ?_⟩⟩
      rcases hcon hs ht with rfl | rfl
      · exact .inl hd
      · exact .inr hd
  · simp_all
  · obtain ⟨hv, hcon⟩ := State.busCycle_flags hc
    refine ⟨fun hs ht => ?_, fun hs ht => ?_⟩
    · exact absurd ((hv hs).symm.trans ht) Bool.false_ne_true
    · exact absurd ((hcon hs).symm.trans ht) Bool.false_ne_true

/-- Settles O57: every command but TCFG and every cycle without reset keeps STLEN and the window of STGT. -/
theorem storedTargetWrittenOnlyByTcfg : Obligations.StoredTargetWrittenOnlyByTcfg := by
  unfold Obligations.StoredTargetWrittenOnlyByTcfg
  intro s t h hchanged
  have hnot : ¬KeepsTarget s t := by
    rintro ⟨hsl, hmem⟩
    rcases hchanged with hne | ⟨a, ha, hne⟩
    · exact hne hsl
    · exact hne (hmem a ha)
  rcases step_next_cases h with ⟨w, i, hi, hd, hx⟩ | ⟨w, e, -, -, rfl⟩ | ⟨ha, hc⟩
  · obtain rfl : i = .tcfg := by
      by_contra hne
      exact hnot (keepsTarget_exec hx hne)
    exact .inl ⟨w, hi, hd⟩
  · exact absurd ⟨rfl, fun _ _ => rfl⟩ hnot
  · refine .inr ⟨ha, ?_⟩
    by_contra hr
    have hkeeps : KeepsTarget s.beforeCycle t := keepsTarget_busCycle hc (Bool.eq_false_iff.2 hr)
    exact hnot hkeeps

/-- Settles O6: the address selects CMD, whose write puts the word in flight with the next free value. -/
theorem cmdWriteStartsCommand : Obligations.CmdWriteStartsCommand := by
  unfold Obligations.CmdWriteStartsCommand
  refine ⟨fun s c rest hi hp hr hs hw ha => ?_, fun s => s.busRead_reg .cmd, fun m => rfl⟩
  refine ⟨Config.busyLeft s.maxLen s.fresh, Nat.min_le_right _ _, ?_⟩
  rw [step_write hi hp hr hs hw, ha]
  exact congrArg _ (State.busWrite_reg _ .cmd c.wdata)

/-- Settles O11: a reset clock is `State.resetCycle`, and every address reads its reset value after it. -/
theorem resetCycleGivesResetValues : Obligations.ResetCycleGivesResetValues := by
  unfold Obligations.ResetCycleGivesResetValues
  intro s c rest hp ha hr hs
  refine ⟨_, step_reset ha hp hr hs, rfl, by simp [State.beforeCycle, hp], rfl, fun a => ?_⟩
  rw [State.busRead_resetCycle]
  simp only [byteAddress_eq_zero, byteAddress_eq_four]
  rfl

/-- Settles O14: the addresses select ID and CAP, which no write reaches, and no step changes MAXLEN. -/
theorem idAndCapAreConstant : Obligations.IdAndCapAreConstant := by
  unfold Obligations.IdAndCapAreConstant
  refine ⟨fun s w => ⟨s.busRead_reg .id, s.busRead_reg .cap, s.busWrite_reg .id w, s.busWrite_reg .cap w⟩,
    fun s t h => step_maxLen h, fun m => ⟨State.busRead_reg _ .id, State.busRead_reg _ .cap⟩⟩

/-- Settles O16: the address selects STATUS; its word's fields, and the one effect of its write. -/
theorem statusWordFields : Obligations.StatusWordFields := by
  unfold Obligations.StatusWordFields
  refine ⟨fun s => ?_, fun s w => ?_, fun m => ?_⟩
  · rw [show s.busRead 0x008 = s.statusWord from s.busRead_reg .status]
    obtain ⟨hbusy, hcon, hv, hsticky⟩ := s.statusWord_flags
    exact ⟨hbusy, hcon, hv, hsticky, s.statusWord_err_and_reserved⟩
  · exact (s.busWrite_reg .status w).trans (s.writeStatus_eq w)
  · exact (State.busRead_reg _ .status).trans (State.resetOf m).statusWord_resetCycle

end Sys2Proof
end

section
/-!
The bus accesses to the windows (20_memory.md R61 to R70): what an address selects where nothing is mapped, what a host
write does to a window, and what an idle block does in one clock.
-/

namespace Sys2Proof.Machine

variable {s : State}

/-! ### Clocks of an idle block -/

/-- A read while BUSY = 0 is answered (20_memory.md R70). -/
theorem State.busCycle_read {c : BusCycle} (hb : s.busy = false) (hr : c.rst = false) (hs : c.sel = true)
    (hw : c.we = false) : s.busCycle c = .next (s.answerRead (byteAddress c.a)) := by
  simp [State.busCycle, hb, hr, hs, hw]

/-- A cycle with neither reset nor an access changes nothing (20_memory.md R70). -/
theorem State.busCycle_no_access {c : BusCycle} (hr : c.rst = false) (hs : c.sel = false) :
    s.busCycle c = .next s := by
  simp [State.busCycle, hr, hs]

/-- A read of an idle block is answered in its clock (20_memory.md R70, R72). -/
theorem step_read {c : BusCycle} {rest : List BusCycle} (hi : s.inflight = none) (hp : s.port = c :: rest)
    (hr : c.rst = false) (hs : c.sel = true) (hw : c.we = false) :
    step s = .next { s with port := rest, rdata := some (s.busRead (byteAddress c.a)) } := by
  rw [step_idle hi, State.clock, State.nextCycle_cons hp, hp, List.tail_cons]
  exact State.busCycle_read (congrArg Option.isSome hi) hr hs hw

/-- A clock of an idle block with no access takes the cycle alone (20_memory.md R70, log 2). -/
theorem step_no_access (hi : s.inflight = none) (hr : s.nextCycle.rst = false) (hs : s.nextCycle.sel = false) :
    step s = .next { s with port := s.port.tail } :=
  (step_idle hi).trans (State.busCycle_no_access hr hs)

/-! ### Addresses where nothing is mapped -/

/-- No register and no mapped word of a window is at `x` (20_memory.md R61, R62). -/
def Unmapped (m : MaxLen) (x : Nat) : Prop := (∀ r : Reg, x ≠ r.offset) ∧ ∀ b : Buf, ¬Buf.mapped m b x

theorem Unmapped.targetOf_eq {m : MaxLen} {x : Nat} (h : Unmapped m x) : targetOf m x = .unmapped := by
  obtain ⟨hr, hb⟩ := h
  rcases targetOf_cases m x with ⟨r, hx, -⟩ | ⟨b, hx, -⟩ | ⟨-, -, ht⟩
  · exact absurd hx (hr r)
  · exact absurd hx (hb b)
  · exact ht

/-- Reads give 0 and writes are ignored where nothing is mapped (20_memory.md R69). -/
theorem Unmapped.access {x : Nat} (h : Unmapped s.maxLen x) (w : Word) : s.busRead x = 0 ∧ s.busWrite x w = s := by
  simp only [State.busRead, State.busWrite, h.targetOf_eq, and_self]

theorem Unmapped.of_not_mapped {m : MaxLen} {x : Nat} (hx : 0x44 ≤ x) (hb : ∀ b : Buf, ¬Buf.mapped m b x) :
    Unmapped m x := by
  refine ⟨fun r hr => ?_, hb⟩
  have := r.offset_lt
  omega

theorem Buf.base_le (b : Buf) : b.base ≤ 0x200000 := by cases b <;> decide

/-- The last window ends at 0x240000 (20_memory.md R61). -/
theorem Buf.not_mapped_of_ge {m : MaxLen} {b : Buf} {x : Nat} (h : 0x240000 ≤ x) : ¬Buf.mapped m b x := by
  have := b.base_le
  have := Buf.words_le m b
  unfold Buf.mapped
  omega

/-- Beyond the mapped words of a window no window is mapped up to the next one's base. -/
theorem Buf.not_mapped_of_beyond {m : MaxLen} {b b' : Buf} {x : Nat} (hlo : b.base + 4 * b.words m ≤ x)
    (hhi : x < b.base + 0x40000) : ¬Buf.mapped m b' x := by
  unfold Buf.mapped
  by_cases hb : b = b'
  · subst hb
    omega
  · have := Buf.base_apart hb
    have := Buf.words_le m b'
    omega

/-- The unmapped addresses of 20_memory.md R69: between the registers and the windows, above the windows, and beyond the
mapped words of a window. -/
theorem unmapped_of_gap {m : MaxLen} {x : Nat}
    (h : (0x44 ≤ x ∧ x < 0x40000) ∨ 0x240000 ≤ x ∨
      ∃ b : Buf, b.base + 4 * b.words m ≤ x ∧ x < b.base + 0x40000) : Unmapped m x := by
  rcases h with ⟨hlo, hhi⟩ | hlo | ⟨b, hlo, hhi⟩
  · exact .of_not_mapped hlo fun b => Buf.not_mapped_of_lt hhi
  · exact .of_not_mapped (by omega) fun b => Buf.not_mapped_of_ge hlo
  · have := b.base_ge
    exact .of_not_mapped (by omega) fun b' => Buf.not_mapped_of_beyond hlo hhi

/-! ### Read-only registers and windows -/

/-- The registers a host write leaves alone (10_state.md R20). -/
def roRegs : List Reg := [.id, .cap, .olen, .stlen, .bmL, .bmM]

theorem State.busWrite_roReg (s : State) {r : Reg} (w : Word) (hr : r ∈ roRegs) : s.busWrite r.offset w = s := by
  rw [s.busWrite_reg]
  simp only [roRegs, List.mem_cons, List.not_mem_nil, or_false] at hr
  rcases hr with rfl | rfl | rfl | rfl | rfl | rfl <;> rfl

/-- SEED, TAPS and TGT lie below OUT, and BYTES above BMB (20_memory.md R62). -/
theorem Buf.base_of_hostWrites {b : Buf} (h : b.hostWrites = true) : b.base ≤ 0x0C0000 ∨ b.base = 0x200000 := by
  revert h
  cases b <;> decide

/-- The windows from OUT to BMB are read-only (20_memory.md R62, R69). -/
theorem State.busWrite_roWindow (s : State) {x : Nat} (w : Word) (hlo : 0x100000 ≤ x) (hhi : x < 0x200000) :
    s.busWrite x w = s := by
  rcases s.busWrite_cases x w with ⟨r, rfl, -⟩ | ⟨b, k, hb, ⟨hblo, hbhi⟩, -, -, -⟩ | ⟨-, -, hw⟩
  · have := r.offset_lt
    omega
  · have := Buf.words_le s.maxLen b
    have := Buf.base_of_hostWrites hb
    omega
  · exact hw

/-! ### Host writes to a window -/

/-- A host write to a word of a writable window stores it; SEED and TAPS clear the flags first (10_state.md R42). -/
theorem State.busWrite_hostWindow (s : State) {b : Buf} {k : Nat} (w : Word) (hb : b.hostWrites = true)
    (hk : k < b.words s.maxLen) :
    s.busWrite (b.base + 4 * k) w = (if b = .seed ∨ b = .taps then s.clearConfig else s).storeWord b k w := by
  rw [s.busWrite_word w hk]
  cases b with
  | out | stgt | bmc | bmb => exact absurd hb Bool.false_ne_true
  | _ => rfl

/-- A word store touches no byte outside the word. -/
theorem State.read_storeWord_other (s : State) (b : Buf) (k : Nat) (w : Word) {x : Nat}
    (hx : x < b.base + 4 * k ∨ b.base + 4 * k + 4 ≤ x) :
    Memory.read (s.storeWord b k w).mem x = Memory.read s.mem x := by
  rw [State.storeWord_mem, Memory.writeWord, Memory.read_replace, if_neg (by omega)]

/-- A stored word reads back. -/
theorem State.busRead_storeWord_self (s : State) {b : Buf} {k : Nat} (w : Word) (hk : k < b.words s.maxLen) :
    (s.storeWord b k w).busRead (b.base + 4 * k) = w :=
  (State.busRead_word (s.storeWord b k w) hk).trans (Memory.readWord_writeWord _ _ _)

/-! ### Bits and bytes in the words of a window -/

/-- Where bit `i` of a buffer stands in the words a bus read returns (20_memory.md R65 to R67). -/
theorem State.bufBit_eq_busRead (s : State) {b : Buf} {i : Nat} (hi : i < b.capacity s.maxLen) :
    s.bufBit b i = (s.busRead (b.base + 4 * (i / 32))).getLsbD (b.wordBit i) := by
  rw [s.busRead_word (Buf.word_lt_of_lt_capacity hi), State.bufBit]

/-- Where byte `j` of BYTES stands in the words a bus read returns (20_memory.md R64). -/
theorem State.byteAt_eq_busRead (s : State) {j : Nat} (hj : j < s.maxLen.bits) :
    s.byteAt j = (s.busRead (Buf.bytes.base + 4 * (j / 4))).extractLsb' (24 - 8 * (j % 4)) 8 := by
  have := s.maxLen.bits_mod
  rw [s.busRead_word (b := .bytes) (by simp only [Buf.words]; omega), State.byteAt]

/-- Bit `i` of BYTES is a bit of byte `i / 8`, most significant first (20_memory.md R64). -/
theorem State.bufBit_bytes (s : State) (i : Nat) : s.bufBit .bytes i = (s.byteAt (i / 8)).getLsbD (7 - i % 8) := by
  rw [State.bufBit, State.byteAt, BitVec.getLsbD_extractLsb', decide_eq_true (by omega), Bool.true_and,
    show i / 8 / 4 = i / 32 by omega, show 24 - 8 * (i / 8 % 4) + (7 - i % 8) = 31 - i % 32 by omega]
  rfl

/-- Words of two windows that place their bits alike are equal when those bits are. -/
theorem State.bufWord_eq_of_bufBit {s t : State} {b b' : Buf} {k : Nat} (hbit : ∀ i, b'.wordBit i = b.wordBit i)
    (h : ∀ i, i / 32 = k → t.bufBit b i = s.bufBit b' i) : t.bufWord b k = s.bufWord b' k := by
  apply BitVec.eq_of_getLsbD_eq
  intro j hj
  have hlt := b.wordBit_lt j
  have hword : (32 * k + b.wordBit j) / 32 = k := by omega
  have hplace : b.wordBit (32 * k + b.wordBit j) = j := by
    rw [← b.wordBit_mod, show (32 * k + b.wordBit j) % 32 = b.wordBit j by omega, b.wordBit_wordBit,
      Nat.mod_eq_of_lt hj]
  have := h _ hword
  rwa [State.bufBit, State.bufBit, hbit, hword, hplace] at this

/-- The whole words of TGT are those of BYTES when TGT holds the bits of BYTES (20_memory.md R67). -/
theorem State.Holds.bufWord_tgt_eq_bytes {s t : State} {len k : Nat} (h : t.Holds .tgt (s.bits .bytes len))
    (hlen : len ≤ t.maxLen.bits) (hk : 32 * (k + 1) ≤ len) : t.bufWord .tgt k = s.bufWord .bytes k := by
  refine State.bufWord_eq_of_bufBit (fun _ => rfl) fun i hi => ?_
  rw [h i (show i < t.maxLen.bits by omega), s.getD_bits _ _ _ (by omega)]

/-! ### TOBITS -/

/-- TOBITS when its checks pass (40_codec.md R101). -/
theorem tobitsResult_eq_ok {form : InForm} {dst : BufSel} {v : Bits} (hd : dst.isDestination = true)
    (hc : s.bcnt.toNat ≤ s.maxLen.bits)
    (hu : unpack (resolveForm form (s.bytes s.bcnt.toNat)) (s.bytes s.bcnt.toNat) = some v)
    (hv : v.length ≤ s.maxLen.bits) : tobitsResult form dst s = .ok ((s.storeBits dst v).seedChanged dst) := by
  unfold tobitsResult
  simp [hd, hu, Nat.not_lt.2 hc, Nat.not_lt.2 hv]

/-- Bit `i` of a STR decoding is a bit of byte `i / 8`, most significant first (40_codec.md R100). -/
theorem getD_flatMap_byteBits (b : List Byte) (i : Nat) :
    (b.flatMap byteBits).getD i false = (b.getD (i / 8) 0).getLsbD (7 - i % 8) := by
  induction b generalizing i with
  | nil => simp
  | cons x xs ih =>
    rw [List.flatMap_cons, getD_append, length_byteBits]
    by_cases hi : i < 8
    · rw [if_pos hi, getD_byteBits x i hi, show i / 8 = 0 by omega, Nat.mod_eq_of_lt hi, List.getD_cons_zero]
    · rw [if_neg hi, ih, show i / 8 = (i - 8) / 8 + 1 by omega, List.getD_cons_succ,
        show (i - 8) % 8 = i % 8 by omega]

/-- The STR decoding of BYTES is its bit sequence. -/
theorem State.unpack_str_bytes (s : State) (c : Nat) : unpack .str (s.bytes c) = some (s.bits .bytes (8 * c)) := by
  refine congrArg some (ext_getD (d := false) ?_ fun i hi => ?_)
  · rw [length_flatMap_byteBits, State.length_bytes, State.length_bits]
  · rw [length_flatMap_byteBits, State.length_bytes] at hi
    rw [getD_flatMap_byteBits, s.getD_bytes _ _ (by omega), s.getD_bits _ _ _ hi, s.bufBit_bytes]

end Sys2Proof.Machine
end

section
/-! The bus and window statements (20_memory.md). -/

namespace Sys2Proof

open Machine

/-- Settles O18: the gaps select nothing, and no read-only register or window takes a write. -/
theorem unmappedAndReadOnlyIgnored : Obligations.UnmappedAndReadOnlyIgnored := by
  unfold Obligations.UnmappedAndReadOnlyIgnored
  intro s a w
  obtain ⟨-, herr, -⟩ := s.busWrite_keeps (byteAddress a) w
  refine ⟨fun hgap => ?_, s.busRead_reg .cmd, fun hx => ?_,
    fun ⟨hlo, hhi⟩ => s.busWrite_roWindow w hlo hhi, herr⟩
  · refine (unmapped_of_gap (hgap.imp_right (.imp_right ?_))).access w
    rintro ⟨base, words, hmem, hlo, hhi⟩
    obtain ⟨b, -, heq⟩ := List.mem_map.1
      (show (base, words) ∈ allBufs.map fun b => (b.base, b.words s.maxLen) from hmem)
    obtain ⟨rfl, rfl⟩ := Prod.mk.inj heq
    exact ⟨b, hlo, hhi⟩
  · obtain ⟨r, hr, hoff⟩ := List.mem_map.1 (show byteAddress a ∈ roRegs.map Reg.offset from hx)
    rw [← hoff]
    exact s.busWrite_roReg w hr

/-- Settles O20: the access is a word store, after the flags are cleared for SEED and TAPS. -/
theorem windowWriteStoresOneWord : Obligations.WindowWriteStoresOneWord := by
  unfold Obligations.WindowWriteStoresOneWord
  intro s b a w hb hmap
  obtain ⟨k, hk, hx⟩ := Buf.word_of_mapped hmap (byteAddress_mod a)
  have hhost : b.hostWrites = true := by
    simp only [List.mem_cons, List.not_mem_nil, or_false] at hb
    rcases hb with rfl | rfl | rfl | rfl <;> rfl
  rw [hx, s.busWrite_hostWindow w hhost hk]
  refine ⟨_, rfl, ?_, ?_, fun x hx' => ?_⟩
  · split_ifs <;> rfl
  · split_ifs
    · exact s.clearConfig.busRead_storeWord_self w hk
    · exact s.busRead_storeWord_self w hk
  · rw [State.read_storeWord_other _ b k w hx']
    split_ifs <;> rfl

/-- Settles O29: TGT takes the bits of BYTES, which the two windows place alike in their words. -/
theorem tobitsStrCopiesWords : Obligations.TobitsStrCopiesWords := by
  unfold Obligations.TobitsStrCopiesWords
  intro s hc
  have hok : commandResult (.tobits (.fixed .str) .tgt) s =
      .ok (s.storeBits .tgt (s.bits .bytes (8 * s.bcnt.toNat))) :=
    tobitsResult_eq_ok (form := .fixed .str) (dst := .tgt) rfl (by omega) (s.unpack_str_bytes _)
      (by rwa [State.length_bits])
  refine ⟨_, exec_of_ok hok, rfl, fun k hk => ?_⟩
  obtain ⟨htgt, hbytes⟩ : k < Buf.tgt.words s.maxLen ∧ k < Buf.bytes.words s.maxLen := by
    simp only [Buf.words]
    omega
  have hholds := s.holds_storeBits_self .tgt (s.bits .bytes (8 * s.bcnt.toNat))
  have hword := hholds.bufWord_tgt_eq_bytes (k := k) hc (by omega)
  exact (State.busRead_word (s.storeBits .tgt _).succeed htgt).trans (hword.trans (s.busRead_word hbytes).symm)

/-- Settles O10: an idle block applies the host's cycle, and an empty port is an idle cycle. -/
theorem idleBlockAnswersAccess : Obligations.IdleBlockAnswersAccess := by
  unfold Obligations.IdleBlockAnswersAccess
  refine fun s hi => ⟨fun c rest hp hr => ⟨step_write hi hp hr, step_read hi hp hr, fun hs => ?_⟩, fun hp => ?_⟩
  · have hc := State.nextCycle_cons hp
    rw [step_no_access hi (by rwa [hc]) (by rwa [hc]), hp, List.tail_cons]
  · have hc : s.nextCycle = .idle := by rw [State.nextCycle, hp, List.headD_nil]
    rw [step_no_access hi (by rw [hc]; rfl) (by rw [hc]; rfl), hp, List.tail_nil, ← hp]

/-- Settles O21: a word of a window is what its bus read returns, and the operand forms take the bits and bytes from
the window words. -/
theorem windowPacking : Obligations.WindowPacking := by
  unfold Obligations.WindowPacking
  intro s
  refine ⟨fun i hi => ⟨s.bufBit_eq_busRead hi, s.bufBit_eq_busRead hi, s.bufBit_eq_busRead hi,
      s.bufBit_eq_busRead hi⟩, fun n p hn => ?_, fun j hj => ?_, fun j hj => s.byteAt_eq_busRead hj,
    fun b c hbc => ?_, fun b len => ⟨s.length_bits b len, s.getD_bits b len⟩,
    fun c => ⟨s.length_bytes c, s.getD_bytes c⟩⟩
  · rw [mem_tapSet]
    refine and_congr_right fun hp => and_congr_right fun hpn => ?_
    rw [s.bufBit_eq_busRead (b := .taps) (show p - 1 < s.maxLen.bits by omega)]
    rfl
  · have hcap : j < s.maxLen.bits + 1 := by omega
    exact ⟨s.bufBit_eq_busRead hcap, s.bufBit_eq_busRead hcap⟩
  · obtain ⟨b', -, heq⟩ := List.mem_map.1
      (show (b, c) ∈ allBufs.map fun b => (b, b.capacity s.maxLen) from hbc)
    obtain ⟨rfl, rfl⟩ := Prod.mk.inj heq
    rfl

end Sys2Proof
end

section
/-!
The encoding (30_encoding.md R80 to R92): a word is its six fields, and the decoder and the encoder read the same
tables, so `decode` and `encode` are inverse to each other on the legal words and the well-formed commands.
-/

namespace Sys2Proof

open Machine

/-! ### A word and its fields -/

/-- Where R80 puts each field: OP, FMT, SEL, D, S and RES from bit 0 up. -/
theorem getLsbD_wordOfFields (f : Fields) (i : Nat) :
    (wordOfFields f).getLsbD i =
      if i < 8 then f.op.getLsbD i
      else if i < 12 then f.fmt.getLsbD (i - 8)
      else if i < 16 then f.sel.getLsbD (i - 12)
      else if i < 17 then f.d
      else if i < 18 then f.s
      else f.res.getLsbD (i - 18) := by
  simp only [wordOfFields, BitVec.getLsbD_append, BitVec.getLsbD_ofBool]
  grind

/-- R80's fields do not overlap: each is read back from the word. -/
theorem fieldsOf_wordOfFields (f : Fields) : fieldsOf (wordOfFields f) = f := by
  obtain ⟨op, fmt, sel, d, s, res⟩ := f
  simp only [fieldsOf, Fields.mk.injEq]
  refine ⟨?op, ?fmt, ?sel, getLsbD_wordOfFields _ 16, getLsbD_wordOfFields _ 17, ?res⟩
  all_goals
    refine BitVec.eq_of_getLsbD_eq fun i hi => ?_
    simp only [BitVec.getLsbD_extractLsb', getLsbD_wordOfFields]
    grind

/-- R80's fields cover the word: no bit of it is lost. -/
theorem wordOfFields_fieldsOf (w : Word) : wordOfFields (fieldsOf w) = w := by
  refine BitVec.eq_of_getLsbD_eq fun i hi => ?_
  simp only [getLsbD_wordOfFields, fieldsOf, BitVec.getLsbD_extractLsb']
  grind

/-- A word is the one word with its fields. -/
theorem fieldsOf_eq_iff {w : Word} {f : Fields} : fieldsOf w = f ↔ w = wordOfFields f :=
  ⟨fun h => by rw [← h, wordOfFields_fieldsOf], fun h => by rw [h, fieldsOf_wordOfFields]⟩

/-! ### The decoder's tables invert the encoder's -/

@[simp] theorem decodeFmt_code (fmt : Fmt) : decodeFmt fmt.code = some fmt := by cases fmt <;> rfl

@[simp] theorem decodeForm_code (form : InForm) : decodeForm form.code = some form := by
  rcases form with (_ | _ | _) | _ <;> rfl

@[simp] theorem decodeSel_code (b : BufSel) : decodeSel b.code = some b := by cases b <;> rfl

theorem decodeFmt_eq_some_iff {f : BitVec 4} {fmt : Fmt} : decodeFmt f = some fmt ↔ f = fmt.code := by
  refine ⟨fun h => ?_, fun h => h ▸ decodeFmt_code fmt⟩
  unfold decodeFmt at h
  split at h <;> cases h <;> exact BitVec.eq_of_toNat_eq ‹_›

theorem decodeForm_eq_some_iff {f : BitVec 4} {form : InForm} : decodeForm f = some form ↔ f = form.code := by
  refine ⟨fun h => ?_, fun h => h ▸ decodeForm_code form⟩
  unfold decodeForm at h
  split at h <;> cases h <;> exact BitVec.eq_of_toNat_eq ‹_›

theorem decodeSel_eq_some_iff {f : BitVec 4} {b : BufSel} : decodeSel f = some b ↔ f = b.code := by
  refine ⟨fun h => ?_, fun h => h ▸ decodeSel_code b⟩
  unfold decodeSel at h
  split at h <;> cases h <;> exact BitVec.eq_of_toNat_eq ‹_›

theorem decodeDst_eq_some_iff {f : BitVec 4} {b : BufSel} :
    decodeDst f = some b ↔ b.isDestination = true ∧ f = b.code := by
  constructor
  · intro h
    unfold decodeDst at h
    split at h <;> cases h <;> exact ⟨rfl, BitVec.eq_of_toNat_eq ‹_›⟩
  · rintro ⟨hb, rfl⟩
    cases b
    case stgt => cases hb
    all_goals rfl

@[simp] theorem Instr.fields_res (i : Instr) : i.fields.res = 0 := by cases i <;> rfl

theorem decodeFields_fields {i : Instr} (h : i.wf = true) : decodeFields i.fields = some (some i) := by
  cases i with
  | tobits form dst => simp [decodeFields, Instr.fields, decodeDst_eq_some_iff.2 ⟨h, rfl⟩]
  | gkeyStr => rfl
  | _ => simp [decodeFields, Instr.fields]

/-- Every row of `decodeFields` pins OP, and each field to the code of what it decodes to. -/
theorem wf_and_eq_fields_of_decodeFields {f : Fields} {i : Instr} (hres : f.res = 0)
    (h : decodeFields f = some (some i)) : i.wf = true ∧ f = i.fields := by
  obtain ⟨op, fmt, sel, d, s, res⟩ := f
  obtain rfl := hres
  unfold decodeFields at h
  split at h
  case h_10 => cases h
  all_goals
    injection h with h
    split at h
    all_goals cases h
  all_goals
    simp_all [Instr.wf, Instr.fields, BufSel.code, decodeFmt_eq_some_iff, decodeForm_eq_some_iff,
      decodeSel_eq_some_iff, decodeDst_eq_some_iff, ← BitVec.toNat_inj]

theorem decode_eq_ok_iff {w : Word} {i : Instr} :
    decode w = .ok i ↔ (fieldsOf w).res = 0 ∧ decodeFields (fieldsOf w) = some (some i) := by
  unfold decode
  split_ifs with hres
  · exact ⟨nofun, fun ⟨hres0, _⟩ => absurd hres0 hres⟩
  · split <;> simp_all

/-- The word decodes to the command whose fields it has. -/
theorem decode_eq_ok_iff_fields {w : Word} {i : Instr} :
    decode w = .ok i ↔ i.wf = true ∧ fieldsOf w = i.fields := by
  rw [decode_eq_ok_iff]
  constructor
  · rintro ⟨hres, hdec⟩
    exact wf_and_eq_fields_of_decodeFields hres hdec
  · rintro ⟨hwf, hf⟩
    rw [hf]
    exact ⟨i.fields_res, decodeFields_fields hwf⟩

/-! ### The legality table -/

theorem Fmt.exists_code {f : BitVec 4} (h : f.toNat ≤ 2) : ∃ fmt : Fmt, f = fmt.code := by
  obtain h | h | h : f.toNat = 0 ∨ f.toNat = 1 ∨ f.toNat = 2 := by omega
  · exact ⟨.bin, BitVec.eq_of_toNat_eq h⟩
  · exact ⟨.hex, BitVec.eq_of_toNat_eq h⟩
  · exact ⟨.str, BitVec.eq_of_toNat_eq h⟩

theorem InForm.exists_code {f : BitVec 4} (h : f.toNat ≤ 3) : ∃ form : InForm, f = form.code := by
  obtain h | h : f.toNat ≤ 2 ∨ f.toNat = 3 := by omega
  · obtain ⟨fmt, hfmt⟩ := Fmt.exists_code h
    exact ⟨.fixed fmt, hfmt⟩
  · exact ⟨.auto, BitVec.eq_of_toNat_eq h⟩

theorem BufSel.exists_destination_code {f : BitVec 4} (h : f.toNat ≤ 2) :
    ∃ b : BufSel, b.isDestination = true ∧ f = b.code := by
  obtain h | h | h : f.toNat = 0 ∨ f.toNat = 1 ∨ f.toNat = 2 := by omega
  · exact ⟨.seed, rfl, BitVec.eq_of_toNat_eq h⟩
  · exact ⟨.tgt, rfl, BitVec.eq_of_toNat_eq h⟩
  · exact ⟨.out, rfl, BitVec.eq_of_toNat_eq h⟩

theorem BufSel.exists_code {f : BitVec 4} (h : f.toNat ≤ 3) : ∃ b : BufSel, f = b.code := by
  obtain h | h : f.toNat ≤ 2 ∨ f.toNat = 3 := by omega
  · obtain ⟨b, -, hb⟩ := BufSel.exists_destination_code h
    exact ⟨b, hb⟩
  · exact ⟨.stgt, BitVec.eq_of_toNat_eq h⟩

/-- Each row of R87 is the fields of a well-formed command. -/
theorem exists_fields_of_legal {f : Fields} (hres : f.res = 0) (h : LegalFields f) :
    ∃ i : Instr, i.wf = true ∧ f = i.fields := by
  obtain ⟨op, fmt, sel, d, s, res⟩ := f
  dsimp only [LegalFields] at hres h
  subst hres
  rcases h with ⟨rfl, hfmt, hsel, rfl, rfl⟩ | ⟨rfl, hfmt, hsel, rfl, rfl⟩ | ⟨rfl, rfl, rfl, rfl, rfl⟩ |
    ⟨rfl, rfl, rfl, rfl, rfl⟩ | ⟨rfl, hfmt, rfl, rfl⟩ | ⟨rfl, rfl, rfl, rfl⟩ | ⟨rfl, rfl, rfl, rfl, rfl⟩ |
    ⟨rfl, ⟨rfl, hsel⟩ | ⟨rfl, rfl⟩, rfl, rfl⟩ | ⟨rfl, hfmt, rfl, rfl, rfl⟩
  · obtain ⟨form, rfl⟩ := InForm.exists_code hfmt
    obtain ⟨dst, hdst, rfl⟩ := BufSel.exists_destination_code hsel
    exact ⟨.tobits form dst, hdst, rfl⟩
  · obtain ⟨fmt, rfl⟩ := Fmt.exists_code hfmt
    obtain ⟨src, rfl⟩ := BufSel.exists_code hsel
    exact ⟨.frombits fmt src, rfl, rfl⟩
  · exact ⟨.seedint, rfl, rfl⟩
  · exact ⟨.ecfg, rfl, rfl⟩
  · obtain ⟨fmt, rfl⟩ := Fmt.exists_code hfmt
    exact ⟨.get fmt d, rfl, rfl⟩
  · exact ⟨.test s, rfl, rfl⟩
  · exact ⟨.tcfg, rfl, rfl⟩
  · obtain ⟨src, rfl⟩ := BufSel.exists_code hsel
    exact ⟨.gkeyBin src, rfl, rfl⟩
  · exact ⟨.gkeyStr, rfl, rfl⟩
  · obtain ⟨fmt, rfl⟩ := Fmt.exists_code hfmt
    exact ⟨.gget fmt, rfl, rfl⟩

/-- The word of a well-formed command is in R87's table. -/
theorem encode_legal (i : Instr) : Laws.EncodeLegal.Statement i := by
  cases i
  exacts [Laws.EncodeLegal.tobits _ _, Laws.EncodeLegal.frombits _ _, Laws.EncodeLegal.seedint,
    Laws.EncodeLegal.ecfg, Laws.EncodeLegal.get _ _, Laws.EncodeLegal.test _, Laws.EncodeLegal.tcfg,
    Laws.EncodeLegal.gkeyBin _, Laws.EncodeLegal.gkeyStr, Laws.EncodeLegal.gget _]

end Sys2Proof
end

section
/-! The encoding statements (30_encoding.md). -/

namespace Sys2Proof

open Machine

/-- Settles O3: decoding reads the fields of the word, and a word is the one word with its fields. -/
theorem decodeExactlyInvertsEncode : Obligations.DecodeExactlyInvertsEncode := by
  unfold Obligations.DecodeExactlyInvertsEncode
  intro w i
  rw [decode_eq_ok_iff_fields, fieldsOf_eq_iff, encode]

/-- Settles O2: a decoded word is the encoding of a well-formed command, and each row of the table is the fields of
one. -/
theorem legalWordsAreTheTable : Obligations.LegalWordsAreTheTable := by
  unfold Obligations.LegalWordsAreTheTable
  intro w
  constructor
  · rintro ⟨i, hdec⟩
    obtain ⟨hwf, rfl⟩ := (decodeExactlyInvertsEncode w i).1 hdec
    exact encode_legal i hwf
  · rintro ⟨hres, hlegal⟩
    obtain ⟨i, hwf, hfields⟩ := exists_fields_of_legal hres hlegal
    exact ⟨i, decode_eq_ok_iff_fields.2 ⟨hwf, hfields⟩⟩

/-- Settles O1: every clause is closed, and evaluates. -/
theorem sampleWordsDecode : Obligations.SampleWordsDecode := by
  unfold Obligations.SampleWordsDecode
  decide

/-- Settles O4: a word outside the table does not decode (O2), so its step is the error entry. -/
theorem illegalWordRaisesCommandError : Obligations.IllegalWordRaisesCommandError := by
  unfold Obligations.IllegalWordRaisesCommandError
  intro s w hdue hillegal
  cases hdec : decode w with
  | ok i => exact absurd ((legalWordsAreTheTable w).1 ⟨i, hdec⟩) hillegal
  | error e => exact step_undecoded hdue hdec

/-- Settles O5: `step` completes a due command by `exec` alone. -/
theorem stepRunsDecodedCommand : Obligations.StepRunsDecodedCommand := by
  unfold Obligations.StepRunsDecodedCommand
  exact fun s w i hdue hdec => step_decoded hdue hdec

end Sys2Proof
end

section
/-!
The codec's pure functions (40_codec.md R100 to R104): which inputs `unpack` accepts and what it gives, the values of the
hex digits, and what packing does to decoded digits.
-/

namespace Sys2Proof.Machine

/-! ### BIN characters and AUTO -/

theorem all_isBinChar_iff {b : List Byte} : b.all isBinChar = true ↔ ∀ x ∈ b, x = 0x30 ∨ x = 0x31 := by
  simp [isBinChar]

theorem detect_of_bin {b : List Byte} (h : ∀ x ∈ b, x = 0x30 ∨ x = 0x31) : detect b = .bin :=
  if_pos (all_isBinChar_iff.2 h)

theorem detect_of_not_bin {b : List Byte} (h : ¬∀ x ∈ b, x = 0x30 ∨ x = 0x31) : detect b = .str :=
  if_neg (mt all_isBinChar_iff.1 h)

/-! ### Hex digits -/

/-- The three ranges of hex digits (40_codec.md R103), which do not meet. -/
theorem hexVal_eq_some_iff {x : Byte} {v : BitVec 4} : hexVal x = some v ↔
    (0x30 ≤ x.toNat ∧ x.toNat ≤ 0x39 ∧ v.toNat = x.toNat - 0x30) ∨
    (0x61 ≤ x.toNat ∧ x.toNat ≤ 0x66 ∧ v.toNat = x.toNat - 0x61 + 10) ∨
    (0x41 ≤ x.toNat ∧ x.toNat ≤ 0x46 ∧ v.toNat = x.toNat - 0x41 + 10) := by
  have hv := v.isLt
  unfold hexVal
  split_ifs with hdigit hlower hupper
  case neg => simp only [false_iff]; omega
  all_goals
    rw [Option.some_inj, ← BitVec.toNat_inj, BitVec.toNat_ofNat]
    omega

theorem toNat_hexChar (v : BitVec 4) :
    (hexChar v).toNat = if v.toNat ≤ 9 then 0x30 + v.toNat else 0x61 + (v.toNat - 10) := by
  have hv := v.isLt
  unfold hexChar
  split_ifs <;> rw [BitVec.toNat_ofNat] <;> omega

/-- A hex digit in lower case: the letters A to F moved to a to f. -/
def lowerHexDigit (x : Byte) : Byte := if 0x41 ≤ x.toNat ∧ x.toNat ≤ 0x46 then x + 0x20 else x

theorem hexChar_of_hexVal {x : Byte} {v : BitVec 4} (h : hexVal x = some v) : hexChar v = lowerHexDigit x := by
  rw [← BitVec.toNat_inj, toNat_hexChar, lowerHexDigit]
  rcases hexVal_eq_some_iff.1 h with ⟨hlo, hhi, hv⟩ | ⟨hlo, hhi, hv⟩ | ⟨hlo, hhi, hv⟩
  · rw [if_pos (by omega), if_neg (by omega)]
    omega
  · rw [if_neg (by omega), if_neg (by omega)]
    omega
  · rw [if_neg (by omega), if_pos ⟨hlo, hhi⟩, BitVec.toNat_add, show BitVec.toNat (0x20 : Byte) = 0x20 from rfl]
    omega

/-! ### Decoding hex digits -/

theorem unpackHexDigits_cons_eq_some_iff {x : Byte} {xs : List Byte} {v : Bits} :
    unpackHexDigits (x :: xs) = some v ↔
      ∃ h r, hexVal x = some h ∧ unpackHexDigits xs = some r ∧ v = nibbleBits h ++ r := by
  rw [unpackHexDigits]
  cases hexVal x <;> cases unpackHexDigits xs <;> simp [eq_comm]

theorem isSome_unpackHexDigits_iff {b : List Byte} :
    (unpackHexDigits b).isSome = true ↔ ∀ x ∈ b, (hexVal x).isSome = true := by
  induction b with
  | nil => simp [unpackHexDigits]
  | cons x xs ih =>
    rw [List.forall_mem_cons, ← ih, unpackHexDigits]
    cases hexVal x <;> cases unpackHexDigits xs <;> simp

/-- The four bits that digit `j` gives. -/
theorem getD_unpackHexDigits {b : List Byte} {v : Bits} {j : Nat} (hu : unpackHexDigits b = some v)
    (hj : j < b.length) :
    ∃ h, hexVal (b.getD j 0) = some h ∧ ∀ i, i < 4 → v.getD (4 * j + i) false = h.getLsbD (3 - i) := by
  induction b generalizing v j with
  | nil => simp at hj
  | cons x xs ih =>
    obtain ⟨h, r, hx, hr, rfl⟩ := unpackHexDigits_cons_eq_some_iff.1 hu
    cases j with
    | zero =>
      refine ⟨h, hx, fun i hi => ?_⟩
      rw [getD_append, length_nibbleBits, if_pos (by omega), Nat.mul_zero, Nat.zero_add, getD_nibbleBits h i hi]
    | succ j =>
      obtain ⟨h', hx', hbits⟩ := ih hr (by simpa using hj)
      refine ⟨h', hx', fun i hi => ?_⟩
      rw [getD_append, length_nibbleBits, if_neg (by omega), ← hbits i hi]
      congr 1
      omega

theorem ofNat_bitsToNat_nibbleBits : ∀ h : BitVec 4, BitVec.ofNat 4 (bitsToNat (nibbleBits h)) = h := by decide

/-- The HEX packing of decoded digits is the digits in lower case (40_codec.md R106). -/
theorem hexBytes_of_unpackHexDigits {b : List Byte} {v : Bits} (hu : unpackHexDigits b = some v) :
    hexBytes v = b.map lowerHexDigit := by
  induction b generalizing v with
  | nil =>
    obtain rfl := Option.some.inj hu
    rfl
  | cons x xs ih =>
    obtain ⟨h, r, hx, hr, rfl⟩ := unpackHexDigits_cons_eq_some_iff.1 hu
    calc hexBytes (nibbleBits h ++ r)
        = hexChar (BitVec.ofNat 4 (bitsToNat (nibbleBits h))) :: hexBytes r := rfl
      _ = lowerHexDigit x :: xs.map lowerHexDigit := by
        rw [ofNat_bitsToNat_nibbleBits, hexChar_of_hexVal hx, ih hr]

/-! ### The three forms of `unpack` -/

theorem unpack_hex_eq_some_iff_digits {b : List Byte} {v : Bits} :
    unpack .hex b = some v ↔ b.length % 2 = 0 ∧ unpackHexDigits b = some v := by
  rw [unpack]
  split_ifs with hodd
  · simp [hodd]
  · simp [not_not.1 hodd]

/-- One byte that is no hex digit makes HEX decoding fail. -/
theorem unpack_hex_eq_none {b : List Byte} {x : Byte} (hx : x ∈ b) (hnone : hexVal x = none) :
    unpack .hex b = none := by
  refine Option.eq_none_iff_forall_ne_some.2 fun v hv => ?_
  obtain ⟨-, hdigits⟩ := unpack_hex_eq_some_iff_digits.1 hv
  have hdigit := isSome_unpackHexDigits_iff.1 (Option.isSome_of_eq_some hdigits) x hx
  rw [hnone] at hdigit
  cases hdigit

/-- Two vectors of `n` groups of `m` bits that agree on the bits of every group are equal. -/
theorem ext_getD_groups {v w : Bits} {m n : Nat} (hv : v.length = m * n) (hw : w.length = m * n)
    (h : ∀ j, j < n → ∀ i, i < m → v.getD (m * j + i) false = w.getD (m * j + i) false) : v = w := by
  refine ext_getD (d := false) (hv.trans hw.symm) fun k hk => ?_
  rw [hv] at hk
  have hm : 0 < m := Nat.pos_of_mul_pos_right (Nat.zero_lt_of_lt hk)
  rw [← Nat.div_add_mod k m]
  exact h _ (Nat.div_lt_of_lt_mul hk) _ (Nat.mod_lt k hm)

theorem unpack_bin_eq_some_iff {b : List Byte} {v : Bits} : unpack .bin b = some v ↔
    v.length = b.length ∧ ∀ j, j < b.length →
      (b.getD j 0 = 0x30 ∧ v.getD j false = false) ∨ (b.getD j 0 = 0x31 ∧ v.getD j false = true) := by
  constructor
  · intro hu
    refine ⟨length_unpack hu, fun j hj => ?_⟩
    rw [unpack] at hu
    split_ifs at hu with hbin
    obtain rfl := Option.some.inj hu
    rcases all_isBinChar_iff.1 hbin _ (List.getElem_mem hj) with hx | hx <;> simp [hj, hx]
  · rintro ⟨hlen, hbit⟩
    have hbin : b.all isBinChar = true := by
      refine all_isBinChar_iff.2 fun x hx => ?_
      obtain ⟨j, hj, rfl⟩ := List.getElem_of_mem hx
      rw [← List.getD_eq_getElem b 0 hj]
      exact (hbit j hj).imp And.left And.left
    rw [unpack, if_pos hbin]
    refine congrArg some (ext_getD (d := false) (by simp [hlen]) fun j hj => ?_)
    rw [List.length_map] at hj
    rcases hbit j hj with ⟨hx, hv⟩ | ⟨hx, hv⟩ <;> simp_all

theorem unpack_hex_eq_some_iff {b : List Byte} {v : Bits} : unpack .hex b = some v ↔
    b.length % 2 = 0 ∧ v.length = 4 * b.length ∧ ∀ j, j < b.length →
      ∃ h, hexVal (b.getD j 0) = some h ∧ ∀ i, i < 4 → v.getD (4 * j + i) false = h.getLsbD (3 - i) := by
  rw [unpack_hex_eq_some_iff_digits]
  refine and_congr_right fun _ => ⟨fun hu => ⟨unpackHexDigits_length hu, fun j => getD_unpackHexDigits hu⟩, ?_⟩
  rintro ⟨hlen, hdigit⟩
  have hsome : (unpackHexDigits b).isSome = true := by
    refine isSome_unpackHexDigits_iff.2 fun x hx => ?_
    obtain ⟨j, hj, rfl⟩ := List.getElem_of_mem hx
    obtain ⟨h, hh, -⟩ := hdigit j hj
    rw [← List.getD_eq_getElem b 0 hj, hh, Option.isSome_some]
  obtain ⟨w, hw⟩ := Option.isSome_iff_exists.1 hsome
  rw [hw, ext_getD_groups (unpackHexDigits_length hw) hlen fun j hj i hi => ?_]
  obtain ⟨h, hh, hbits⟩ := hdigit j hj
  obtain ⟨h', hh', hbits'⟩ := getD_unpackHexDigits hw hj
  obtain rfl := Option.some.inj (hh.symm.trans hh')
  rw [hbits i hi, hbits' i hi]

theorem getD_flatMap_byteBits_group (b : List Byte) (j : Nat) {i : Nat} (hi : i < 8) :
    (b.flatMap byteBits).getD (8 * j + i) false = (b.getD j 0).getLsbD (7 - i) := by
  rw [getD_flatMap_byteBits, show (8 * j + i) / 8 = j by omega, show (8 * j + i) % 8 = i by omega]

theorem unpack_str_eq_some_iff {b : List Byte} {v : Bits} : unpack .str b = some v ↔
    v.length = 8 * b.length ∧ ∀ j, j < b.length →
      ∀ i, i < 8 → v.getD (8 * j + i) false = (b.getD j 0).getLsbD (7 - i) := by
  rw [unpack, Option.some_inj]
  constructor
  · rintro rfl
    exact ⟨length_flatMap_byteBits b, fun j _ i hi => getD_flatMap_byteBits_group b j hi⟩
  · rintro ⟨hlen, hbits⟩
    refine ext_getD_groups (length_flatMap_byteBits b) hlen fun j hj i hi => ?_
    rw [getD_flatMap_byteBits_group b j hi, hbits j hj i hi]

/-! ### Packing whole bytes -/

theorem pack_str {v : Bits} (h : v.length % 8 = 0) : pack .str v = .ok (.bytes (strBytes v)) :=
  if_neg (not_not.2 h)

theorem pack_hex {v : Bits} (h : v.length % 8 = 0) : pack .hex v = .ok (.bytes (hexBytes v)) :=
  if_neg (not_not.2 h)

theorem unpack_str_strBytes {v : Bits} (h : v.length % 8 = 0) : unpack .str (strBytes v) = some v := by
  rw [unpack, flatMap_strBytes v h]

theorem pack_eq_lengthError {fmt : Fmt} {v : Bits} (hf : fmt ≠ .bin) (h : v.length % 8 ≠ 0) :
    pack fmt v = .error .lengthError := by
  cases fmt with
  | bin => exact absurd rfl hf
  | hex | str => exact if_pos h

end Sys2Proof.Machine
end

section
/-!
The codec's commands (40_codec.md R101, R105): what each branch of TOBITS and FROMBITS answers, and that a stored
result is read back by the other command.
-/

namespace Sys2Proof.Machine

variable {s : State}

/-! ### TOBITS -/

theorem tobitsResult_of_bcnt_gt {form : InForm} {dst : BufSel} (hd : dst.isDestination = true)
    (hc : s.bcnt.toNat > s.maxLen.bits) : tobitsResult form dst s = .error .capacityError := by
  simp [tobitsResult, hd, hc]

theorem tobitsResult_of_unpack_none {form : InForm} {dst : BufSel} (hd : dst.isDestination = true)
    (hc : s.bcnt.toNat ≤ s.maxLen.bits)
    (hu : unpack (resolveForm form (s.bytes s.bcnt.toNat)) (s.bytes s.bcnt.toNat) = none) :
    tobitsResult form dst s = .error .formatError := by
  simp [tobitsResult, hd, Nat.not_lt.2 hc, hu]

theorem tobitsResult_of_length_gt {form : InForm} {dst : BufSel} {v : Bits} (hd : dst.isDestination = true)
    (hc : s.bcnt.toNat ≤ s.maxLen.bits)
    (hu : unpack (resolveForm form (s.bytes s.bcnt.toNat)) (s.bytes s.bcnt.toNat) = some v)
    (hv : v.length > s.maxLen.bits) : tobitsResult form dst s = .error .capacityError := by
  simp [tobitsResult, hd, Nat.not_lt.2 hc, hu, hv]

theorem exec_tobits_tgt {form : InForm} {v : Bits} (hc : s.bcnt.toNat ≤ s.maxLen.bits)
    (hu : unpack (resolveForm form (s.bytes s.bcnt.toNat)) (s.bytes s.bcnt.toNat) = some v)
    (hv : v.length ≤ s.maxLen.bits) : exec (.tobits form .tgt) s = .next (s.storeBits .tgt v).succeed :=
  exec_of_ok (i := .tobits form .tgt) (tobitsResult_eq_ok (dst := .tgt) rfl hc hu hv)

/-- TOBITS's destinations with their buffers (30_encoding.md R83). -/
theorem isDestination_of_mem {dst : BufSel} {b : Buf}
    (h : (dst, b) ∈ [(BufSel.seed, Buf.seed), (.tgt, .tgt), (.out, .out)]) :
    dst.isDestination = true ∧ b = bufOf dst := by
  simp only [List.mem_cons, Prod.mk.injEq, List.not_mem_nil, or_false] at h
  rcases h with ⟨rfl, rfl⟩ | ⟨rfl, rfl⟩ | ⟨rfl, rfl⟩ <;> exact ⟨rfl, rfl⟩

/-! ### FROMBITS -/

theorem frombitsResult_of_len_gt {fmt : Fmt} {src : BufSel} (hc : s.selLen src > s.maxLen.bits) :
    frombitsResult fmt src s = .error .capacityError := by
  simp [frombitsResult, hc]

theorem frombitsResult_bin {src : BufSel} (hc : s.selLen src ≤ s.maxLen.bits) :
    frombitsResult .bin src s = .ok (s.storeBits .out (s.bits (bufOf src) (s.selLen src))) := by
  simp [frombitsResult, Nat.not_lt.2 hc, pack]

theorem frombitsResult_packed {fmt : Fmt} {src : BufSel} {r : List Byte} (hc : s.selLen src ≤ s.maxLen.bits)
    (hp : pack fmt (s.bits (bufOf src) (s.selLen src)) = .ok (.bytes r)) :
    frombitsResult fmt src s = .ok (s.storeBytes r) := by
  simp [frombitsResult, Nat.not_lt.2 hc, hp]

theorem exec_frombits_packed {fmt : Fmt} {src : BufSel} {r : List Byte} (hc : s.selLen src ≤ s.maxLen.bits)
    (hp : pack fmt (s.bits (bufOf src) (s.selLen src)) = .ok (.bytes r)) :
    exec (.frombits fmt src) s = .next (s.storeBytes r).succeed :=
  exec_of_ok (i := .frombits fmt src) (frombitsResult_packed hc hp)

theorem frombitsResult_of_part_byte {fmt : Fmt} {src : BufSel} (hc : s.selLen src ≤ s.maxLen.bits)
    (hf : fmt ≠ .bin) (h8 : s.selLen src % 8 ≠ 0) : frombitsResult fmt src s = .error .lengthError := by
  have hp := pack_eq_lengthError (v := s.bits (bufOf src) (s.selLen src)) hf (by rwa [State.length_bits])
  simp [frombitsResult, Nat.not_lt.2 hc, hp]

/-- The sources with their buffers and length registers (30_encoding.md R83). -/
theorem selLen_of_mem {src : BufSel} {b : Buf} {len : Word}
    (h : (src, b, len) ∈ [(BufSel.seed, Buf.seed, s.slen), (.tgt, .tgt, s.tlen), (.out, .out, s.olen),
      (.stgt, .stgt, s.stlen)]) : b = bufOf src ∧ s.selLen src = len.toNat := by
  simp only [List.mem_cons, Prod.mk.injEq, List.not_mem_nil, or_false] at h
  rcases h with ⟨rfl, rfl, rfl⟩ | ⟨rfl, rfl, rfl⟩ | ⟨rfl, rfl, rfl⟩ | ⟨rfl, rfl, rfl⟩ <;> exact ⟨rfl, rfl⟩

/-! ### Reading a stored result back -/

theorem State.bcnt_storeBytes_toNat (s : State) {r : List Byte} (hr : r.length ≤ s.maxLen.bits) :
    (s.storeBytes r).bcnt.toNat = r.length := MaxLen.toNat_ofNat hr

/-- BYTES up to BCNT, after a byte-form result within the capacity. -/
theorem State.bytes_storeBytes (s : State) {r : List Byte} (hr : r.length ≤ s.maxLen.bits) :
    (s.storeBytes r).bytes (s.storeBytes r).bcnt.toNat = r := by
  rw [s.bcnt_storeBytes_toNat hr]
  exact (s.holdsBytes_storeBytes r).bytes_eq hr

theorem State.tlen_storeBits_tgt_toNat (s : State) {v : Bits} (hv : v.length ≤ s.maxLen.bits) :
    (s.storeBits .tgt v).tlen.toNat = v.length := MaxLen.toNat_ofNat hv

/-- TGT up to TLEN, after a bit-form result within the capacity. -/
theorem State.bits_storeBits_tgt (s : State) {v : Bits} (hv : v.length ≤ s.maxLen.bits) :
    (s.storeBits .tgt v).bits .tgt (s.storeBits .tgt v).tlen.toNat = v := by
  rw [s.tlen_storeBits_tgt_toNat hv]
  exact (s.holds_storeBits_self .tgt v).bits_eq hv

end Sys2Proof.Machine
end

section
/-! The codec statements (40_codec.md). -/

namespace Sys2Proof

open Machine

/-- Settles O22: the form is FMT's own, or `detect` of the bytes. -/
theorem autoDetectsBinOrStr : Obligations.AutoDetectsBinOrStr := by
  unfold Obligations.AutoDetectsBinOrStr
  exact fun b => ⟨fun _ => rfl, detect_of_bin, detect_of_not_bin⟩

/-- Settles O23: the ranges of `hexVal` and `hexChar`, and that decoding succeeds on hex digits only. -/
theorem hexDigitValues : Obligations.HexDigitValues := by
  unfold Obligations.HexDigitValues
  refine ⟨fun x v => hexVal_eq_some_iff, fun v => ⟨fun hv => ?_, fun hv => ?_⟩, ?_⟩
  · rw [toNat_hexChar, if_pos hv]
  · rw [toNat_hexChar, if_neg (by omega)]
  · rintro b ⟨x, hx, hnone⟩
    exact unpack_hex_eq_none hx hnone

/-- Settles O24: each form by its own equivalence. -/
theorem unpackForms : Obligations.UnpackForms := by
  unfold Obligations.UnpackForms
  exact ⟨fun b v => unpack_bin_eq_some_iff, fun b v => unpack_hex_eq_some_iff, fun b v => unpack_str_eq_some_iff⟩

/-- Settles O25: the checks in order, and a store of the decoded bits that clears the flags for SEED. -/
theorem tobitsDecodesBytes : Obligations.TobitsDecodesBytes := by
  unfold Obligations.TobitsDecodesBytes
  intro s form dst b hmem
  obtain ⟨hd, rfl⟩ := isDestination_of_mem hmem
  refine ⟨(decodeExactlyInvertsEncode _ (.tobits form dst)).2 ⟨hd, rfl⟩, fun v hc hu hv => ?_,
    fun hc => exec_of_error (i := .tobits form dst) (tobitsResult_of_bcnt_gt hd hc),
    fun hc hu => exec_of_error (i := .tobits form dst) (tobitsResult_of_unpack_none hd hc hu),
    fun v hc hu hv => exec_of_error (i := .tobits form dst) (tobitsResult_of_length_gt hd hc hu hv)⟩
  refine ⟨_, exec_of_ok (i := .tobits form dst) (tobitsResult_eq_ok hd hc hu hv), ?_, ?_, ?_⟩
  · cases dst with
    | seed | tgt | out => rfl
    | stgt => cases hd
  · exact State.holds_mem (s.holds_storeBits_self dst v) (State.seedChanged_mem _ dst) (by simp)
  · exact (storesOnly_storeBits s dst v).trans (.of_mem_eq _ (State.seedChanged_mem _ dst)) (by simp)

/-- Settles O26: the checks in order, and a store of the source's bits into OUT or of their packing into BYTES. -/
theorem frombitsPacksBits : Obligations.FrombitsPacksBits := by
  unfold Obligations.FrombitsPacksBits
  intro s fmt src b len hmem
  obtain ⟨rfl, hlen⟩ := selLen_of_mem hmem
  rw [← hlen]
  refine ⟨(decodeExactlyInvertsEncode _ (.frombits fmt src)).2 ⟨rfl, rfl⟩, fun hc hfmt => ?_,
    fun hc => exec_of_error (i := .frombits fmt src) (frombitsResult_of_len_gt hc),
    fun hc hf h8 => exec_of_error (i := .frombits fmt src) (frombitsResult_of_part_byte hc hf h8)⟩
  by_cases hf : fmt = .bin
  · subst hf
    refine ⟨_, exec_of_ok (i := .frombits .bin src) (frombitsResult_bin hc), fun _ => ⟨?_, ?_, ?_⟩,
      fun h => absurd rfl h⟩
    · have holen : BitVec.ofNat 32 (s.bits (bufOf src) (s.selLen src)).length = len := by
        rw [State.length_bits, hlen, BitVec.ofNat_toNat, BitVec.setWidth_eq]
      rw [← holen]
      rfl
    · exact s.holds_storeBits_self .out _
    · exact storesOnly_storeBits s .out _
  · obtain ⟨r, hp, hpack⟩ := pack_ok (v := s.bits (bufOf src) (s.selLen src)) hf
      (by rw [State.length_bits]; exact hfmt.resolve_left hf)
    exact ⟨_, exec_of_ok (i := .frombits fmt src) (frombitsResult_packed hc hp), fun h => absurd h hf,
      fun _ => ⟨r, hpack, rfl, s.holdsBytes_storeBytes r, storesOnly_storeBytes s r⟩⟩

/-- Settles O27: STR decoding inverts STR packing (`flatMap_strBytes`), and each command reads what the other
stored. -/
theorem strRoundTrip : Obligations.StrRoundTrip := by
  unfold Obligations.StrRoundTrip
  intro s hc h8
  have hlen : (s.bits .tgt s.tlen.toNat).length = s.tlen.toNat := s.length_bits .tgt _
  generalize hv : s.bits .tgt s.tlen.toNat = v at hlen
  have hvcap : v.length ≤ s.maxLen.bits := by rwa [hlen]
  have h8v : v.length % 8 = 0 := by rwa [hlen]
  have hp : pack .str (s.bits .tgt s.tlen.toNat) = .ok (.bytes (strBytes v)) := by rw [hv, pack_str h8v]
  have hr : (strBytes v).length ≤ s.maxLen.bits := by
    rw [length_strBytes]
    omega
  have hcount : (s.storeBytes (strBytes v)).bcnt.toNat ≤ s.maxLen.bits := by rwa [s.bcnt_storeBytes_toNat hr]
  have hu : unpack .str ((s.storeBytes (strBytes v)).bytes (s.storeBytes (strBytes v)).bcnt.toNat) = some v := by
    rw [s.bytes_storeBytes hr, unpack_str_strBytes h8v]
  refine ⟨_, _, exec_frombits_packed (src := .tgt) hc hp, exec_tobits_tgt (form := .fixed .str) hcount hu hvcap,
    rfl, ?_, State.bits_storeBits_tgt (s.storeBytes (strBytes v)).succeed hvcap⟩
  exact BitVec.eq_of_toNat_eq ((MaxLen.toNat_ofNat hvcap).trans hlen)

/-- Settles O28: packing decoded digits gives them in lower case (`hexBytes_of_unpackHexDigits`), and each command
reads what the other stored. -/
theorem hexRoundTrip : Obligations.HexRoundTrip := by
  unfold Obligations.HexRoundTrip
  intro s h2 hc hdigit
  have hsome : (unpackHexDigits (s.bytes s.bcnt.toNat)).isSome = true := by
    refine isSome_unpackHexDigits_iff.2 fun x hx => ?_
    obtain ⟨j, hj, rfl⟩ := List.mem_map.1 hx
    exact hdigit j (List.mem_range.1 hj)
  obtain ⟨v, hv⟩ := Option.isSome_iff_exists.1 hsome
  have hlen : v.length = 4 * s.bcnt.toNat := by rw [unpackHexDigits_length hv, State.length_bytes]
  have hvcap : v.length ≤ s.maxLen.bits := by omega
  have hu : unpack .hex (s.bytes s.bcnt.toNat) = some v :=
    unpack_hex_eq_some_iff_digits.2 ⟨by rwa [State.length_bytes], hv⟩
  have hp : pack .hex ((s.storeBits .tgt v).bits .tgt (s.storeBits .tgt v).tlen.toNat) =
      .ok (.bytes ((s.bytes s.bcnt.toNat).map lowerHexDigit)) := by
    rw [s.bits_storeBits_tgt hvcap, pack_hex (by omega), hexBytes_of_unpackHexDigits hv]
  have hcount : (s.storeBits .tgt v).tlen.toNat ≤ s.maxLen.bits := by rwa [s.tlen_storeBits_tgt_toNat hvcap]
  refine ⟨_, _, exec_tobits_tgt (form := .fixed .hex) (by omega) hu hvcap,
    exec_frombits_packed (src := .tgt) hcount hp, rfl, ?_, fun j hj => ?_⟩
  · simp
  · have hholds := (s.storeBits .tgt v).succeed.holdsBytes_storeBytes ((s.bytes s.bcnt.toNat).map lowerHexDigit)
    refine (hholds j (show j < s.maxLen.bits by omega)).trans ?_
    simp [State.bytes, hj, lowerHexDigit]

end Sys2Proof
end

section
/-!
The generation function (41_lfsr_engine.md R130, R131): its bits, and that a longer output extends a shorter one.
-/

namespace Sys2Proof.Machine

/-! ### Shorter and longer outputs -/

theorem take_lfsr (seed : Bits) (taps : List Nat) {a b : Nat} (h : a ≤ b) :
    (lfsr seed taps b).take a = lfsr seed taps a := by
  induction b, h using Nat.le_induction with
  | base => exact List.take_of_length_le (by simp)
  | succ b hab ih => rw [lfsr_succ, List.take_append_of_le_length (by simpa using hab), ih]

theorem getD_lfsr_of_le (seed : Bits) (taps : List Nat) {a b k : Nat} (hk : k < a) (h : a ≤ b) :
    (lfsr seed taps b).getD k false = (lfsr seed taps a).getD k false := by
  rw [← take_lfsr seed taps h]
  simp only [List.getD_eq_getElem?_getD, List.getElem?_take_of_lt hk]

/-! ### Every bit -/

theorem getD_lfsr (seed : Bits) (taps : List Nat) {k len : Nat} (hk : k < len) :
    (lfsr seed taps len).getD k false =
      if k < seed.length then seed.getD k false else feedback taps (lfsrHistory seed taps k) := by
  rw [getD_lfsr_of_le seed taps (Nat.lt_succ_self k) hk, lfsr_succ, getD_append]
  simp

/-- The feedback counts its taps back from the bit it produces (00_scope.md R12). -/
theorem feedback_lfsrHistory (seed : Bits) {taps : List Nat} {k len : Nat} (hk : k < len)
    (htaps : ∀ p ∈ taps, 1 ≤ p ∧ p ≤ k) :
    feedback taps (lfsrHistory seed taps k) =
      xorSum (taps.map fun p => (lfsr seed taps len).getD (k - p) false) := by
  refine congrArg xorSum (List.map_congr_left fun p hp => ?_)
  obtain ⟨hpos, hle⟩ := htaps p hp
  rw [getD_lfsrHistory seed taps k (p - 1) (by omega), getD_lfsr_of_le seed taps (by omega) hk.le]
  congr 1
  omega

/-! ### Feedback that produces zeros -/

@[simp] theorem feedback_nil (h : Bits) : feedback [] h = false := rfl

/-- Zeros feed back a zero, whatever the taps. -/
theorem feedback_replicate_false (taps : List Nat) (k : Nat) : feedback taps (List.replicate k false) = false := by
  simp only [feedback, List.getD_eq_getElem?_getD, List.getElem?_getD_replicate_default_eq, List.map_const',
    xorSum_replicate_false]

theorem lfsr_zero_seed (n : Nat) (taps : List Nat) (len : Nat) :
    lfsr (List.replicate n false) taps len = List.replicate len false := by
  induction len with
  | zero => rfl
  | succ k ih =>
    have hhist : lfsrHistory (List.replicate n false) taps k = List.replicate k false := by
      rw [← List.reverse_reverse (lfsrHistory _ _ _), ← lfsr, ih, List.reverse_replicate]
    rw [lfsr_succ, ih, hhist, feedback_replicate_false, List.replicate_succ']
    simp

theorem lfsr_no_taps (seed : Bits) {len : Nat} (h : seed.length ≤ len) :
    lfsr seed [] len = seed ++ List.replicate (len - seed.length) false := by
  refine ext_getD (d := false) (by simp [h]) fun k hk => ?_
  rw [length_lfsr] at hk
  rw [getD_lfsr seed [] hk, getD_append, feedback_nil]
  simp

theorem lfsr_eq_take (seed : Bits) (taps : List Nat) {len : Nat} (h : len ≤ seed.length) :
    lfsr seed taps len = seed.take len := by
  refine ext_getD (d := false) (by simpa using h) fun k hk => ?_
  rw [length_lfsr] at hk
  rw [getD_lfsr seed taps hk, if_pos (hk.trans_le h)]
  simp only [List.getD_eq_getElem?_getD, List.getElem?_take_of_lt hk]

end Sys2Proof.Machine
end

section
/-!
The engine's commands (41_lfsr_engine.md R136 to R143): what each branch of SEEDINT, ECFG, GET and TEST answers.
-/

namespace Sys2Proof.Machine

variable {s : State}

/-! ### SEEDINT -/

/-- Bit `i` of R136's integer form; beyond the 32 bits of the integer it is 0. -/
theorem getD_seedOfInt (v : Word) (n i : Nat) :
    (seedOfInt v n).getD i false =
      (decide (i < n) && decide (n - 1 - i ≤ 31) && v.getLsbD (n - 1 - i)) := by
  by_cases hi : i < n
  · by_cases hw : n - 1 - i ≤ 31
    · simp [seedOfInt, hi, hw]
    · simp [seedOfInt, hi, hw, BitVec.getLsbD_of_ge v (n - 1 - i) (by omega)]
  · simp [seedOfInt, List.getD_eq_getElem?_getD, hi]

theorem seedintResult_eq_ok (h0 : 0 < s.n.toNat) (hc : s.n.toNat ≤ s.maxLen.bits)
    (hv : s.n.toNat < 32 → s.argVal.toNat < 2 ^ s.n.toNat) :
    seedintResult s = .ok (s.storeBits .seed (seedOfInt s.argVal s.n.toNat)).clearConfig := by
  rw [seedintResult, if_neg h0.ne', if_neg (Nat.not_lt.2 hc),
    if_neg fun ⟨hn, hge⟩ => absurd (hv hn) (Nat.not_lt.2 hge)]

theorem seedintResult_of_n_zero (h0 : s.n.toNat = 0) : seedintResult s = .error .parameterError :=
  if_pos h0

theorem seedintResult_of_n_gt (hc : s.n.toNat > s.maxLen.bits) : seedintResult s = .error .capacityError := by
  rw [seedintResult, if_neg (Nat.ne_zero_of_lt hc), if_pos hc]

theorem seedintResult_of_value_ge (h0 : 0 < s.n.toNat) (hc : s.n.toNat ≤ s.maxLen.bits) (hn : s.n.toNat < 32)
    (hv : s.argVal.toNat ≥ 2 ^ s.n.toNat) : seedintResult s = .error .lengthError := by
  rw [seedintResult, if_neg h0.ne', if_neg (Nat.not_lt.2 hc), if_pos ⟨hn, hv⟩]

/-- A new seed, committed: SEED, SLEN and the cleared flags alone. -/
theorem State.succeed_storeBits_seed (s : State) (v : Bits) :
    (s.storeBits .seed v).clearConfig.succeed = { s with
      slen := BitVec.ofNat 32 v.length, configured := false, tvalid := false, err := .success, inflight := none,
      mem := (s.storeBits .seed v).mem } := by
  rfl

/-! ### ECFG -/

theorem State.tapAbove_eq_false {n : Nat}
    (h : ∀ p, n < p → p ≤ s.maxLen.bits → s.bufBit .taps (p - 1) = false) : s.tapAbove n = false := by
  refine Bool.eq_false_iff.2 fun habove => ?_
  obtain ⟨p, hn, hp, htap⟩ := (s.tapAbove_iff n).1 habove
  exact absurd htap (Bool.eq_false_iff.1 (h p hn hp))

theorem ecfgResult_eq_ok (h0 : 0 < s.n.toNat) (hc : s.n.toNat ≤ s.maxLen.bits) (ht : s.tapAbove s.n.toNat = false)
    (hs : s.slen = s.n) : ecfgResult s = .ok { s with configured := true, tvalid := false } := by
  rw [ecfgResult, if_neg h0.ne', if_neg (Nat.not_lt.2 hc), if_neg (Bool.eq_false_iff.1 ht), if_neg (not_not.2 hs)]

theorem ecfgResult_of_n_zero (h0 : s.n.toNat = 0) : ecfgResult s = .error .parameterError :=
  if_pos h0

theorem ecfgResult_of_n_gt (hc : s.n.toNat > s.maxLen.bits) : ecfgResult s = .error .capacityError := by
  rw [ecfgResult, if_neg (Nat.ne_zero_of_lt hc), if_pos hc]

theorem ecfgResult_of_tapAbove (h0 : 0 < s.n.toNat) (hc : s.n.toNat ≤ s.maxLen.bits)
    (ht : s.tapAbove s.n.toNat = true) : ecfgResult s = .error .parameterError := by
  rw [ecfgResult, if_neg h0.ne', if_neg (Nat.not_lt.2 hc), if_pos ht]

theorem ecfgResult_of_slen_ne (h0 : 0 < s.n.toNat) (hc : s.n.toNat ≤ s.maxLen.bits)
    (ht : s.tapAbove s.n.toNat = false) (hs : s.slen ≠ s.n) : ecfgResult s = .error .lengthError := by
  rw [ecfgResult, if_neg h0.ne', if_neg (Nat.not_lt.2 hc), if_neg (Bool.eq_false_iff.1 ht), if_pos hs]

/-! ### GET -/

theorem packsBytes_iff {fmt : Fmt} : packsBytes fmt = true ↔ fmt ≠ .bin := by cases fmt <;> decide

theorem getResult_eq_ok {fmt : Fmt} {dflt : Bool} (hcfg : s.configured = true)
    (hc : s.getLen dflt ≤ s.maxLen.bits) (h8 : fmt = .bin ∨ s.getLen dflt % 8 = 0) :
    getResult fmt dflt s = .ok (s.emit fmt (s.engineOutput (s.getLen dflt))) := by
  have hwhole : ¬(packsBytes fmt = true ∧ s.getLen dflt % 8 ≠ 0) := by
    rw [packsBytes_iff]
    tauto
  rw [getResult, hcfg, if_neg (by decide), if_neg (Nat.not_lt.2 hc), if_neg hwhole]

theorem getResult_of_not_configured {fmt : Fmt} {dflt : Bool} (hcfg : s.configured = false) :
    getResult fmt dflt s = .error .parameterError :=
  getResult_of_check (by simp [getCheck, hcfg])

theorem getResult_of_len_gt {fmt : Fmt} {dflt : Bool} (hcfg : s.configured = true)
    (hc : s.getLen dflt > s.maxLen.bits) : getResult fmt dflt s = .error .capacityError :=
  getResult_of_check (by simp [getCheck, hcfg, hc])

theorem getResult_of_part_byte {fmt : Fmt} {dflt : Bool} (hcfg : s.configured = true)
    (hc : s.getLen dflt ≤ s.maxLen.bits) (hf : fmt ≠ .bin) (h8 : s.getLen dflt % 8 ≠ 0) :
    getResult fmt dflt s = .error .lengthError :=
  getResult_of_check (by simp [getCheck, hcfg, Nat.not_lt.2 hc, packsBytes_iff.2 hf, h8])

/-- A keystream under FMT = BIN, committed: OUT and OLEN alone. -/
theorem State.succeed_emit_bin (s : State) (v : Bits) :
    (s.emit .bin v).succeed = { s with
      olen := BitVec.ofNat 32 v.length, err := .success, inflight := none, mem := (s.emit .bin v).mem } ∧
      StoresOnly [.out] s (s.emit .bin v).succeed :=
  ⟨rfl, storesOnly_storeBits s .out v⟩

/-- A keystream of whole bytes under HEX or STR, committed: OUT and OLEN, and its packing in BYTES and BCNT. -/
theorem State.succeed_emit_packed (s : State) {fmt : Fmt} {v : Bits} (hf : fmt ≠ .bin) (h8 : v.length % 8 = 0) :
    ∃ r, IsPackOf fmt v r ∧
      (s.emit fmt v).succeed = { s with
        olen := BitVec.ofNat 32 v.length, bcnt := BitVec.ofNat 32 r.length, err := .success, inflight := none,
        mem := (s.emit fmt v).mem } ∧
      (s.emit fmt v).succeed.HoldsBytes r ∧ StoresOnly [.out, .bytes] s (s.emit fmt v).succeed := by
  obtain ⟨r, hp, hpack⟩ := pack_ok hf h8
  rw [s.emit_packed hp]
  refine ⟨r, hpack, ?_, (s.storeBits .out v).holdsBytes_storeBytes r, storesOnly_storeBits_storeBytes s v r⟩
  rfl

/-! ### TEST -/

/-- The target TEST compares with: TGT when S = 1, STGT when S = 0 (41_lfsr_engine.md R143). -/
def State.testTarget (s : State) (supplied : Bool) : Bits :=
  if supplied then s.bits .tgt s.tlen.toNat else s.bits .stgt s.stlen.toNat

/-- With an engine and a target, TEST is the comparison. -/
theorem testResult_eq_compareWith {supplied : Bool} (hcfg : s.configured = true)
    (hv : supplied = false → s.tvalid = true) (hc : supplied = true → s.tlen.toNat ≤ s.maxLen.bits) :
    testResult supplied s = s.compareWith (s.testTarget supplied) := by
  cases supplied with
  | false => simp [testResult, State.testTarget, hcfg, hv rfl]
  | true => simp [testResult, State.testTarget, hcfg, Nat.not_lt.2 (hc rfl)]

theorem State.compareWith_of_eq {v : Bits} (h : s.engineOutput v.length = v) : s.compareWith v = .ok s :=
  if_neg (not_not.2 h)

theorem State.compareWith_of_ne {v : Bits} (h : s.engineOutput v.length ≠ v) :
    s.compareWith v = .error .validationError :=
  if_pos h

theorem testResult_of_not_configured {supplied : Bool} (hcfg : s.configured = false) :
    testResult supplied s = .error .parameterError := by
  rw [testResult, hcfg, if_pos (by decide)]

theorem testResult_of_not_tvalid (hcfg : s.configured = true) (hv : s.tvalid = false) :
    testResult false s = .error .parameterError := by
  simp [testResult, hcfg, hv]

theorem testResult_of_tlen_gt (hcfg : s.configured = true) (hc : s.tlen.toNat > s.maxLen.bits) :
    testResult true s = .error .capacityError := by
  simp [testResult, hcfg, hc]

/-- A TCFG that succeeds committed a reconstruction that passed its self-check (42_berlekamp_massey.md R168, R169). -/
theorem exists_of_tcfgResult_eq_ok {u : State} (h : tcfgResult s = .ok u) :
    ∃ v : Bits, v.length ≤ s.maxLen.bits ∧ lfsr (bmSeed v (bmFinal v)) (bmTaps (bmFinal v)) v.length = v ∧
      u = s.commitReconstruction v (bmFinal v) := by
  unfold tcfgResult State.reconstruct at h
  split_ifs at h with hcap hcheck
  cases h
  exact ⟨_, by simpa using hcap, not_not.1 hcheck, rfl⟩

/-- A self-consistent target-driven engine passes the test of its stored target (41_lfsr_engine.md R143). -/
theorem testResult_of_selfConsistent (hcfg : s.configured = true) (hv : s.tvalid = true) (h : s.SelfConsistent) :
    testResult false s = .ok s := by
  rw [testResult_eq_compareWith (supplied := false) hcfg (fun _ => hv) nofun]
  refine State.compareWith_of_eq ?_
  simpa [State.testTarget] using h hv

/-- Such a test changes nothing in a state that a successful command has left. -/
theorem exec_test_succeed_of_selfConsistent (hcfg : s.configured = true) (hv : s.tvalid = true)
    (h : s.SelfConsistent) : exec (.test false) s.succeed = .next s.succeed :=
  exec_of_ok (i := .test false) (u := s.succeed) (testResult_of_selfConsistent hcfg hv h)

end Sys2Proof.Machine
end

section
/-! The LFSR engine statements (41_lfsr_engine.md), and TEST after TCFG (42_berlekamp_massey.md R168). -/

namespace Sys2Proof

open Machine

/-- Settles O30: the bit at `k` is the seed's or the feedback of the first `k` bits, which a longer output keeps. -/
theorem lfsrRecurrence : Obligations.LfsrRecurrence := by
  unfold Obligations.LfsrRecurrence
  intro seed taps len htaps
  refine ⟨length_lfsr seed taps len, fun k hk => ?_⟩
  rw [getD_lfsr seed taps hk]
  split_ifs with hs
  · rfl
  · refine feedback_lfsrHistory seed hk fun p hp => ?_
    obtain ⟨hpos, hle⟩ := htaps p hp
    exact ⟨hpos, hle.trans (Nat.not_lt.1 hs)⟩

/-- Settles O31: each property by its own lemma. -/
theorem lfsrProperties : Obligations.LfsrProperties := by
  unfold Obligations.LfsrProperties
  exact ⟨fun seed taps _ h => lfsr_eq_take seed taps h, fun seed taps _ _ h => take_lfsr seed taps h,
    lfsr_zero_seed, fun seed _ h => lfsr_no_taps seed h⟩

/-- Settles O32: the checks in order, and a store of the integer's form into SEED that clears the flags. -/
theorem seedintLoadsInteger : Obligations.SeedintLoadsInteger := by
  unfold Obligations.SeedintLoadsInteger
  intro s
  refine ⟨(decodeExactlyInvertsEncode _ .seedint).2 ⟨rfl, rfl⟩, fun h0 hc hv => ?_,
    fun h0 => exec_of_error (i := .seedint) (seedintResult_of_n_zero h0),
    fun hc => exec_of_error (i := .seedint) (seedintResult_of_n_gt hc),
    fun h0 hc hn hv => exec_of_error (i := .seedint) (seedintResult_of_value_ge h0 hc hn hv)⟩
  refine ⟨_, exec_of_ok (i := .seedint) (seedintResult_eq_ok h0 hc hv), ?_, fun i hi => ?_,
    storesOnly_storeBits s .seed _⟩
  · have hslen : BitVec.ofNat 32 (seedOfInt s.argVal s.n.toNat).length = s.n := by simp
    have hseed := s.succeed_storeBits_seed (seedOfInt s.argVal s.n.toNat)
    rwa [hslen] at hseed
  · rw [← getD_seedOfInt]
    exact s.holds_storeBits_self .seed _ i hi

/-- Settles O33: the checks in order; the tap check finds exactly the taps above N (`State.tapAbove_iff`). -/
theorem ecfgValidatesEngine : Obligations.EcfgValidatesEngine := by
  unfold Obligations.EcfgValidatesEngine
  intro s
  exact ⟨(decodeExactlyInvertsEncode _ .ecfg).2 ⟨rfl, rfl⟩,
    fun h0 hc ht hs => exec_of_ok (i := .ecfg) (ecfgResult_eq_ok h0 hc (State.tapAbove_eq_false ht) hs),
    fun h0 => exec_of_error (i := .ecfg) (ecfgResult_of_n_zero h0),
    fun hc => exec_of_error (i := .ecfg) (ecfgResult_of_n_gt hc),
    fun p h0 hn hp htap => exec_of_error (i := .ecfg)
      (ecfgResult_of_tapAbove h0 (hn.le.trans hp) ((s.tapAbove_iff _).2 ⟨p, hn, hp, htap⟩)),
    fun h0 hc ht hs => exec_of_error (i := .ecfg) (ecfgResult_of_slen_ne h0 hc (State.tapAbove_eq_false ht) hs)⟩

/-- Settles O34: the checks in order, and the engine's output emitted into OUT, and into BYTES under HEX and STR. -/
theorem getGeneratesKeystream : Obligations.GetGeneratesKeystream := by
  unfold Obligations.GetGeneratesKeystream
  intro s fmt dflt len hlen
  obtain rfl : len = s.getLen dflt := hlen
  refine ⟨(decodeExactlyInvertsEncode _ (.get fmt dflt)).2 ⟨rfl, rfl⟩, fun hcfg hc h8 => ?_,
    fun hcfg => exec_of_error (i := .get fmt dflt) (getResult_of_not_configured hcfg),
    fun hcfg hc => exec_of_error (i := .get fmt dflt) (getResult_of_len_gt hcfg hc),
    fun hcfg hc hf h8 => exec_of_error (i := .get fmt dflt) (getResult_of_part_byte hcfg hc hf h8)⟩
  have hout : (s.engineOutput (s.getLen dflt)).length = s.getLen dflt := s.length_engineOutput _
  refine ⟨_, exec_of_ok (i := .get fmt dflt) (getResult_eq_ok hcfg hc h8), s.emit_holds_out fmt _, ?_, fun hf => ?_⟩
  · rintro rfl
    have hbin := s.succeed_emit_bin (s.engineOutput (s.getLen dflt))
    rwa [hout] at hbin
  · have hpacked := s.succeed_emit_packed hf (v := s.engineOutput (s.getLen dflt))
      (by rw [hout]; exact h8.resolve_left hf)
    rwa [hout] at hpacked

/-- Settles O35: TEST with an engine and a target is the comparison, which commits nothing; its other checks. -/
theorem testComparesWithTarget : Obligations.TestComparesWithTarget := by
  unfold Obligations.TestComparesWithTarget
  intro s supplied v hv
  obtain rfl : v = s.testTarget supplied := hv
  refine ⟨(decodeExactlyInvertsEncode _ (.test supplied)).2 ⟨rfl, rfl⟩, fun hcfg htv hc => ?_,
    fun hcfg => exec_of_error (i := .test supplied) (testResult_of_not_configured hcfg), ?_, ?_⟩
  · have hcmp := testResult_eq_compareWith hcfg htv hc
    exact ⟨fun heq => exec_of_ok (i := .test supplied) (hcmp.trans (State.compareWith_of_eq heq)),
      fun hne => exec_of_error (i := .test supplied) (hcmp.trans (State.compareWith_of_ne hne))⟩
  · rintro hcfg rfl htv
    exact exec_of_error (i := .test false) (testResult_of_not_tvalid hcfg htv)
  · rintro hcfg rfl hc
    exact exec_of_error (i := .test true) (testResult_of_tlen_gt hcfg hc)

/-- Settles O44: TCFG commits a target that passed its self-check, so the engine generates it
(`State.SelfConsistent.commitReconstruction`). -/
theorem testPassesAfterTcfg : Obligations.TestPassesAfterTcfg := by
  unfold Obligations.TestPassesAfterTcfg
  intro s t h he
  obtain ⟨u, hu, rfl⟩ := ok_of_success h he
  obtain ⟨v, hv, hcheck, rfl⟩ := exists_of_tcfgResult_eq_ok hu
  exact exec_test_succeed_of_selfConsistent (by simp) (by simp)
    (.commitReconstruction (bmRun_bounded v v.length).l_le hv hcheck)

end Sys2Proof
end

section
/-!
Bit vectors as power series over GF(2) (00_scope.md R13): `Bool` is that field, with `^^` as its sum and `&&` as its
product. A pair `(C, L)` generates a sequence `s` when the product `C * s` vanishes from `L` on (42_berlekamp_massey.md
R160); Massey's lemma bounds the length of an LFSR that goes on where another one fails.
-/

namespace Sys2Proof.Machine

open PowerSeries

/-! ### The series of a vector -/

/-- The power series whose coefficient `j` is bit `j` of the vector, and 0 beyond it. -/
noncomputable def toSeries (v : Bits) : PowerSeries Bool := .mk fun j => v.getD j false

@[simp] theorem coeff_toSeries (v : Bits) (j : Nat) : coeff j (toSeries v) = v.getD j false := coeff_mk j _

@[simp] theorem toSeries_polyAdd (p q : Bits) : toSeries (polyAdd p q) = toSeries p + toSeries q := by
  ext j
  rw [map_add, coeff_toSeries, coeff_toSeries, coeff_toSeries, getD_polyAdd, Bool.add_eq_xor]

@[simp] theorem toSeries_polyShift (k : Nat) (p : Bits) : toSeries (polyShift k p) = X ^ k * toSeries p := by
  ext j
  rw [coeff_X_pow_mul', coeff_toSeries, coeff_toSeries, getD_polyShift]
  by_cases hk : k ≤ j
  · rw [decide_eq_true hk, Bool.true_and, if_pos hk]
  · rw [decide_eq_false hk, Bool.false_and, if_neg hk, Bool.zero_eq_false]

/-- The XOR of a list of bits is its sum in GF(2). -/
theorem xorSum_eq_sum (v : Bits) : xorSum v = v.sum := rfl

theorem xorSum_map_range (f : Nat → Bool) (n : Nat) :
    xorSum ((List.range n).map f) = ∑ j ∈ Finset.range n, f j := rfl

/-! ### The connection polynomial of a tap list -/

/-- The connection polynomial `1 + sum over p in T of x^p` (42_berlekamp_massey.md R160). -/
noncomputable def connection (taps : List Nat) : PowerSeries Bool := 1 + (taps.map fun p => X ^ p).sum

theorem coeff_connection (taps : List Nat) (j : Nat) :
    coeff j (connection taps) = (if j = 0 then 1 else 0) + (taps.map fun p => if j = p then (1 : Bool) else 0).sum := by
  simp only [connection, map_add, coeff_one, map_list_sum, List.map_map, Function.comp_def, coeff_X_pow]

/-- A position that is not tapped has coefficient 0. -/
theorem coeff_connection_of_notMem {taps : List Nat} {j : Nat} (h : j ∉ taps) :
    coeff j (connection taps) = if j = 0 then 1 else 0 := by
  rw [coeff_connection, List.sum_eq_zero, add_zero]
  intro x hx
  obtain ⟨p, hp, rfl⟩ := List.mem_map.1 hx
  exact if_neg fun hj : j = p => h (hj ▸ hp)

/-- The positions of a tap set are the coefficients of its connection polynomial. -/
theorem coeff_connection_of_nodup {taps : List Nat} (hnodup : taps.Nodup) (j : Nat) :
    coeff j (connection taps) = (if j = 0 then 1 else 0) + if j ∈ taps then 1 else 0 := by
  rw [coeff_connection, ← List.sum_toFinset _ hnodup, Finset.sum_ite_eq]
  simp only [List.mem_toFinset]

/-- The product's coefficient `k` is the term XOR the feedback of the taps. -/
theorem coeff_connection_mul {taps : List Nat} {k : Nat} (h : ∀ p ∈ taps, p ≤ k) (s : PowerSeries Bool) :
    coeff k (connection taps * s) = coeff k s + (taps.map fun p => coeff (k - p) s).sum := by
  rw [connection, add_mul, one_mul, map_add, ← List.sum_map_mul_right, map_list_sum, List.map_map]
  congr 2
  refine List.map_congr_left fun p hp => ?_
  rw [Function.comp_apply, coeff_X_pow_mul', if_pos (h p hp)]

/-! ### Generation, and Massey's lemma -/

/-- The pair `(C, L)` generates the first `n` terms of `s` (42_berlekamp_massey.md R160). -/
structure Generates (c : PowerSeries Bool) (l : Nat) (s : PowerSeries Bool) (n : Nat) : Prop where
  const : coeff 0 c = 1
  degree : ∀ j, l < j → coeff j c = 0
  recur : ∀ k, l ≤ k → k < n → coeff k (c * s) = 0

variable {c c' s t : PowerSeries Bool} {l l' n n' : Nat}

theorem Generates.mono (h : Generates c l s n) (hn : n' ≤ n) : Generates c l s n' where
  const := h.const
  degree := h.degree
  recur k hl hk := h.recur k hl (hk.trans_le hn)

/-- One term more, when the recurrence holds for it. -/
theorem Generates.succ (h : Generates c l s n) (hn : coeff n (c * s) = 0) : Generates c l s (n + 1) where
  const := h.const
  degree := h.degree
  recur k hl hk := by
    rcases Nat.lt_succ_iff_lt_or_eq.1 hk with hlt | rfl
    · exact h.recur k hl hlt
    · exact hn

/-- Where the `l` terms before term `n` vanish, a polynomial of degree at most `l` with constant term 1 keeps it. -/
theorem coeff_mul_of_vanish (hconst : coeff 0 c = 1) (hdegree : ∀ j, l < j → coeff j c = 0)
    (hvanish : ∀ k, n ≤ k + l → k < n → coeff k t = 0) : coeff n (c * t) = coeff n t := by
  rw [coeff_mul, Finset.sum_eq_single (0, n), hconst, one_mul]
  · rintro ⟨j, k⟩ hjk hne
    obtain rfl : j + k = n := Finset.HasAntidiagonal.mem_antidiagonal.1 hjk
    by_cases hj : j ≤ l
    · have hpos : j ≠ 0 := by rintro rfl; simp at hne
      rw [hvanish k (by omega) (by omega), mul_zero]
    · rw [hdegree j (Nat.lt_of_not_le hj), zero_mul]
  · exact fun h => absurd (Finset.HasAntidiagonal.mem_antidiagonal.2 (Nat.zero_add n)) h

/-- Massey's lemma: where `(C, L)` generates `n` terms and fails at the next, an LFSR that generates that one too has at
least length `n + 1 - L`. Otherwise term `n` of `C * C' * s`, read in both orders, is that of `C * s` and that of
`C' * s`. -/
theorem Generates.lt_add_length (h : Generates c l s n) (hfail : coeff n (c * s) ≠ 0)
    (h' : Generates c' l' s (n + 1)) : n < l + l' := by
  by_contra hlt
  refine hfail ?_
  calc coeff n (c * s)
      = coeff n (c' * (c * s)) := (coeff_mul_of_vanish h'.const h'.degree fun k hk => h.recur k (by omega)).symm
    _ = coeff n (c * (c' * s)) := by rw [mul_left_comm]
    _ = coeff n (c' * s) :=
        coeff_mul_of_vanish h.const h.degree fun k hk hkn => h'.recur k (by omega) (by omega)
    _ = 0 := h'.recur n (by omega) (by omega)

/-- Generation depends on the terms generated alone. -/
theorem Generates.congr (h : Generates c l s n) (hst : ∀ k, k < n → coeff k s = coeff k t) : Generates c l t n where
  const := h.const
  degree := h.degree
  recur k hl hk := by
    rw [← h.recur k hl hk, coeff_mul, coeff_mul]
    refine Finset.sum_congr rfl fun ⟨i, j⟩ hij => ?_
    have hsum : i + j = k := Finset.HasAntidiagonal.mem_antidiagonal.1 hij
    rw [hst j (by omega)]

/-- Two generators of the same `l + l'` terms generate the same further terms: at the first term where one failed,
Massey's lemma would make the other longer. -/
theorem Generates.extend (h : Generates c l s n) (h' : Generates c' l' s n') (hn : l + l' ≤ n) :
    Generates c l s n' := by
  induction n' with
  | zero => exact h.mono (Nat.zero_le n)
  | succ k ih =>
    have hk := ih (h'.mono (Nat.le_succ k))
    rcases Nat.lt_or_ge k n with hkn | hnk
    · exact h.mono hkn
    · refine hk.succ (by_contra fun hfail => ?_)
      have hlong := hk.lt_add_length hfail h'
      omega

/-! ### The generation function -/

/-- A vector is the output of an LFSR when it begins with the seed's bits and the taps feed back the rest
(41_lfsr_engine.md R130). -/
theorem lfsr_eq_iff_recurrence {seed : Bits} {taps : List Nat} (htaps : ∀ p ∈ taps, 1 ≤ p ∧ p ≤ seed.length)
    (v : Bits) :
    lfsr seed taps v.length = v ↔
      (∀ k, k < seed.length → k < v.length → v.getD k false = seed.getD k false) ∧
      ∀ k, seed.length ≤ k → k < v.length → v.getD k false = xorSum (taps.map fun p => v.getD (k - p) false) := by
  constructor
  · intro h
    have hbit : ∀ k, k < v.length → v.getD k false = if k < seed.length then seed.getD k false
        else xorSum (taps.map fun p => v.getD (k - p) false) := by
      simpa only [h] using (lfsrRecurrence seed taps v.length htaps).2
    exact ⟨fun k hs hk => by rw [hbit k hk, if_pos hs], fun k hs hk => by rw [hbit k hk, if_neg (Nat.not_lt.2 hs)]⟩
  · rintro ⟨hseed, hrec⟩
    obtain ⟨hlen, hbit⟩ := lfsrRecurrence seed taps v.length htaps
    refine ext_getD (d := false) hlen fun k hk => ?_
    rw [hlen] at hk
    induction k using Nat.strong_induction_on with
    | _ k ih =>
      rw [hbit k hk]
      split_ifs with hs
      · exact (hseed k hs hk).symm
      · rw [hrec k (Nat.not_lt.1 hs) hk]
        refine congrArg xorSum (List.map_congr_left fun p hp => ?_)
        obtain ⟨hpos, hle⟩ := htaps p hp
        exact ih (k - p) (by omega) (by omega)

/-- The recurrence of the taps at term `k` is the vanishing of the product there. -/
theorem coeff_connection_mul_toSeries_eq_zero_iff {taps : List Nat} {k : Nat} (h : ∀ p ∈ taps, p ≤ k) (v : Bits) :
    coeff k (connection taps * toSeries v) = 0 ↔
      v.getD k false = xorSum (taps.map fun p => v.getD (k - p) false) := by
  simp only [coeff_connection_mul h, coeff_toSeries, xorSum_eq_sum, BooleanRing.add_eq_zero']

theorem generates_connection_iff {taps : List Nat} {l : Nat} (htaps : ∀ p ∈ taps, 1 ≤ p ∧ p ≤ l) (v : Bits) (n : Nat) :
    Generates (connection taps) l (toSeries v) n ↔
      ∀ k, l ≤ k → k < n → v.getD k false = xorSum (taps.map fun p => v.getD (k - p) false) := by
  have hrec : ∀ k, l ≤ k → (coeff k (connection taps * toSeries v) = 0 ↔
      v.getD k false = xorSum (taps.map fun p => v.getD (k - p) false)) := fun k hk =>
    coeff_connection_mul_toSeries_eq_zero_iff (fun p hp => (htaps p hp).2.trans hk) v
  refine ⟨fun h k hl hk => (hrec k hl).1 (h.recur k hl hk), fun h => ⟨?_, fun j hj => ?_, fun k hl hk =>
    (hrec k hl).2 (h k hl hk)⟩⟩
  · rw [coeff_connection_of_notMem fun h0 => absurd (htaps 0 h0).1 (by decide), if_pos rfl]
  · rw [coeff_connection_of_notMem fun hmem => absurd (htaps j hmem).2 (Nat.not_le.2 hj), if_neg (by omega)]

/-- A vector is the output of an LFSR when it begins with the seed's bits and the connection polynomial generates it
(42_berlekamp_massey.md R160). -/
theorem lfsr_eq_iff {seed : Bits} {taps : List Nat} (htaps : ∀ p ∈ taps, 1 ≤ p ∧ p ≤ seed.length) (v : Bits) :
    lfsr seed taps v.length = v ↔
      (∀ k, k < seed.length → k < v.length → v.getD k false = seed.getD k false) ∧
      Generates (connection taps) seed.length (toSeries v) v.length := by
  rw [lfsr_eq_iff_recurrence htaps, generates_connection_iff htaps]

theorem generates_lfsr {seed : Bits} {taps : List Nat} (htaps : ∀ p ∈ taps, 1 ≤ p ∧ p ≤ seed.length) (n : Nat) :
    Generates (connection taps) seed.length (toSeries (lfsr seed taps n)) n := by
  have h := ((lfsr_eq_iff htaps (lfsr seed taps n)).1 (by rw [length_lfsr])).2
  rwa [length_lfsr] at h

/-- Two LFSRs that agree on as many bits as their lengths add up to agree on every output
(42_berlekamp_massey.md R171). -/
theorem lfsr_eq_lfsr_of_agree {seed seed' : Bits} {taps taps' : List Nat} {n : Nat}
    (htaps : ∀ p ∈ taps, 1 ≤ p ∧ p ≤ seed.length) (htaps' : ∀ p ∈ taps', 1 ≤ p ∧ p ≤ seed'.length)
    (hn : seed.length + seed'.length ≤ n) (h : lfsr seed taps n = lfsr seed' taps' n) (k : Nat) :
    lfsr seed taps k = lfsr seed' taps' k := by
  rcases Nat.le_total k n with hkn | hnk
  · rw [← take_lfsr seed taps hkn, h, take_lfsr seed' taps' hkn]
  have hagree : ∀ j, j < n → (lfsr seed taps n).getD j false = (lfsr seed' taps' k).getD j false := fun j hj => by
    rw [h, getD_lfsr_of_le seed' taps' hj hnk]
  have hgen : Generates (connection taps) seed.length (toSeries (lfsr seed' taps' k)) k :=
    ((generates_lfsr htaps n).congr fun j hj => by simpa using hagree j hj).extend (generates_lfsr htaps' k) hn
  have hlfsr := (lfsr_eq_iff htaps (lfsr seed' taps' k)).2 ⟨fun j hj hjk => ?_, by rwa [length_lfsr]⟩
  · rwa [length_lfsr] at hlfsr
  · rw [← hagree j (by omega), getD_lfsr seed taps (by omega), if_pos hj]

end Sys2Proof.Machine
end

section
/-!
The Berlekamp–Massey iteration (42_berlekamp_massey.md R161 to R167): its equations, and the invariant by which the
state before position `i` generates the first `i` bits of the target with the least length.
-/

namespace Sys2Proof.Machine

open PowerSeries

variable {v : Bits} {st : BmState} {i : Nat}

/-! ### One position, by its cases -/

/-- R164's update `C + x^(i-m) * B`. -/
def BmState.updated (st : BmState) (i : Nat) : Bits := polyAdd st.c (polyShift (i - st.m).toNat st.b)

theorem bmStep_of_match (h : discrepancy v i st.c st.l = false) : bmStep v i st = st := by
  rw [bmStep, h, if_neg Bool.false_ne_true]

theorem bmStep_of_grow (h : discrepancy v i st.c st.l = true) (hl : 2 * st.l ≤ i) :
    bmStep v i st = ⟨st.updated i, st.c, i + 1 - st.l, i⟩ := by
  rw [bmStep, if_pos h]
  exact if_pos hl

theorem bmStep_of_keep (h : discrepancy v i st.c st.l = true) (hl : ¬2 * st.l ≤ i) :
    bmStep v i st = { st with c := st.updated i } := by
  rw [bmStep, if_pos h]
  exact if_neg hl

theorem bmStep_c (h : discrepancy v i st.c st.l = true) : (bmStep v i st).c = st.updated i := by
  by_cases hl : 2 * st.l ≤ i
  · rw [bmStep_of_grow h hl]
  · rw [bmStep_of_keep h hl]

/-- R165 in one formula: the length after a change is the larger of L and `i + 1 - L`. -/
theorem bmStep_l (h : discrepancy v i st.c st.l = true) : (bmStep v i st).l = max st.l (i + 1 - st.l) := by
  by_cases hl : 2 * st.l ≤ i
  · rw [bmStep_of_grow h hl]
    dsimp only
    omega
  · rw [bmStep_of_keep h hl]
    dsimp only
    omega

/-- R164 by coefficients. -/
theorem getD_updated (hm : st.m < i) (j : Nat) :
    (st.updated i).getD j false = (st.c.getD j false ^^
      (decide ((i : Int) - st.m ≤ j) && st.b.getD ((j : Int) - (i - st.m)).toNat false)) := by
  rw [BmState.updated, getD_polyAdd, getD_polyShift]
  congr 2
  · rw [decide_eq_decide]
    omega
  · congr 1
    omega

theorem toSeries_updated (st : BmState) (i : Nat) :
    toSeries (st.updated i) = toSeries st.c + X ^ (i - st.m).toNat * toSeries st.b := by
  rw [BmState.updated, toSeries_polyAdd, toSeries_polyShift]

/-- R163's discrepancy is the coefficient at `i` of the product of C with the target. -/
theorem BmState.Bounded.coeff_mul_eq_discrepancy (h : st.Bounded i) (v : Bits) :
    coeff i (toSeries st.c * toSeries v) = discrepancy v i st.c st.l := by
  have hrest : ∑ j ∈ Finset.range i, st.c.getD (j + 1) false * v.getD (i - (j + 1)) false =
      ∑ j ∈ Finset.range st.l, st.c.getD (j + 1) false * v.getD (i - (j + 1)) false := by
    refine (Finset.sum_subset (Finset.range_mono h.l_le) fun j _ hj => ?_).symm
    rw [h.c_degree (j + 1) (by rw [Finset.mem_range] at hj; omega)]
    rfl
  rw [coeff_mul, Finset.Nat.sum_antidiagonal_eq_sum_range_succ_mk, Finset.sum_range_succ', add_comm]
  simp only [coeff_toSeries]
  rw [h.c_const, hrest, discrepancy, xorSum_map_range]
  rfl

/-! ### The invariant -/

/-- The state before position `i`: (C, L) generates the first `i` bits, no shorter pair does, and B is the polynomial
that, at the last length change, generated the bits before `m` and failed at `m`. -/
structure BmState.Minimal (v : Bits) (st : BmState) (i : Nat) : Prop where
  generates : Generates (toSeries st.c) st.l (toSeries v) i
  least : ∀ c l, Generates c l (toSeries v) i → st.l ≤ l
  previous : ∀ k : Nat, st.m + 1 - st.l ≤ k → k ≤ st.m →
    coeff k (toSeries st.b * toSeries v) = if (k : Int) = st.m then 1 else 0

/-- C meets the bounds on a connection polynomial of length L (R167). -/
theorem BmState.Bounded.generates {n : Nat} (h : st.Bounded i)
    (hrecur : ∀ k, st.l ≤ k → k < n → coeff k (toSeries st.c * toSeries v) = 0) :
    Generates (toSeries st.c) st.l (toSeries v) n where
  const := (coeff_toSeries _ _).trans h.c_const
  degree j hj := (coeff_toSeries _ _).trans (h.c_degree j hj)
  recur := hrecur

theorem bmInit_minimal (v : Bits) : bmInit.Minimal v 0 where
  generates := bmInit_bounded.generates nofun
  least _ _ _ := Nat.zero_le _
  previous k _ hk := absurd hk (by simp [bmInit]; omega)

/-- The update of R164 repairs position `i` and keeps the earlier ones from the larger of L and `i + 1 - L` on: there
the shifted B contributes nothing before `i`, and 1 at `i`. -/
theorem BmState.Minimal.coeff_updated_mul (h : st.Minimal v i) (hb : st.Bounded i)
    (hd : discrepancy v i st.c st.l = true) {k : Nat} (hl : st.l ≤ k) (hg : i + 1 - st.l ≤ k) (hk : k ≤ i) :
    coeff k (toSeries (st.updated i) * toSeries v) = 0 := by
  have hm := hb.m_lt
  have hlm := hb.l_le_m
  have hshift : coeff k (X ^ (i - st.m).toNat * (toSeries st.b * toSeries v)) = if k = i then 1 else 0 := by
    rw [coeff_X_pow_mul', if_pos (by omega), h.previous _ (by omega) (by omega)]
    exact if_congr (by omega) rfl rfl
  rw [toSeries_updated, add_mul, mul_assoc, map_add, hshift]
  rcases hk.lt_or_eq with hlt | rfl
  · rw [h.generates.recur k hl hlt, if_neg hlt.ne, add_zero]
  · rw [hb.coeff_mul_eq_discrepancy, hd, if_pos rfl]
    rfl

theorem BmState.Minimal.step (h : st.Minimal v i) (hb : st.Bounded i) : (bmStep v i st).Minimal v (i + 1) := by
  have hcoeff := hb.coeff_mul_eq_discrepancy v
  cases hd : discrepancy v i st.c st.l with
  | false =>
    rw [bmStep_of_match hd]
    exact ⟨h.generates.succ (hcoeff.trans hd), fun c l hg => h.least c l (hg.mono (Nat.le_succ i)), h.previous⟩
  | true =>
    have hfail : coeff i (toSeries st.c * toSeries v) ≠ 0 := by
      rw [hcoeff, hd]
      decide
    have hl := bmStep_l hd
    refine ⟨(hb.step v).generates fun k hk hki => ?_, fun c l hg => ?_, ?_⟩
    · rw [bmStep_c hd]
      exact h.coeff_updated_mul hb hd (by omega) (by omega) (by omega)
    · have hlast := h.least c l (hg.mono (Nat.le_succ i))
      have hmassey := h.generates.lt_add_length hfail hg
      omega
    · by_cases hgrow : 2 * st.l ≤ i
      · rw [bmStep_of_grow hd hgrow]
        intro k hlk hk
        dsimp only at hlk hk ⊢
        have hli := hb.l_le
        split_ifs with hki
        · obtain rfl : k = i := by omega
          exact hcoeff.trans hd
        · exact h.generates.recur k (by omega) (by omega)
      · rw [bmStep_of_keep hd hgrow]
        exact h.previous

theorem bmRun_minimal (v : Bits) (i : Nat) : (bmRun v i).Minimal v i := by
  induction i with
  | zero => exact bmInit_minimal v
  | succ i ih =>
    rw [bmRun_succ]
    exact ih.step (bmRun_bounded v i)

/-! ### The result -/

theorem bmFinal_bounded (v : Bits) : (bmFinal v).Bounded v.length := bmRun_bounded v v.length

theorem bmFinal_minimal (v : Bits) : (bmFinal v).Minimal v v.length := bmRun_minimal v v.length

theorem nodup_bmTaps (st : BmState) : (bmTaps st).Nodup :=
  (List.nodup_range.map (add_left_injective 1)).filter _

/-- R166: the TapSet is the set of positions `j >= 1` with `C[j] = 1`. -/
theorem BmState.Bounded.mem_bmTaps_iff (h : st.Bounded i) {p : Nat} :
    p ∈ bmTaps st ↔ 1 ≤ p ∧ st.c.getD p false = true := by
  rw [mem_bmTaps]
  refine ⟨fun ⟨hpos, _, hc⟩ => ⟨hpos, hc⟩, fun ⟨hpos, hc⟩ => ⟨hpos, ?_, hc⟩⟩
  by_contra hlt
  rw [h.c_degree p (Nat.lt_of_not_le hlt)] at hc
  cases hc

theorem length_bmTaps_le (st : BmState) : (bmTaps st).length ≤ st.l := by
  refine (List.length_filter_le _ _).trans_eq ?_
  rw [List.length_map, List.length_range]

/-- C is the connection polynomial of its TapSet (R160). -/
theorem BmState.Bounded.connection_bmTaps (h : st.Bounded i) : connection (bmTaps st) = toSeries st.c := by
  ext j
  rw [coeff_connection_of_nodup (nodup_bmTaps st), coeff_toSeries]
  simp only [h.mem_bmTaps_iff]
  cases j with
  | zero =>
    rw [if_pos rfl, if_neg fun hmem => absurd hmem.1 (by decide), add_zero]
    exact h.c_const.symm
  | succ j =>
    rw [if_neg (Nat.succ_ne_zero j), zero_add]
    split_ifs with hmem
    · exact hmem.2.symm
    · exact (Bool.eq_false_iff.2 fun hc => hmem ⟨Nat.succ_pos j, hc⟩).symm

/-- The taps of the result lie within its seed. -/
theorem bmTaps_bmFinal_le (v : Bits) :
    ∀ p ∈ bmTaps (bmFinal v), 1 ≤ p ∧ p ≤ (bmSeed v (bmFinal v)).length := fun p hp => by
  obtain ⟨hpos, hle, -⟩ := mem_bmTaps.1 hp
  rw [length_bmSeed v _ (bmFinal_bounded v).l_le]
  exact ⟨hpos, hle⟩

/-- The result's LFSR generates the whole target (R169). -/
theorem lfsr_bmFinal (v : Bits) : lfsr (bmSeed v (bmFinal v)) (bmTaps (bmFinal v)) v.length = v := by
  refine (lfsr_eq_iff (bmTaps_bmFinal_le v) v).2 ⟨fun k hk _ => ?_, ?_⟩
  · rw [length_bmSeed v _ (bmFinal_bounded v).l_le] at hk
    simp only [bmSeed, List.getD_eq_getElem?_getD, List.getElem?_take_of_lt hk]
  · rw [(bmFinal_bounded v).connection_bmTaps, length_bmSeed v _ (bmFinal_bounded v).l_le]
    exact (bmFinal_minimal v).generates

/-- No shorter LFSR generates the target (R166). -/
theorem bmFinal_l_le {seed : Bits} {taps : List Nat} (htaps : ∀ p ∈ taps, 1 ≤ p ∧ p ≤ seed.length)
    (h : lfsr seed taps v.length = v) : (bmFinal v).l ≤ seed.length :=
  (bmFinal_minimal v).least _ _ ((lfsr_eq_iff htaps v).1 h).2

end Sys2Proof.Machine
end

section
/-! The command TCFG (42_berlekamp_massey.md R168, R169): what each branch answers, and what its commit leaves. -/

namespace Sys2Proof.Machine

variable {s : State}

theorem tcfgResult_of_tlen_gt (hc : s.tlen.toNat > s.maxLen.bits) : tcfgResult s = .error .capacityError :=
  if_pos hc

/-- Within the capacity TCFG is the reconstruction of the target. -/
theorem tcfgResult_eq_reconstruct (hc : s.tlen.toNat ≤ s.maxLen.bits) :
    tcfgResult s = s.reconstruct (s.bits .tgt s.tlen.toNat) :=
  if_neg (Nat.not_lt.2 hc)

theorem State.reconstruct_of_eq {v : Bits} (h : lfsr (bmSeed v (bmFinal v)) (bmTaps (bmFinal v)) v.length = v) :
    s.reconstruct v = .ok (s.commitReconstruction v (bmFinal v)) :=
  if_neg (not_not.2 h)

theorem State.reconstruct_of_ne {v : Bits} (h : lfsr (bmSeed v (bmFinal v)) (bmTaps (bmFinal v)) v.length ≠ v) :
    s.reconstruct v = .error .reconstructionError :=
  if_pos h

/-- The registers and flags after the commit of a reconstruction. -/
theorem State.succeed_commitReconstruction (s : State) (v : Bits) (st : BmState) :
    (s.commitReconstruction v st).succeed = { s with
      n := BitVec.ofNat 32 st.l, slen := BitVec.ofNat 32 st.l, stlen := BitVec.ofNat 32 v.length,
      bmL := BitVec.ofNat 32 st.l, bmM := BitVec.ofInt 32 st.m, configured := true, tvalid := true,
      err := .success, inflight := none, mem := (s.commitReconstruction v st).mem } := by
  simp only [State.succeed, State.commitReconstruction, State.storeBits, State.setSelLen, State.writeBits]

/-- The tap mask of the commit, by the coefficients of C (20_memory.md R65). -/
theorem State.bufBit_taps_commitReconstruction (s : State) (v : Bits) (st : BmState) {p : Nat} (hpos : 1 ≤ p)
    (hp : p ≤ s.maxLen.bits) :
    (s.commitReconstruction v st).bufBit .taps (p - 1) = (decide (p ≤ st.l) && st.c.getD p false) := by
  obtain ⟨-, htaps, -⟩ := s.commitReconstruction_holds v st
  have hcap : p - 1 < Buf.capacity (s.commitReconstruction v st).maxLen .taps := by
    rw [State.commitReconstruction_maxLen]
    exact Nat.sub_one_lt_of_le hpos hp
  rw [htaps _ hcap, getD_tapMask, Nat.sub_add_cancel hpos, Bool.eq_iff_iff]
  simp only [Bool.and_eq_true, decide_eq_true_eq, mem_bmTaps]
  constructor
  · rintro ⟨-, -, hle, hc⟩
    exact ⟨hle, hc⟩
  · rintro ⟨hle, hc⟩
    exact ⟨by omega, hpos, hle, hc⟩

end Sys2Proof.Machine
end

section
/-! The Berlekamp–Massey statements (42_berlekamp_massey.md). -/

namespace Sys2Proof

open Machine

/-- Settles O37: the equations of one position, by the discrepancy and the length test; the shift `i - m` is positive
by `BmState.Bounded.m_lt`. -/
theorem bmStepFollowsRules : Obligations.BmStepFollowsRules := by
  unfold Obligations.BmStepFollowsRules
  intro v i _
  have hbound := bmRun_bounded v i
  refine ⟨discrepancy v i (bmRun v i).c (bmRun v i).l, rfl, fun hd => ?_, fun hd => ⟨fun j => ?_, fun hl => ?_,
    fun hl => ?_⟩⟩
  · rw [bmRun_succ, bmStep_of_match hd]
  · rw [bmRun_succ, bmStep_c hd, getD_updated hbound.m_lt]
  · rw [bmRun_succ, bmStep_of_grow hd hl]
    have hli := hbound.l_le
    exact ⟨by dsimp only; omega, rfl, rfl⟩
  · rw [bmRun_succ, bmStep_of_keep hd hl]
    exact ⟨rfl, rfl, rfl⟩

/-- Settles O38: the bounds are those of `bmRun_bounded`, whose bound on B is the length before the last change. -/
theorem bmBounds : Obligations.BmBounds := by
  unfold Obligations.BmBounds
  refine ⟨fun v => ⟨rfl, rfl⟩, fun v i _ => ?_⟩
  obtain ⟨hl, hlm, hm, hconst, hc, hb⟩ := bmRun_bounded v i
  exact ⟨hl, by omega, hm, hconst, hc, fun j hj => hb j (by omega)⟩

/-- Settles O39: the invariant's recurrence holds at every position of the target from L on. -/
theorem bmRegeneratesTarget : Obligations.BmRegeneratesTarget := by
  unfold Obligations.BmRegeneratesTarget
  exact lfsr_bmFinal

/-- Settles O40: the result's own LFSR attains L, and Massey's lemma keeps L least at every position. -/
theorem bmFindsLinearComplexity : Obligations.BmFindsLinearComplexity := by
  unfold Obligations.BmFindsLinearComplexity
  intro v
  have hbound := bmFinal_bounded v
  have hseed := length_bmSeed v (bmFinal v) hbound.l_le
  exact ⟨⟨bmSeed v (bmFinal v), bmTaps (bmFinal v), hseed, hseed ▸ bmTaps_bmFinal_le v, lfsr_bmFinal v⟩,
    fun seed taps htaps h => bmFinal_l_le htaps h, fun p => hbound.mem_bmTaps_iff, length_bmTaps_le _, rfl⟩

/-- Settles O41: L is at most the generator's length; a smaller L would give a shorter LFSR that agrees with the
generator on the target, and so at every length (`lfsr_eq_lfsr_of_agree`). -/
theorem bmRecoversTrueComplexity : Obligations.BmRecoversTrueComplexity := by
  unfold Obligations.BmRecoversTrueComplexity
  intro seed taps v htaps hlen hv hleast
  refine ⟨(bmFinal_l_le htaps hv).antisymm (Nat.le_of_not_lt fun hlt => ?_), lfsr_bmFinal v⟩
  have hseed := length_bmSeed v (bmFinal v) (bmFinal_bounded v).l_le
  obtain ⟨k, hk⟩ := hleast (bmSeed v (bmFinal v)) (bmTaps (bmFinal v)) (hseed.trans_lt hlt) (bmTaps_bmFinal_le v)
  exact hk (lfsr_eq_lfsr_of_agree (bmTaps_bmFinal_le v) htaps (by omega) ((lfsr_bmFinal v).trans hv.symm) k)

/-- Settles O42: the checks in order, and the five buffers and the registers of the commit. -/
theorem tcfgCommitsReconstruction : Obligations.TcfgCommitsReconstruction := by
  unfold Obligations.TcfgCommitsReconstruction
  rintro s v st hv rfl
  have hstlen : BitVec.ofNat 32 v.length = s.tlen := by simp [hv]
  have hok : s.tlen.toNat ≤ s.maxLen.bits → lfsr (bmSeed v (bmFinal v)) (bmTaps (bmFinal v)) v.length = v →
      exec .tcfg s = .next (s.commitReconstruction v (bmFinal v)).succeed := fun hc hcheck =>
    exec_of_ok (i := .tcfg) ((tcfgResult_eq_reconstruct hc).trans (hv ▸ State.reconstruct_of_eq hcheck))
  refine ⟨(decodeExactlyInvertsEncode _ .tcfg).2 ⟨rfl, rfl⟩, fun hc hcheck => ?_,
    fun hc => exec_of_error (i := .tcfg) (tcfgResult_of_tlen_gt hc), fun hc => ⟨fun hraise hcheck => ?_, fun hne =>
      exec_of_error (i := .tcfg) ((tcfgResult_eq_reconstruct hc).trans (hv ▸ State.reconstruct_of_ne hne))⟩⟩
  · obtain ⟨hseed, -, hstgt, hbmc, hbmb⟩ := s.commitReconstruction_holds v (bmFinal v)
    have hregs := s.succeed_commitReconstruction v (bmFinal v)
    rw [hstlen] at hregs
    exact ⟨_, hok hc hcheck, hregs, hseed,
      fun p hpos hp => s.bufBit_taps_commitReconstruction v (bmFinal v) hpos hp, hstgt, hbmc, hbmb,
      storesOnly_commitReconstruction s v (bmFinal v)⟩
  · have herr := congrArg State.err (Host.Outcome.next.inj (hraise.symm.trans (hok hc hcheck)))
    rw [State.raise_err, State.succeed_err] at herr
    cases herr

/-- Settles O43: the self-check never fails (`lfsr_bmFinal`), so TCFG commits. -/
theorem tcfgAlwaysSucceeds : Obligations.TcfgAlwaysSucceeds := by
  unfold Obligations.TcfgAlwaysSucceeds
  intro s hc
  refine ⟨_, exec_of_ok (i := .tcfg)
    ((tcfgResult_eq_reconstruct hc).trans (State.reconstruct_of_eq (lfsr_bmFinal _))), ?_⟩
  simp

end Sys2Proof
end

section
/-! The Geffe combiner (43_geffe.md R190 to R194): its selector, its seed vectors and the bits of its output. -/

namespace Sys2Proof.Machine

theorem geffeSelect_true (x2 x3 : Bool) : geffeSelect true x2 x3 = x2 := Bool.xor_false x2

theorem geffeSelect_false (x2 x3 : Bool) : geffeSelect false x2 x3 = x3 := Bool.false_xor x3

/-- The selector is a choice by engine 1's bit (43_geffe.md R191). -/
theorem geffeSelect_eq_cond (x1 x2 x3 : Bool) : geffeSelect x1 x2 x3 = bif x1 then x2 else x3 := by
  cases x1 with
  | true => exact geffeSelect_true x2 x3
  | false => exact geffeSelect_false x2 x3

theorem getD_geffeSeed (g : Word) {k : Nat} (hk : k < 32) : (geffeSeed g).getD k false = g.getLsbD (31 - k) := by
  simp [geffeSeed, hk]

theorem geffeSeed_zero : geffeSeed 0 = List.replicate 32 false := by decide

/-- The engines run in lock-step: bit `k` of the output selects among bit `k` of each. -/
theorem getD_geffe (g1 g2 g3 : Word) {k len : Nat} (hk : k < len) :
    (geffe g1 g2 g3 len).getD k false =
      geffeSelect ((lfsr (geffeSeed g1) geffeTaps1 len).getD k false)
        ((lfsr (geffeSeed g2) geffeTaps2 len).getD k false) ((lfsr (geffeSeed g3) geffeTaps3 len).getD k false) := by
  simp [geffe, hk]

theorem take_geffe (g1 g2 g3 : Word) {a b : Nat} (h : a ≤ b) :
    (geffe g1 g2 g3 b).take a = geffe g1 g2 g3 a := by
  simp only [geffe, List.zip, List.take_zipWith, take_lfsr _ _ h]

theorem geffe_zero_seeds (len : Nat) : geffe 0 0 0 len = List.replicate len false := by
  simp only [geffe, geffeSeed_zero, lfsr_zero_seed, List.zip_replicate', List.zipWith_replicate', geffeSelect_false]

end Sys2Proof.Machine
end

section
/-! The Geffe commands (43_geffe.md R196, R198): what each branch of GKEY and GGET answers. -/

namespace Sys2Proof.Machine

variable {s : State}

/-! ### GKEY -/

theorem gkeyBinResult_eq_ok {src : BufSel} (h : s.selLen src = 96) :
    gkeyBinResult src s = .ok (s.setGeffeSeeds (keyChunk (s.bits (bufOf src) 96) 0)
      (keyChunk (s.bits (bufOf src) 96) 1) (keyChunk (s.bits (bufOf src) 96) 2)) :=
  if_neg (not_not.2 h)

theorem gkeyBinResult_of_len_ne {src : BufSel} (h : s.selLen src ≠ 96) :
    gkeyBinResult src s = .error .parameterError :=
  if_pos h

theorem gkeyStrResult_eq_ok (h : s.bcnt.toNat = 12) :
    gkeyStrResult s = .ok (s.setGeffeSeeds (s.keyBytes 0) (s.keyBytes 1) (s.keyBytes 2)) :=
  if_neg (not_not.2 h)

theorem gkeyStrResult_of_bcnt_ne (h : s.bcnt.toNat ≠ 12) : gkeyStrResult s = .error .parameterError :=
  if_pos h

/-- Chunk `j` of a key held in a buffer is 32 bits of the buffer, the first the most significant. -/
theorem getLsbD_keyChunk_bits (s : State) (b : Buf) {len j k : Nat} (hk : k < 32) (hlen : 32 * j + k < len) :
    (keyChunk (s.bits b len) j).getLsbD (31 - k) = s.bufBit b (32 * j + k) := by
  rw [getLsbD_keyChunk _ _ _ hk, s.getD_bits b len _ hlen]

/-- The value of an appended word: the high part's, shifted, plus the low part's. -/
theorem toNat_append_eq_add {m n : Nat} (x : BitVec m) (y : BitVec n) :
    (x ++ y).toNat = x.toNat * 2 ^ n + y.toNat := by
  rw [BitVec.toNat_append, ← Nat.shiftLeft_add_eq_or_of_lt y.isLt, Nat.shiftLeft_eq]

/-- A seed of the 12-byte key is big-endian (43_geffe.md R196). -/
theorem State.toNat_keyBytes (s : State) (j : Nat) :
    (s.keyBytes j).toNat = (s.byteAt (4 * j)).toNat * 2 ^ 24 + (s.byteAt (4 * j + 1)).toNat * 2 ^ 16 +
      (s.byteAt (4 * j + 2)).toNat * 2 ^ 8 + (s.byteAt (4 * j + 3)).toNat := by
  simp only [State.keyBytes, toNat_append_eq_add]
  omega

/-! ### GGET -/

theorem ggetResult_eq_ok {fmt : Fmt} (hc : s.argLen.toNat ≤ s.maxLen.bits)
    (h8 : fmt = .bin ∨ s.argLen.toNat % 8 = 0) :
    ggetResult fmt s = .ok (s.emit fmt (geffe s.gs1 s.gs2 s.gs3 s.argLen.toNat)) := by
  have hwhole : ¬(packsBytes fmt = true ∧ s.argLen.toNat % 8 ≠ 0) := by
    rw [packsBytes_iff]
    tauto
  rw [ggetResult, if_neg (Nat.not_lt.2 hc), if_neg hwhole]

theorem ggetResult_of_len_gt {fmt : Fmt} (hc : s.argLen.toNat > s.maxLen.bits) :
    ggetResult fmt s = .error .capacityError :=
  if_pos hc

theorem ggetResult_of_part_byte {fmt : Fmt} (hc : s.argLen.toNat ≤ s.maxLen.bits) (hf : fmt ≠ .bin)
    (h8 : s.argLen.toNat % 8 ≠ 0) : ggetResult fmt s = .error .lengthError := by
  rw [ggetResult, if_neg (Nat.not_lt.2 hc), if_pos ⟨packsBytes_iff.2 hf, h8⟩]

end Sys2Proof.Machine
end

section
/-! The Geffe statements (43_geffe.md). -/

namespace Sys2Proof

open Machine

/-- Settles O45: the table by the two values of x1; the formula is the selector's definition. -/
theorem geffeSelectorTable : Obligations.GeffeSelectorTable := by
  unfold Obligations.GeffeSelectorTable
  exact fun x2 x3 => ⟨geffeSelect_true x2 x3, geffeSelect_false x2 x3, fun _ => rfl⟩

/-- Settles O46: the engines run in lock-step (`getD_geffe`), and the selector is a choice. -/
theorem geffeCombinesEngines : Obligations.GeffeCombinesEngines := by
  unfold Obligations.GeffeCombinesEngines
  intro g1 g2 g3 len
  refine ⟨length_geffe g1 g2 g3 len, fun g => ⟨_, rfl, length_geffeSeed g, fun k hk => getD_geffeSeed g hk⟩,
    fun k hk => ?_⟩
  rw [getD_geffe g1 g2 g3 hk, geffeSelect_eq_cond]
  rfl

/-- Settles O47: the checks in order, and the Geffe output emitted into OUT, and into BYTES under HEX and STR. -/
theorem ggetGeneratesKeystream : Obligations.GgetGeneratesKeystream := by
  unfold Obligations.GgetGeneratesKeystream
  intro s fmt
  refine ⟨(decodeExactlyInvertsEncode _ (.gget fmt)).2 ⟨rfl, rfl⟩, fun hc h8 => ?_,
    fun hc => exec_of_error (i := .gget fmt) (ggetResult_of_len_gt hc),
    fun hc hf h8 => exec_of_error (i := .gget fmt) (ggetResult_of_part_byte hc hf h8)⟩
  have holen : BitVec.ofNat 32 (geffe s.gs1 s.gs2 s.gs3 s.argLen.toNat).length = s.argLen := by simp
  refine ⟨_, exec_of_ok (i := .gget fmt) (ggetResult_eq_ok hc h8), s.emit_holds_out fmt _, ?_, fun hf => ?_⟩
  · rintro rfl
    have hbin := s.succeed_emit_bin (geffe s.gs1 s.gs2 s.gs3 s.argLen.toNat)
    rwa [holen] at hbin
  · have hpacked := s.succeed_emit_packed hf (v := geffe s.gs1 s.gs2 s.gs3 s.argLen.toNat)
      (by rw [length_geffe]; exact h8.resolve_left hf)
    rwa [holen] at hpacked

/-- Settles O48: each engine's outputs are a prefix family, and zero seeds make each engine's output zero. -/
theorem geffePrefixAndZeroSeeds : Obligations.GeffePrefixAndZeroSeeds := by
  unfold Obligations.GeffePrefixAndZeroSeeds
  exact ⟨fun g1 g2 g3 _ _ h => take_geffe g1 g2 g3 h, geffe_zero_seeds⟩

/-- Settles O49: both key forms load their three shares of the key and nothing else; their one check. -/
theorem gkeyLoadsSeeds : Obligations.GkeyLoadsSeeds := by
  unfold Obligations.GkeyLoadsSeeds
  constructor
  · intro s src b len hmem
    obtain ⟨rfl, hsel⟩ := selLen_of_mem hmem
    refine ⟨(decodeExactlyInvertsEncode _ (.gkeyBin src)).2 ⟨rfl, rfl⟩, fun hlen => ?_, fun hlen => ?_⟩
    · refine ⟨_, exec_of_ok (i := .gkeyBin src) (gkeyBinResult_eq_ok (by rw [hsel, hlen]; rfl)), rfl,
        fun k hk => ⟨?_, ?_, ?_⟩⟩
      · simpa using getLsbD_keyChunk_bits s (bufOf src) (len := 96) (j := 0) hk (by omega)
      · exact getLsbD_keyChunk_bits s (bufOf src) (j := 1) hk (by omega)
      · exact getLsbD_keyChunk_bits s (bufOf src) (j := 2) hk (by omega)
    · exact exec_of_error (i := .gkeyBin src)
        (gkeyBinResult_of_len_ne (hsel ▸ fun h => hlen (BitVec.eq_of_toNat_eq h)))
  · intro s
    refine ⟨(decodeExactlyInvertsEncode _ .gkeyStr).2 ⟨rfl, rfl⟩, fun hcnt => ?_, fun hcnt => ?_⟩
    · exact ⟨_, exec_of_ok (i := .gkeyStr) (gkeyStrResult_eq_ok (by rw [hcnt]; rfl)), rfl,
        s.toNat_keyBytes 0, s.toNat_keyBytes 1, s.toNat_keyBytes 2⟩
    · exact exec_of_error (i := .gkeyStr) (gkeyStrResult_of_bcnt_ne fun h => hcnt (BitVec.eq_of_toNat_eq h))

end Sys2Proof
end

section
/-!
How a command ends (60_exceptions.md R211, R213 to R215): the code it leaves in ERR is that of the first failing check
of its order, a success keeps STICKY, and no bus cycle but the host's two ways to clear STICKY clears it.
-/

namespace Sys2Proof.Machine

variable {s t : State} {i : Instr}

/-! ### The code a command leaves in ERR -/

/-- The code of a command's first failing check, or success (60_exceptions.md R213). -/
def commandErr (i : Instr) (s : State) : ErrCode :=
  match commandResult i s with
  | .error e => e
  | .ok _ => .success

theorem commandErr_of_error {e : ErrCode} (h : commandResult i s = .error e) : commandErr i s = e := by
  rw [commandErr, h]

theorem commandErr_of_ok {u : State} (h : commandResult i s = .ok u) : commandErr i s = .success := by
  rw [commandErr, h]

theorem err_exec (h : exec i s = .next t) : t.err = commandErr i s := by
  rcases exec_cases h with ⟨e, he, rfl⟩ | ⟨u, hu, rfl⟩
  · exact (commandErr_of_error he).symm
  · exact (commandErr_of_ok hu).symm

/-- A command that failed made its error entry and nothing else (60_exceptions.md R214). -/
theorem eq_raise_of_err_ne (h : exec i s = .next t) (he : t.err ≠ .success) : t = s.raise t.err := by
  rcases exec_cases h with ⟨e, -, rfl⟩ | ⟨u, -, rfl⟩
  · rfl
  · exact absurd rfl he

/-! ### STICKY -/

/-- No command's results reach STICKY. -/
theorem sticky_of_ok {u : State} (h : commandResult i s = .ok u) : u.sticky = s.sticky := by
  rcases ok_cases h with ⟨form, dst, v, -, -, -, rfl⟩ | ⟨src, -, -, rfl⟩ | ⟨fmt, src, r, -, -, rfl⟩ |
    ⟨-, -, rfl⟩ | ⟨-, -, -, -, -, rfl⟩ | ⟨v, -, -, rfl⟩ | ⟨fmt, v, r, -, -, -, rfl⟩ | ⟨b, -, rfl⟩ |
    ⟨v, -, -, -, -, rfl⟩ | ⟨g1, g2, g3, -, rfl⟩ <;> simp

theorem sticky_exec_of_success (h : exec i s = .next t) (he : t.err = .success) : t.sticky = s.sticky := by
  obtain ⟨u, hu, rfl⟩ := ok_of_success h he
  rw [State.succeed_sticky, sticky_of_ok hu]

theorem sticky_exec_of_err_ne (h : exec i s = .next t) (he : t.err ≠ .success) : t.sticky = true := by
  rw [eq_raise_of_err_ne h he, State.raise_sticky]

/-- No command clears STICKY (60_exceptions.md R215). -/
theorem sticky_exec_of_sticky (h : exec i s = .next t) (hs : s.sticky = true) : t.sticky = true := by
  by_cases he : t.err = .success
  · rw [sticky_exec_of_success h he, hs]
  · exact sticky_exec_of_err_ne h he

/-- A bus write changes STICKY only at STATUS, and there only by bit 3 of the word (10_state.md R23). -/
theorem State.sticky_busWrite (s : State) (x : Nat) (w : Word) :
    (s.busWrite x w).sticky = s.sticky ∨ (x = 0x008 ∧ w.getLsbD 3 = true) := by
  rcases s.busWrite_cases x w with ⟨r, hx, hw⟩ | ⟨b, k, -, -, -, -, hw⟩ | ⟨-, -, hw⟩ <;> rw [hw]
  · cases r with
    | status =>
      cases hbit : w.getLsbD 3 with
      | true => exact .inr ⟨hx, rfl⟩
      | false => exact .inl (by rw [State.writeReg, State.writeStatus_sticky, hbit, Bool.not_false, Bool.and_true])
    | _ => exact .inl rfl
  · refine .inl ?_
    split_ifs <;> rfl
  · exact .inl rfl

/-- A bus cycle clears STICKY only by reset or by a write of STATUS with bit 3 = 1 (60_exceptions.md R215). -/
theorem State.busCycle_clears_sticky {c : BusCycle} (h : s.busCycle c = .next t) (hs : s.sticky = true)
    (ht : t.sticky = false) :
    c.rst = true ∨ (c.sel = true ∧ c.we = true ∧ byteAddress c.a = 0x008 ∧ c.wdata.getLsbD 3 = true) := by
  have hchanged : t.sticky ≠ s.sticky := by rw [hs, ht]; decide
  rcases State.busCycle_cases h with ⟨hr, -, -⟩ | ⟨-, -, rfl⟩ | ⟨-, hsel, hwe, -, rfl⟩ | ⟨-, -, -, -, rfl⟩
  · exact .inl hr
  · exact absurd rfl hchanged
  · exact .inr ⟨hsel, hwe, (s.sticky_busWrite _ _).resolve_left hchanged⟩
  · exact absurd rfl hchanged

/-! ### The numeric codes -/

theorem ErrCode.code_toNat_le (e : ErrCode) : e.code.toNat ≤ 7 := by cases e <;> decide

/-- The table of codes (60_exceptions.md R210). -/
theorem ErrCode.code_of_mem {e : ErrCode} {c : BitVec 4}
    (h : (e, c) ∈ [(ErrCode.success, (0 : BitVec 4)), (.formatError, 1), (.lengthError, 2), (.parameterError, 3),
      (.validationError, 4), (.reconstructionError, 5), (.commandError, 6), (.capacityError, 7)]) : e.code = c := by
  simp only [List.mem_cons, Prod.mk.injEq, List.not_mem_nil, or_false] at h
  rcases h with ⟨rfl, rfl⟩ | ⟨rfl, rfl⟩ | ⟨rfl, rfl⟩ | ⟨rfl, rfl⟩ | ⟨rfl, rfl⟩ | ⟨rfl, rfl⟩ | ⟨rfl, rfl⟩ |
    ⟨rfl, rfl⟩ <;> rfl

/-- Bits 11:8 of a read of STATUS are ERR's code (10_state.md R23). -/
theorem State.busRead_status_err (s : State) : (s.busRead 0x008).extractLsb' 8 4 = s.err.code := by
  rw [show s.busRead 0x008 = s.statusWord from s.busRead_reg .status]
  obtain ⟨-, herr, -⟩ := s.statusWord_err_and_reserved
  exact herr

end Sys2Proof.Machine
end

section
/-!
The order of each command's checks (60_exceptions.md R213): one lemma for each command, that `commandErr` is the code
of its first failing check.
-/

namespace Sys2Proof.Machine

variable {s : State} {i : Instr}

/-- A command's report, from a check that fails. -/
theorem ReportsFirst.of_error {e : ErrCode} (hr : ReportsFirst i s e) (h : commandResult i s = .error e) :
    ReportsFirst i s (commandErr i s) := by
  rwa [commandErr_of_error h]

/-- A command's report, when every check passes. -/
theorem ReportsFirst.of_ok {u : State} (hr : ReportsFirst i s .success) (h : commandResult i s = .ok u) :
    ReportsFirst i s (commandErr i s) := by
  rwa [commandErr_of_ok h]

theorem bin_or_whole_bytes_of_not_bad {fmt : Fmt} {len : Nat} (h : ¬badPackLength fmt len) :
    fmt = .bin ∨ len % 8 = 0 := by
  unfold badPackLength at h
  tauto

/-- FROMBITS within the capacity and with a length its format packs (40_codec.md R105). -/
theorem exists_frombitsResult_eq_ok {fmt : Fmt} {src : BufSel} (hc : s.selLen src ≤ s.maxLen.bits)
    (h8 : fmt = .bin ∨ s.selLen src % 8 = 0) : ∃ u, frombitsResult fmt src s = .ok u := by
  by_cases hf : fmt = .bin
  · exact ⟨_, hf ▸ frombitsResult_bin hc⟩
  · obtain ⟨r, hp, -⟩ := pack_ok (v := s.bits (bufOf src) (s.selLen src)) hf (by simpa using h8.resolve_left hf)
    exact ⟨_, frombitsResult_packed hc hp⟩

theorem reportsFirst_tobits (s : State) (form : InForm) {dst : BufSel} (hd : dst.isDestination = true) :
    ReportsFirst (.tobits form dst) s (commandErr (.tobits form dst) s) := by
  rcases lt_or_ge s.maxLen.bits s.bcnt.toNat with hc | hc
  · exact .of_error (.inl ⟨hc, rfl⟩) (tobitsResult_of_bcnt_gt hd hc)
  · cases hu : unpack (resolveForm form (s.bytes s.bcnt.toNat)) (s.bytes s.bcnt.toNat) with
    | none => exact .of_error (.inr ⟨hc, _, hu, .inl ⟨rfl, rfl⟩⟩) (tobitsResult_of_unpack_none hd hc hu)
    | some v =>
      rcases lt_or_ge s.maxLen.bits v.length with hv | hv
      · exact .of_error (.inr ⟨hc, _, hu, .inr ⟨v, rfl, .inl ⟨hv, rfl⟩⟩⟩) (tobitsResult_of_length_gt hd hc hu hv)
      · exact .of_ok (.inr ⟨hc, _, hu, .inr ⟨v, rfl, .inr ⟨hv, rfl⟩⟩⟩) (tobitsResult_eq_ok hd hc hu hv)

theorem reportsFirst_frombits (s : State) (fmt : Fmt) (src : BufSel) :
    ReportsFirst (.frombits fmt src) s (commandErr (.frombits fmt src) s) := by
  rcases lt_or_ge s.maxLen.bits (s.selLen src) with hc | hc
  · exact .of_error (.inl ⟨hc, rfl⟩) (frombitsResult_of_len_gt hc)
  · by_cases hbad : badPackLength fmt (s.selLen src)
    · obtain ⟨hf, h8⟩ := hbad
      exact .of_error (.inr ⟨hc, .inl ⟨⟨hf, h8⟩, rfl⟩⟩) (frombitsResult_of_part_byte hc hf h8)
    · obtain ⟨u, hu⟩ := exists_frombitsResult_eq_ok hc (bin_or_whole_bytes_of_not_bad hbad)
      exact .of_ok (.inr ⟨hc, .inr ⟨hbad, rfl⟩⟩) hu

theorem reportsFirst_seedint (s : State) : ReportsFirst .seedint s (commandErr .seedint s) := by
  rcases Nat.eq_zero_or_pos s.n.toNat with h0 | h0
  · exact .of_error (.inl ⟨h0, rfl⟩) (seedintResult_of_n_zero h0)
  · rcases lt_or_ge s.maxLen.bits s.n.toNat with hc | hc
    · exact .of_error (.inr (.inl ⟨hc, rfl⟩)) (seedintResult_of_n_gt hc)
    · by_cases hv : s.n.toNat < 32 ∧ 2 ^ s.n.toNat ≤ s.argVal.toNat
      · obtain ⟨hn, hge⟩ := hv
        exact .of_error (.inr (.inr ⟨h0, hc, .inl ⟨hn, hge, rfl⟩⟩)) (seedintResult_of_value_ge h0 hc hn hge)
      · exact .of_ok (.inr (.inr ⟨h0, hc, .inr ⟨hv, rfl⟩⟩))
          (seedintResult_eq_ok h0 hc fun hn => Nat.not_le.1 fun hge => hv ⟨hn, hge⟩)

theorem reportsFirst_ecfg (s : State) : ReportsFirst .ecfg s (commandErr .ecfg s) := by
  rcases Nat.eq_zero_or_pos s.n.toNat with h0 | h0
  · exact .of_error (.inl ⟨h0, rfl⟩) (ecfgResult_of_n_zero h0)
  · rcases lt_or_ge s.maxLen.bits s.n.toNat with hc | hc
    · exact .of_error (.inr (.inl ⟨hc, rfl⟩)) (ecfgResult_of_n_gt hc)
    · by_cases htap : ∃ p, s.n.toNat < p ∧ p ≤ s.maxLen.bits ∧ s.bufBit .taps (p - 1) = true
      · exact .of_error (.inr (.inr ⟨h0, hc, .inl ⟨htap, rfl⟩⟩))
          (ecfgResult_of_tapAbove h0 hc ((s.tapAbove_iff _).2 htap))
      · have hnone : ∀ p, s.n.toNat < p → p ≤ s.maxLen.bits → s.bufBit .taps (p - 1) = false :=
          fun p hn hp => Bool.eq_false_iff.2 fun hb => htap ⟨p, hn, hp, hb⟩
        have habove := State.tapAbove_eq_false hnone
        by_cases hsl : s.slen = s.n
        · exact .of_ok (.inr (.inr ⟨h0, hc, .inr ⟨hnone, .inr ⟨hsl, rfl⟩⟩⟩)) (ecfgResult_eq_ok h0 hc habove hsl)
        · exact .of_error (.inr (.inr ⟨h0, hc, .inr ⟨hnone, .inl ⟨hsl, rfl⟩⟩⟩))
            (ecfgResult_of_slen_ne h0 hc habove hsl)

theorem reportsFirst_get (s : State) (fmt : Fmt) (dflt : Bool) :
    ReportsFirst (.get fmt dflt) s (commandErr (.get fmt dflt) s) := by
  cases hcfg : s.configured with
  | false => exact .of_error (.inl ⟨hcfg, rfl⟩) (getResult_of_not_configured hcfg)
  | true =>
    rcases lt_or_ge s.maxLen.bits (s.getLen dflt) with hc | hc
    · exact .of_error (.inr ⟨hcfg, .inl ⟨hc, rfl⟩⟩) (getResult_of_len_gt hcfg hc)
    · by_cases hbad : badPackLength fmt (s.getLen dflt)
      · obtain ⟨hf, h8⟩ := hbad
        exact .of_error (.inr ⟨hcfg, .inr ⟨hc, .inl ⟨⟨hf, h8⟩, rfl⟩⟩⟩) (getResult_of_part_byte hcfg hc hf h8)
      · exact .of_ok (.inr ⟨hcfg, .inr ⟨hc, .inr ⟨hbad, rfl⟩⟩⟩)
          (getResult_eq_ok hcfg hc (bin_or_whole_bytes_of_not_bad hbad))

/-- TEST against the stored target (41_lfsr_engine.md R143, S = 0). -/
theorem reportsFirst_test_stored (s : State) (hcfg : s.configured = true) :
    ReportsFirst (.test false) s (commandErr (.test false) s) := by
  cases htv : s.tvalid with
  | false => exact .of_error (.inr (.inl ⟨hcfg, rfl, .inl ⟨htv, rfl⟩⟩)) (testResult_of_not_tvalid hcfg htv)
  | true =>
    have hcmp := testResult_eq_compareWith (supplied := false) hcfg (fun _ => htv) nofun
    have hlen : (s.testTarget false).length = s.stlen.toNat := s.length_bits _ _
    by_cases heq : s.engineOutput s.stlen.toNat = s.testTarget false
    · exact .of_ok (.inr (.inl ⟨hcfg, rfl, .inr ⟨htv, .inr ⟨heq, rfl⟩⟩⟩))
        (hcmp.trans (State.compareWith_of_eq (hlen.symm ▸ heq)))
    · exact .of_error (.inr (.inl ⟨hcfg, rfl, .inr ⟨htv, .inl ⟨heq, rfl⟩⟩⟩))
        (hcmp.trans (State.compareWith_of_ne (hlen.symm ▸ heq)))

/-- TEST against the supplied target (41_lfsr_engine.md R143, S = 1). -/
theorem reportsFirst_test_supplied (s : State) (hcfg : s.configured = true) :
    ReportsFirst (.test true) s (commandErr (.test true) s) := by
  rcases lt_or_ge s.maxLen.bits s.tlen.toNat with hc | hc
  · exact .of_error (.inr (.inr ⟨hcfg, rfl, .inl ⟨hc, rfl⟩⟩)) (testResult_of_tlen_gt hcfg hc)
  · have hcmp := testResult_eq_compareWith (supplied := true) hcfg nofun fun _ => hc
    have hlen : (s.testTarget true).length = s.tlen.toNat := s.length_bits _ _
    by_cases heq : s.engineOutput s.tlen.toNat = s.testTarget true
    · exact .of_ok (.inr (.inr ⟨hcfg, rfl, .inr ⟨hc, .inr ⟨heq, rfl⟩⟩⟩))
        (hcmp.trans (State.compareWith_of_eq (hlen.symm ▸ heq)))
    · exact .of_error (.inr (.inr ⟨hcfg, rfl, .inr ⟨hc, .inl ⟨heq, rfl⟩⟩⟩))
        (hcmp.trans (State.compareWith_of_ne (hlen.symm ▸ heq)))

theorem reportsFirst_test (s : State) (supplied : Bool) :
    ReportsFirst (.test supplied) s (commandErr (.test supplied) s) := by
  cases hcfg : s.configured with
  | false => exact .of_error (.inl ⟨hcfg, rfl⟩) (testResult_of_not_configured hcfg)
  | true =>
    cases supplied with
    | false => exact reportsFirst_test_stored s hcfg
    | true => exact reportsFirst_test_supplied s hcfg

theorem reportsFirst_tcfg (s : State) : ReportsFirst .tcfg s (commandErr .tcfg s) := by
  rcases lt_or_ge s.maxLen.bits s.tlen.toNat with hc | hc
  · exact .of_error (.inl ⟨hc, rfl⟩) (tcfgResult_of_tlen_gt hc)
  · have hcheck := lfsr_bmFinal (s.bits .tgt s.tlen.toNat)
    exact .of_ok (.inr ⟨hc, _, _, rfl, rfl, .inr ⟨hcheck, rfl⟩⟩)
      ((tcfgResult_eq_reconstruct hc).trans (State.reconstruct_of_eq hcheck))

theorem reportsFirst_gkeyBin (s : State) (src : BufSel) :
    ReportsFirst (.gkeyBin src) s (commandErr (.gkeyBin src) s) := by
  by_cases hlen : s.selLen src = 96
  · exact .of_ok (.inr ⟨hlen, rfl⟩) (gkeyBinResult_eq_ok hlen)
  · exact .of_error (.inl ⟨hlen, rfl⟩) (gkeyBinResult_of_len_ne hlen)

theorem reportsFirst_gkeyStr (s : State) : ReportsFirst .gkeyStr s (commandErr .gkeyStr s) := by
  by_cases hcnt : s.bcnt.toNat = 12
  · exact .of_ok (.inr ⟨hcnt, rfl⟩) (gkeyStrResult_eq_ok hcnt)
  · exact .of_error (.inl ⟨hcnt, rfl⟩) (gkeyStrResult_of_bcnt_ne hcnt)

theorem reportsFirst_gget (s : State) (fmt : Fmt) : ReportsFirst (.gget fmt) s (commandErr (.gget fmt) s) := by
  rcases lt_or_ge s.maxLen.bits s.argLen.toNat with hc | hc
  · exact .of_error (.inl ⟨hc, rfl⟩) (ggetResult_of_len_gt hc)
  · by_cases hbad : badPackLength fmt s.argLen.toNat
    · obtain ⟨hf, h8⟩ := hbad
      exact .of_error (.inr ⟨hc, .inl ⟨⟨hf, h8⟩, rfl⟩⟩) (ggetResult_of_part_byte hc hf h8)
    · exact .of_ok (.inr ⟨hc, .inr ⟨hbad, rfl⟩⟩) (ggetResult_eq_ok hc (bin_or_whole_bytes_of_not_bad hbad))

/-- Every legal command reports the first failing check of its order (60_exceptions.md R213). -/
theorem reportsFirst_commandErr (s : State) (hwf : i.wf = true) : ReportsFirst i s (commandErr i s) := by
  cases i with
  | tobits form dst => exact reportsFirst_tobits s form hwf
  | frombits fmt src => exact reportsFirst_frombits s fmt src
  | seedint => exact reportsFirst_seedint s
  | ecfg => exact reportsFirst_ecfg s
  | get fmt dflt => exact reportsFirst_get s fmt dflt
  | test supplied => exact reportsFirst_test s supplied
  | tcfg => exact reportsFirst_tcfg s
  | gkeyBin src => exact reportsFirst_gkeyBin s src
  | gkeyStr => exact reportsFirst_gkeyStr s
  | gget fmt => exact reportsFirst_gget s fmt

/-- The errors that the order of a command's checks names are those of its row in the table of errors
(60_exceptions.md R211, R213). -/
theorem ReportsFirst.success_or_mem_canRaise {e : ErrCode} (h : ReportsFirst i s e) :
    e = .success ∨ e ∈ canRaise i := by
  cases i with
  | tobits form dst =>
    obtain ⟨-, rfl⟩ | ⟨-, r, -, ⟨-, rfl⟩ | ⟨v, -, ⟨-, rfl⟩ | ⟨-, rfl⟩⟩⟩ := h <;> simp [canRaise]
  | frombits fmt src => obtain ⟨-, rfl⟩ | ⟨-, ⟨-, rfl⟩ | ⟨-, rfl⟩⟩ := h <;> simp [canRaise]
  | seedint =>
    obtain ⟨-, rfl⟩ | ⟨-, rfl⟩ | ⟨-, -, ⟨-, -, rfl⟩ | ⟨-, rfl⟩⟩ := h <;> simp [canRaise]
  | ecfg =>
    obtain ⟨-, rfl⟩ | ⟨-, rfl⟩ | ⟨-, -, ⟨-, rfl⟩ | ⟨-, ⟨-, rfl⟩ | ⟨-, rfl⟩⟩⟩ := h <;> simp [canRaise]
  | get fmt dflt =>
    obtain ⟨-, rfl⟩ | ⟨-, ⟨-, rfl⟩ | ⟨-, ⟨-, rfl⟩ | ⟨-, rfl⟩⟩⟩ := h <;> simp [canRaise]
  | test supplied =>
    obtain ⟨-, rfl⟩ | ⟨-, -, ⟨-, rfl⟩ | ⟨-, ⟨-, rfl⟩ | ⟨-, rfl⟩⟩⟩ |
      ⟨-, -, ⟨-, rfl⟩ | ⟨-, ⟨-, rfl⟩ | ⟨-, rfl⟩⟩⟩ := h <;> simp [canRaise]
  | tcfg => obtain ⟨-, rfl⟩ | ⟨-, v, st, -, -, ⟨-, rfl⟩ | ⟨-, rfl⟩⟩ := h <;> simp [canRaise]
  | gkeyBin src => obtain ⟨-, rfl⟩ | ⟨-, rfl⟩ := h <;> simp [canRaise]
  | gkeyStr => obtain ⟨-, rfl⟩ | ⟨-, rfl⟩ := h <;> simp [canRaise]
  | gget fmt => obtain ⟨-, rfl⟩ | ⟨-, ⟨-, rfl⟩ | ⟨-, rfl⟩⟩ := h <;> simp [canRaise]

end Sys2Proof.Machine
end

section
/-! The error statements (60_exceptions.md). -/

namespace Sys2Proof

open Machine

/-- Settles O50: a command that failed is its error entry, `State.raise`. -/
theorem errorsArePrecise : Obligations.ErrorsArePrecise := by
  unfold Obligations.ErrorsArePrecise
  exact fun i s t h he => eq_raise_of_err_ne h he

/-- Settles O51: results never reach STICKY, the error entry sets it, and of the steps only a bus cycle clears it. -/
theorem stickyClearedOnlyByHost : Obligations.StickyClearedOnlyByHost := by
  unfold Obligations.StickyClearedOnlyByHost
  refine ⟨fun i s t h => ⟨sticky_exec_of_success h, sticky_exec_of_err_ne h⟩, fun s t h hs ht => ?_⟩
  rcases step_next_cases h with ⟨w, i, -, -, hx⟩ | ⟨w, e, -, -, rfl⟩ | ⟨ha, hc⟩
  · exact absurd (ht.symm.trans (sticky_exec_of_sticky hx hs)) Bool.false_ne_true
  · exact absurd (ht.symm.trans (s.raise_sticky .commandError)) Bool.false_ne_true
  · exact ⟨ha, State.busCycle_clears_sticky hc hs ht⟩

/-- Settles O52: a command leaves `commandErr` in ERR, the code of its first failing check; an illegal word fails in
decoding. -/
theorem reportsFirstFailingCheck : Obligations.ReportsFirstFailingCheck := by
  unfold Obligations.ReportsFirstFailingCheck
  refine ⟨fun i s hwf => ?_, fun s w e hi hd => step_undecoded hi hd⟩
  obtain ⟨t, ht⟩ := exec_next i s
  exact ⟨t, ht, err_exec ht ▸ reportsFirst_commandErr s hwf⟩

/-- Settles O53: the order of a command's checks names only the errors of its row. -/
theorem errorsOfEachCommand : Obligations.ErrorsOfEachCommand := by
  unfold Obligations.ErrorsOfEachCommand
  intro i s t hwf h
  rw [err_exec h]
  exact (reportsFirst_commandErr s hwf).success_or_mem_canRaise

/-- Settles O59: bits 11:8 of STATUS are ERR's code, and the eight codes are those of R210's table. -/
theorem errorCodesInStatus : Obligations.ErrorCodesInStatus := by
  unfold Obligations.ErrorCodesInStatus
  refine ⟨fun s e c hmem he => ?_, fun s => ?_⟩ <;> rw [s.busRead_status_err]
  · rw [he, ErrCode.code_of_mem hmem]
  · exact s.err.code_toNat_le

end Sys2Proof
end

section
/-!
The protocol of the host (70_reset_and_hazards.md R250, R251): the cycles that stop the block, the cycles that wait for
a command in flight, and runs of steps.
-/

namespace Sys2Proof.Machine

variable {s t : State} {c : BusCycle}

/-! ### Protocol violations -/

/-- `c` is an access that 70_reset_and_hazards.md R251 forbids in a block that is `s` when the cycle is applied. -/
def State.Forbids (s : State) (c : BusCycle) : Prop :=
  c.sel = true ∧ (c.rst = true ∨ (s.busy = true ∧ ¬(c.we = false ∧ byteAddress c.a = 0x008)))

theorem BusCycle.readsStatus_iff (c : BusCycle) :
    c.readsStatus = true ↔ c.we = false ∧ byteAddress c.a = 0x008 := by
  simp [BusCycle.readsStatus, Reg.offset]

theorem State.busCycle_of_forbids (h : s.Forbids c) : s.busCycle c = .fault .hazardViolation := by
  obtain ⟨hsel, hrst | ⟨hbusy, hread⟩⟩ := h
  · simp [State.busCycle, hsel, hrst]
  · rw [← c.readsStatus_iff] at hread
    simp [State.busCycle, hsel, hbusy, hread]

/-- A cycle the protocol allows stops at neither check of the bus. -/
theorem State.busCycle_of_not_forbids (h : ¬s.Forbids c) : ∃ t, s.busCycle c = .next t := by
  cases hsel : c.sel with
  | false => cases hrst : c.rst <;> simp [State.busCycle, hsel, hrst]
  | true =>
    obtain ⟨hrst, hread⟩ := not_or.1 fun hv => h ⟨hsel, hv⟩
    rw [← c.readsStatus_iff] at hread
    have hcheck : (s.busy && !c.readsStatus) = false := by simpa using hread
    cases hwe : c.we <;> simp [State.busCycle, hsel, hrst, hcheck, hwe]

/-- Taking the cycle from the port does not end the command in flight. -/
@[simp] theorem State.busy_beforeCycle (s : State) : s.beforeCycle.busy = s.busy :=
  Option.isSome_map

theorem State.violates_iff (s : State) :
    s.Violates ↔ s.appliesCycle = true ∧ s.beforeCycle.Forbids s.nextCycle := by
  rw [State.Forbids, s.busy_beforeCycle]
  rfl

theorem step_of_violates (h : s.Violates) : step s = .fault .hazardViolation := by
  obtain ⟨ha, hf⟩ := s.violates_iff.1 h
  rw [step_cycle ha, State.busCycle_of_forbids hf]

/-- A step that breaks no protocol answers a next state: every command and every illegal word does
(60_exceptions.md R214, 30_encoding.md R89), and every cycle the protocol allows. -/
theorem step_of_not_violates (h : ¬s.Violates) : ∃ t, step s = .next t := by
  rcases step_cases s with ⟨w, i, -, -, hx⟩ | ⟨w, e, -, -, hx⟩ | ⟨ha, hx⟩ <;> rw [hx]
  · exact exec_next i s
  · exact ⟨_, rfl⟩
  · exact State.busCycle_of_not_forbids fun hf => h (s.violates_iff.2 ⟨ha, hf⟩)

/-! ### STATUS reads while BUSY = 1 -/

/-- A read of STATUS is answered whether or not a command is in flight (70_reset_and_hazards.md R250). -/
theorem State.busCycle_statusRead (s : State) (hr : c.rst = false) (hs : c.sel = true) (hw : c.we = false)
    (ha : byteAddress c.a = 0x008) : s.busCycle c = .next { s with rdata := some s.statusWord } := by
  have hread : c.readsStatus = true := c.readsStatus_iff.2 ⟨hw, ha⟩
  have hword : s.busRead 0x008 = s.statusWord := s.busRead_reg .status
  simp [State.busCycle, State.answerRead, hr, hs, hw, ha, hread, hword]

/-- STATUS shows no clocks and no port. -/
theorem State.statusWord_beforeCycle (s : State) : s.beforeCycle.statusWord = s.statusWord := by
  rw [State.statusWord, s.busy_beforeCycle]
  rfl

/-! ### Waiting for a command -/

/-- A cycle of a host that waits: no reset, and no access but a poll of STATUS (30_encoding.md R93). -/
def BusCycle.Quiet (c : BusCycle) : Prop :=
  c.rst = false ∧ (c.sel = false ∨ (c.we = false ∧ byteAddress c.a = 0x008))

/-- The first of the host's next quiet cycles, and the others; an empty port is an idle cycle (log 2). -/
theorem State.quiet_nextCycle {j : Nat} (h : ∀ c ∈ s.port.take (j + 1), c.Quiet) :
    s.nextCycle.Quiet ∧ ∀ c ∈ s.port.tail.take j, c.Quiet := by
  rw [State.nextCycle]
  cases hp : s.port with
  | nil => exact ⟨⟨rfl, .inl rfl⟩, by simp⟩
  | cons c rest =>
    rw [hp, List.take_succ_cons] at h
    exact ⟨h c List.mem_cons_self, fun d hd => h d (List.mem_cons_of_mem c hd)⟩

theorem State.eq_of_inflight {f : InFlight} (h : s.inflight = some f) : s = { s with inflight := some f } := by
  rw [← h]

/-- A run's first `j` clocks under a host that waits, with `k` clocks of the command left after them: nothing a command
reads is changed (70_reset_and_hazards.md R255), and the run goes on from there. -/
theorem run_waits {w : Word} {k : Nat} (j : Nat) (hf : s.inflight = some ⟨w, k + j⟩)
    (hq : ∀ c ∈ s.port.take j, c.Quiet) :
    ∃ d, ∀ m, Host.Core.run core (j + m) s =
      Host.Core.run core m { s with inflight := some ⟨w, k⟩, port := s.port.drop j, rdata := d } := by
  induction j generalizing s with
  | zero =>
    refine ⟨s.rdata, fun m => ?_⟩
    rw [Nat.zero_add]
    exact congrArg (Host.Core.run core m) (State.eq_of_inflight hf)
  | succ j ih =>
    obtain ⟨⟨hr, hc⟩, hrest⟩ := State.quiet_nextCycle hq
    obtain ⟨d, hstep⟩ := step_waits hf hr hc
    obtain ⟨d', hrun⟩ := ih (s := { s with inflight := some ⟨w, k + j⟩, port := s.port.tail, rdata := d }) rfl hrest
    simp only [List.drop_tail] at hrun
    refine ⟨d', fun m => ?_⟩
    rw [Nat.add_right_comm]
    exact (run_succ (j + m) hstep).trans (hrun m)

/-- A due command ends its step with BUSY = 0 and takes no cycle of the host. -/
theorem step_completes {w : Word} (h : s.inflight = some ⟨w, 0⟩) :
    ∃ t, step s = .next t ∧ t.inflight = none ∧ t.port = s.port := by
  cases hd : decode w with
  | error e => exact ⟨_, step_undecoded h hd, rfl, rfl⟩
  | ok i =>
    obtain ⟨t, ht⟩ := exec_next i s
    obtain ⟨-, -, hport, -⟩ := writesOnly_exec ht
    refine ⟨t, (step_decoded h hd).trans ht, ?_, hport⟩
    rcases exec_cases ht with ⟨e, -, rfl⟩ | ⟨u, -, rfl⟩ <;> rfl

end Sys2Proof.Machine
end

section
/-! The reset and hazard statements (70_reset_and_hazards.md). -/

namespace Sys2Proof

open Machine

/-- Settles O8: a violation is the cycle that the bus forbids, and nothing else in a step faults. -/
theorem faultsExactlyOnViolation : Obligations.FaultsExactlyOnViolation := by
  unfold Obligations.FaultsExactlyOnViolation
  refine fun s => ⟨fun h => ?_, step_of_violates⟩
  by_contra hv
  obtain ⟨t, ht⟩ := step_of_not_violates hv
  rw [h] at ht
  cases ht

/-- Settles O9, by induction on the steps: the first answers a next state, from which the others run on. -/
theorem protocolKeepsRunSafe : Obligations.ProtocolKeepsRunSafe := by
  unfold Obligations.ProtocolKeepsRunSafe
  intro s k h
  induction k generalizing s with
  | zero => exact ⟨s, rfl⟩
  | succ k ih =>
    obtain ⟨t, ht⟩ := step_of_not_violates (h 0 k.succ_pos s rfl)
    obtain ⟨u, hu⟩ := ih t fun j hj v hv => h (j + 1) (Nat.succ_lt_succ hj) v ((run_succ j ht).trans hv)
    exact ⟨u, (run_succ k ht).trans hu⟩

/-- Settles O58: the waiting clocks are `run_waits`, and the command is due after the last of them. -/
theorem commandCompletes : Obligations.CommandCompletes := by
  unfold Obligations.CommandCompletes
  intro s f hf
  refine ⟨fun hinv => hinv.busy f hf, fun hquiet => ⟨fun j hj => ?_, ?_⟩⟩
  · have hleft : s.inflight = some ⟨f.word, f.busyLeft - j + j⟩ := by rw [Nat.sub_add_cancel hj, hf]
    obtain ⟨d, hrun⟩ := run_waits j hleft fun c hc => hquiet c (List.take_subset_take_left _ hj hc)
    exact ⟨_, d, hrun 0, rfl, State.busRead_status_busy _⟩
  · obtain ⟨d, hrun⟩ := run_waits (k := 0) f.busyLeft (by rw [Nat.zero_add, hf]) hquiet
    obtain ⟨t, hstep, hidle, hport⟩ := step_completes (s := { s with
      inflight := some ⟨f.word, 0⟩, port := s.port.drop f.busyLeft, rdata := d }) rfl
    exact ⟨t, (hrun 1).trans (run_succ 0 hstep), hidle, hport⟩

/-- Settles O7: the word read is STATUS as it stands before the clock, where BUSY = 1. -/
theorem busyStatusReadShowsOldFields : Obligations.BusyStatusReadShowsOldFields := by
  unfold Obligations.BusyStatusReadShowsOldFields
  intro s w k c rest hf hp hr hs hw ha
  have happlies : s.appliesCycle = true := (appliesCycle_iff s).2 (.inr ⟨w, k, hf⟩)
  obtain ⟨hbusy, hcon, hv, hsticky⟩ := s.statusWord_flags
  obtain ⟨-, herr, -⟩ := s.statusWord_err_and_reserved
  refine ⟨s.statusWord, ?_, hbusy.trans (congrArg Option.isSome hf), hcon, hv, hsticky, herr⟩
  rw [step_cycle happlies, State.nextCycle_cons hp, State.busCycle_statusRead _ hr hs hw ha,
    s.statusWord_beforeCycle, State.beforeCycle, hf, hp]
  rfl

end Sys2Proof
end
